-- ==== Sys2Proof/Word.lean ====
section
/-!
DEFINITION. The two word types of the CPU: the byte its data bus carries and the 16-bit bus address (00_scope.md R9).
-/

namespace Sys2Proof

/-- One byte: a register, a bus datum, a memory cell (00_scope.md R9). -/
abbrev Byte := BitVec 8

/-- One address of the CPU bus (00_scope.md R9, 20_memory.md R100). -/
abbrev Addr := BitVec 16

end Sys2Proof
end

