-- ==== Sys2Proof/Config.lean ====
section
/-!
DEFINITION. What is fixed for the machine (00_scope.md R10) and the uninterpreted constants: nothing in Lean can evaluate an
`opaque` constant below, so a statement about the machine holds for every value of it.
-/

namespace Sys2Proof.Config

/-- `DMC_STALL`: CPU cycles stolen by each DMC fetch, fixed at 4 by the source (00 R10, 63 R665). -/
def dmcStall : Nat := 4

/-- `CPU_CLOCK_HZ` (00 R10, 70 R715): NTSC. No rule depends on it. -/
def cpuClockHz : Nat := 1789773

/-- `XAA_MAGIC`, the constant of XAA and LXA: OPEN, chip-dependent (00 R10, 46 R434, R435).
A free constant: log 9, safe. -/
opaque xaaMagic : Byte

/-!
The OPEN parameter `Cart` (00 R10, 63 R680): a cartridge the spec does not describe (a mapper) is a token `st` of plain data
and these uninterpreted functions of it. Each access answers from the token and replaces it, so that accesses may have
side effects (20 R105). Log 5.
-/

/-- `Cart.cpu_read(a)`: the byte driven at $4020-$FFFF, or none. -/
opaque cartCpuRead (st : Nat) (a : Addr) : Option Byte

/-- The cartridge after a CPU read. -/
opaque cartAfterCpuRead (st : Nat) (a : Addr) : Nat

/-- The cartridge after `Cart.cpu_write(a, v)`. -/
opaque cartAfterCpuWrite (st : Nat) (a : Addr) (v : Byte) : Nat

/-- `Cart.ppu_read(a)`, `a` a 14-bit PPU address. -/
opaque cartPpuRead (st : Nat) (a : BitVec 14) : Byte

/-- The cartridge after a PPU read. -/
opaque cartAfterPpuRead (st : Nat) (a : BitVec 14) : Nat

/-- The cartridge after `Cart.ppu_write(a, v)`. -/
opaque cartAfterPpuWrite (st : Nat) (a : BitVec 14) (v : Byte) : Nat

/-- `Cart.mirroring`, as the number of the value in the order of 63 R680 (0 HORIZONTAL, 1 VERTICAL, 2 ONE_SCREEN_LO,
3 ONE_SCREEN_HI, 4 FOUR_SCREEN). -/
opaque cartMirroring (st : Nat) : Fin 5

/-- `Cart.irq`, a level. -/
opaque cartIrq (st : Nat) : Bool

end Sys2Proof.Config
end

