-- ==== Sys2Proof/Machine/State.lean ====
section
/-!
DEFINITION. The state of the machine, all of it plain data (10_state.md, 61_ppu.md R500-R506, 62_apu.md R580-R584,
63_bus_dma_io.md R655, R670, R680), the ways a step can stop, and the state after reset. INVENTORY.md lists every field
with its rule and its reset value.
-/

namespace Sys2Proof.Machine

/-- A memory: the cells whose byte is not zero, by rising address. A cell not listed reads as zero (log 4). -/
abbrev Mem := List Host.Cell

/-- One scanline of a picture: the 9-bit pixels that are not zero, by rising column (61 R553). -/
abbrev PixelRow := List (Nat × BitVec 9)

/-- A picture: the scanlines that are not all zero, by rising scanline (61 R555). -/
abbrev Picture := List (Nat × PixelRow)

/-- The six stored flags of P (10 R57). -/
structure Flags where
  n : Bool
  v : Bool
  d : Bool
  i : Bool
  z : Bool
  c : Bool
deriving DecidableEq, Repr

/-- Bus DMA (63 R655). -/
structure Dma where
  oamPending : Bool
  oamPage : Byte
  dmcPending : Bool
deriving DecidableEq, Repr

/-- The controller ports (63 R670). -/
structure Pads where
  strobe : Bool
  buttons0 : Byte
  buttons1 : Byte
  shift0 : Byte
  shift1 : Byte
deriving DecidableEq, Repr

/-- One sprite render unit `spr[i]` (61 R500). -/
structure SpriteUnit where
  patLo : Byte
  patHi : Byte
  attr : Byte
  xc : Byte
deriving DecidableEq, Repr

/-- The PPU (61 R500, R501). `units` holds the eight render units in order. -/
structure Ppu where
  ctrl : Byte
  mask : Byte
  vbl : Bool
  sprite0Hit : Bool
  spriteOverflow : Bool
  oamAddr : Byte
  v : BitVec 15
  t : BitVec 15
  fineX : BitVec 3
  w : Bool
  readBuffer : Byte
  openBus : Byte
  scanline : Int
  dot : Nat
  oddFrame : Bool
  suppressVbl : Bool
  nmiPrev : Bool
  frameComplete : Bool
  frameCount : Nat
  ntByte : Byte
  atByte : BitVec 2
  ptLo : Byte
  ptHi : Byte
  bgLo : BitVec 16
  bgHi : BitVec 16
  atLo : Byte
  atHi : Byte
  atLatchLo : Bool
  atLatchHi : Bool
  units : List SpriteUnit
  secCount : Nat
  sprite0Next : Bool
  sprite0InUnits : Bool
  ciram : Mem
  palette : List (Nat × BitVec 6)
  oam : Mem
  secOam : Mem
  frame : Picture
  lastFrame : Picture
deriving DecidableEq, Repr

/-- The envelope unit of a pulse or noise channel (62 R580, R605). -/
structure Envelope where
  start : Bool
  divider : BitVec 4
  decay : BitVec 4
deriving DecidableEq, Repr

/-- A pulse channel (62 R580). -/
structure Pulse where
  enabled : Bool
  duty : BitVec 2
  halt : Bool
  constVol : Bool
  vol : BitVec 4
  env : Envelope
  sweepEn : Bool
  sweepPeriod : BitVec 3
  sweepNeg : Bool
  sweepShift : BitVec 3
  sweepReload : Bool
  sweepDivider : BitVec 3
  timerPeriod : BitVec 11
  timer : BitVec 11
  seq : BitVec 3
  length : Byte
deriving DecidableEq, Repr

/-- The triangle channel (62 R581). -/
structure Triangle where
  enabled : Bool
  control : Bool
  linReloadValue : BitVec 7
  linCounter : BitVec 7
  linReload : Bool
  timerPeriod : BitVec 11
  timer : BitVec 11
  seq : BitVec 5
  length : Byte
deriving DecidableEq, Repr

/-- The noise channel (62 R581). -/
structure Noise where
  enabled : Bool
  halt : Bool
  constVol : Bool
  vol : BitVec 4
  env : Envelope
  mode : Bool
  periodIndex : BitVec 4
  timer : BitVec 12
  lfsr : BitVec 15
  length : Byte
deriving DecidableEq, Repr

/-- The delta modulation channel (62 R582). -/
structure Dmc where
  irqEnable : Bool
  loop : Bool
  rateIndex : BitVec 4
  level : BitVec 7
  sampleAddr : Addr
  sampleLen : BitVec 12
  curAddr : Addr
  bytesRemaining : BitVec 12
  buffer : Byte
  bufferFull : Bool
  shift : Byte
  bitsRemaining : Nat
  silence : Bool
  timer : BitVec 9
  dmcIrq : Bool
deriving DecidableEq, Repr

/-- The APU (62 R580-R583). `fcMode` is set for the five-step sequence. -/
structure Apu where
  pulse1 : Pulse
  pulse2 : Pulse
  tri : Triangle
  noise : Noise
  dmc : Dmc
  fcMode : Bool
  fc : Nat
  fcInhibit : Bool
  frameIrq : Bool
  fcDelay : Nat
deriving DecidableEq, Repr

/-- `Cart.mirroring` (20 R114, 63 R680). -/
inductive Mirroring where
  | horizontal
  | vertical
  | oneScreenLo
  | oneScreenHi
  | fourScreen
deriving DecidableEq, Repr

/-- The reference cartridge (63 R681): PRG of 16 or 32 KiB, PRG-RAM of 8 KiB, CHR of 8 KiB (ROM or RAM), the cartridge's
own 2 KiB of nametable RAM for FOUR_SCREEN (20 R114, log 7), and the mirroring of its header. -/
structure Nrom where
  prg : Mem
  prg32k : Bool
  prgRam : Mem
  chr : Mem
  chrIsRam : Bool
  ntRam : Mem
  mirroring : Mirroring
deriving DecidableEq, Repr

/-- The cartridge on the two buses: the reference one as data, or any other as a token of the uninterpreted functions of
Config (63 R680, log 5). -/
inductive Cart where
  | nrom (n : Nrom)
  | external (st : Nat)
deriving DecidableEq, Repr

/-- `OTHER_UNDOC_POLICY` (00 R10, 46 R429). -/
inductive UndocPolicy where
  | refuse
  | nop1
  | nmos
deriving DecidableEq, Repr

/-- The default of `OTHER_UNDOC_POLICY` (00 R10, 30 R159, 46 R429). -/
def UndocPolicy.default : UndocPolicy := .refuse

/-- The whole machine: the CPU's registers and latches (10_state.md), its RAM, the bus DMA, the controller ports, the PPU,
the APU, the cartridge, and the policy parameter. -/
structure State where
  a : Byte
  x : Byte
  y : Byte
  sp : Byte
  pc : Addr
  p : Flags
  nmiPending : Bool
  resetPending : Bool
  jammed : Bool
  cycles : Nat
  busLatch : Byte
  ram : Mem
  dma : Dma
  pads : Pads
  ppu : Ppu
  apu : Apu
  cart : Cart
  undocPolicy : UndocPolicy
deriving DecidableEq, Repr

/-- How the machine can stop with a fault: in no way. The CPU has no synchronous exception (60 R450), every address and every
opcode decodes (20 R101, 30 R154), and a jam is a state in which the devices run on (46 R427). Log 20. -/
inductive Fault
deriving DecidableEq, Repr

/-- Why a step answers no next state. -/
inductive Refusal where
  /-- Raised by `exec` alone, for an instruction without a meaning; safe. No arm raises it in this model. -/
  | notModelled (mnemonic : String)
  /-- `Refused(opcode)` (00 R21): raised by the thirteen undocumented opcodes outside the nestest set when
  `undocPolicy` is `refuse` (46 R429); safe. -/
  | undocRefused (opcode : Byte)
deriving DecidableEq, Repr

/-- Six flags from the byte `{N, V, -, -, D, I, Z, C}` (10 R56, R57): bits 5 and 4 are discarded. -/
def Flags.ofByte (b : Byte) : Flags :=
  { n := b.getLsbD 7, v := b.getLsbD 6, d := b.getLsbD 3, i := b.getLsbD 2, z := b.getLsbD 1, c := b.getLsbD 0 }

/-- An envelope unit at power-on (62 R584). -/
def Envelope.powerOn : Envelope := { start := false, divider := 0, decay := 0 }

/-- A pulse channel at power-on (62 R584). -/
def Pulse.powerOn : Pulse :=
  { enabled := false, duty := 0, halt := false, constVol := false, vol := 0, env := .powerOn,
    sweepEn := false, sweepPeriod := 0, sweepNeg := false, sweepShift := 0, sweepReload := false, sweepDivider := 0,
    timerPeriod := 0, timer := 0, seq := 0, length := 0 }

/-- The triangle channel at power-on (62 R584). -/
def Triangle.powerOn : Triangle :=
  { enabled := false, control := false, linReloadValue := 0, linCounter := 0, linReload := false,
    timerPeriod := 0, timer := 0, seq := 0, length := 0 }

/-- The noise channel at power-on: `lfsr = 1` (62 R584). -/
def Noise.powerOn : Noise :=
  { enabled := false, halt := false, constVol := false, vol := 0, env := .powerOn, mode := false, periodIndex := 0,
    timer := 0, lfsr := 1, length := 0 }

/-- The DMC at power-on (62 R584). -/
def Dmc.powerOn : Dmc :=
  { irqEnable := false, loop := false, rateIndex := 0, level := 0, sampleAddr := 0xC000, sampleLen := 1, curAddr := 0,
    bytesRemaining := 0, buffer := 0, bufferFull := false, shift := 0, bitsRemaining := 8, silence := true, timer := 0,
    dmcIrq := false }

/-- The APU at power-on (62 R584). -/
def Apu.powerOn : Apu :=
  { pulse1 := .powerOn, pulse2 := .powerOn, tri := .powerOn, noise := .powerOn, dmc := .powerOn,
    fcMode := false, fc := 0, fcInhibit := false, frameIrq := false, fcDelay := 0 }

/-- A sprite unit at power-on (61 R506). -/
def SpriteUnit.powerOn : SpriteUnit := { patLo := 0, patHi := 0, attr := 0, xc := 0 }

/-- The PPU at power-on (61 R506), with the OPEN contents of its memories as arguments (61 R505). -/
def Ppu.powerOn (vramInit : Mem) (paletteInit : List (Nat × BitVec 6)) (oamInit secOamInit : Mem) : Ppu :=
  { ctrl := 0, mask := 0, vbl := false, sprite0Hit := false, spriteOverflow := false, oamAddr := 0, v := 0, t := 0,
    fineX := 0, w := false, readBuffer := 0, openBus := 0, scanline := 0, dot := 0, oddFrame := false,
    suppressVbl := false, nmiPrev := false, frameComplete := false, frameCount := 0, ntByte := 0, atByte := 0, ptLo := 0,
    ptHi := 0, bgLo := 0, bgHi := 0, atLo := 0, atHi := 0, atLatchLo := false, atLatchHi := false,
    units := List.replicate 8 .powerOn, secCount := 0, sprite0Next := false, sprite0InUnits := false,
    ciram := vramInit, palette := paletteInit, oam := oamInit, secOam := secOamInit, frame := [], lastFrame := [] }

/-- The controller ports at power-on (63 R670). -/
def Pads.powerOn : Pads := { strobe := false, buttons0 := 0, buttons1 := 0, shift0 := 0, shift1 := 0 }

/-- Bus DMA at power-on (63 R655). -/
def Dma.powerOn : Dma := { oamPending := false, oamPage := 0, dmcPending := false }

/-- A 32 KiB reference cartridge with no byte placed in it: the cartridge of `State.reset` (log 6). -/
def Nrom.empty : Nrom :=
  { prg := [], prg32k := true, prgRam := [], chr := [], chrIsRam := true, ntRam := [], mirroring := .horizontal }

/-- The power-on state (70 R700), before any cycle, for any contents of the memories the spec leaves OPEN (`RAM_INIT`,
`VRAM_INIT`, `PALETTE_INIT`, `OAM_INIT`; 10 R72, 61 R505), any cartridge (63 R680), and the policy of 46 R429, `refuse` unless
another is given (00 R10). -/
def State.powerOn (ramInit vramInit : Mem) (paletteInit : List (Nat × BitVec 6)) (oamInit secOamInit : Mem) (cart : Cart)
    (policy : UndocPolicy := .default) : State :=
  { a := 0, x := 0, y := 0, sp := 0, pc := 0, p := .ofByte 0x24, nmiPending := false, resetPending := true,
    jammed := false, cycles := 0, busLatch := 0, ram := ramInit, dma := .powerOn, pads := .powerOn,
    ppu := .powerOn vramInit paletteInit oamInit secOamInit, apu := .powerOn, cart := cart, undocPolicy := policy }

/-- The state at the first instruction fetch after power-on as 70 R701 states it, for the parameters' defaults (00 R10), with
memory with nothing listed (log 3) and the empty cartridge (log 6). The APU is as at power-on except `fc = 7`; the timers the
seven APU steps of the reset sequence move are log 2. Log 1. -/
def State.reset : State :=
  { State.powerOn [] [] [] [] [] (.nrom .empty) with
    sp := 0xFD
    p := .ofByte 0x24
    pc := 0
    resetPending := false
    cycles := 7
    busLatch := 0
    ppu := { Ppu.powerOn [] [] [] [] with dot := 21 }
    apu := { Apu.powerOn with fc := 7 } }

end Sys2Proof.Machine
end

