-- ==== Sys2Proof/Machine/Flags.lean ====
section
/-!
DEFINITION. Every flag computation of the instruction set, on the flags and the bytes alone (00_scope.md R19, 42_arith_logic.md
R280, R281, R290, 43_shift_incdec.md R310-R313, 46_undocumented.md R430-R433).
-/

namespace Sys2Proof.Machine

/-- Bit 7 of a byte. -/
def negative (v : Byte) : Bool := v.getLsbD 7

/-- `NZ(v)` (00 R19). -/
def Flags.nz (p : Flags) (v : Byte) : Flags := { p with n := negative v, z := v == 0 }

/-- `AddCore` (42 R280): the sum of A, the operand and C, and the flags N V Z C. D has no effect. -/
def addCore (a m : Byte) (p : Flags) : Byte × Flags :=
  let t := a.toNat + m.toNat + p.c.toNat
  let r := BitVec.ofNat 8 t
  (r, { p.nz r with v := negative ((a ^^^ r) &&& (m ^^^ r)), c := decide (0xFF < t) })

/-- `CompareCore` (42 R281): the flags N Z C of an unsigned compare. -/
def compareCore (r m : Byte) (p : Flags) : Flags := { p.nz (r - m) with c := decide (m.toNat ≤ r.toNat) }

/-- The flags of BIT (42 R290): N and V from the operand, Z from `A & M`. -/
def bitCore (a m : Byte) (p : Flags) : Flags := { p with n := m.getLsbD 7, v := m.getLsbD 6, z := a &&& m == 0 }

/-- The shift of ASL (43 R310), without N and Z. -/
def aslCore (v : Byte) (p : Flags) : Byte × Flags := (v <<< 1, { p with c := v.getLsbD 7 })

/-- The shift of LSR (43 R311), without N and Z. -/
def lsrCore (v : Byte) (p : Flags) : Byte × Flags := (v >>> 1, { p with c := v.getLsbD 0 })

/-- The rotation of ROL (43 R312), without N and Z. -/
def rolCore (v : Byte) (p : Flags) : Byte × Flags :=
  ((v <<< 1) ||| (BitVec.ofBool p.c).setWidth 8, { p with c := v.getLsbD 7 })

/-- The rotation of ROR (43 R313), without N and Z. -/
def rorCore (v : Byte) (p : Flags) : Byte × Flags :=
  ((v >>> 1) ||| ((BitVec.ofBool p.c).setWidth 8 <<< 7), { p with c := v.getLsbD 0 })

/-- A shift with N and Z set from its result, as the official instructions have it (43 R310-R313). -/
def withNz (r : Byte × Flags) : Byte × Flags := (r.1, r.2.nz r.1)

/-- The flags of ARR (46 R432): C is bit 6 of the result, V the exclusive or of bits 6 and 5. -/
def arrCore (a m : Byte) (p : Flags) : Byte × Flags :=
  let r := (rorCore (a &&& m) p).1
  (r, { p.nz r with c := r.getLsbD 6, v := r.getLsbD 6 ^^ r.getLsbD 5 })

/-- AXS (46 R433): `(A & X) - imm` and the flags N Z C of that compare. -/
def axsCore (a x m : Byte) (p : Flags) : Byte × Flags := ((a &&& x) - m, compareCore (a &&& x) m p)

end Sys2Proof.Machine
end

