-- ==== Sys2Proof/Syntax/Modes.lean ====
section
/-!
DEFINITION. The operand forms an instruction carries: the addressing modes of 40_addressing.md (R201-R213), each with the
operand bytes of its format (30_encoding.md R151, R152).
-/

namespace Sys2Proof

/-- The eight modes that name a byte of memory. -/
inductive MemMode where
  /-- zero page, `$nn` (R204) -/
  | zp (z : Byte)
  /-- zero page,X, `$nn,X` (R205) -/
  | zpX (z : Byte)
  /-- zero page,Y, `$nn,Y` (R206) -/
  | zpY (z : Byte)
  /-- absolute, `$hhll` (R207) -/
  | abs (a : Addr)
  /-- absolute,X, `$hhll,X` (R208) -/
  | absX (a : Addr)
  /-- absolute,Y, `$hhll,Y` (R209) -/
  | absY (a : Addr)
  /-- indexed indirect, `($nn,X)` (R210) -/
  | indX (z : Byte)
  /-- indirect indexed, `($nn),Y` (R211) -/
  | indY (z : Byte)
deriving DecidableEq, Repr

/-- The operand of a read-class instruction (R214): an immediate byte (R203) or a byte of memory. -/
inductive ReadOperand where
  | imm (i : Byte)
  | mem (m : MemMode)
deriving DecidableEq, Repr

/-- The operand of a shift or rotate: the accumulator (R202) or a byte of memory. -/
inductive RmwOperand where
  | acc
  | mem (m : MemMode)
deriving DecidableEq, Repr

/-- The operand of a NOP (45 R381, 46 R400-R405): none (implied), or a read operand whose value is discarded. -/
inductive NopOperand where
  | implied
  | read (o : ReadOperand)
deriving DecidableEq, Repr

/-- A memory mode without its operand bytes: what an opcode selects. -/
inductive ModeKind where
  | zp | zpX | zpY | abs | absX | absY | indX | indY
deriving DecidableEq, Repr

/-- The mode an operand is in. -/
def MemMode.kind : MemMode → ModeKind
  | .zp _ => .zp
  | .zpX _ => .zpX
  | .zpY _ => .zpY
  | .abs _ => .abs
  | .absX _ => .absX
  | .absY _ => .absY
  | .indX _ => .indX
  | .indY _ => .indY

end Sys2Proof
end

