-- ==== Sys2Proof/Syntax.lean ====
section
/-!
DEFINITION. The instructions: one constructor per instruction of spec/opcode_table.json, its addressing modes as operand data,
so that every one of the 256 rows is one constructor at one operand form (30_encoding.md R154, R156).
Three mnemonics have rows that differ in more than the operand, and say so in their data or in a second constructor:
NOP and KIL and ANC carry their opcode byte, SBC $EB and JMP indirect have constructors of their own.
-/

namespace Sys2Proof

/-- An instruction of the 2A03's CPU. -/
inductive Instr where
  -- 41_load_store_transfer.md
  | lda (o : ReadOperand)
  | ldx (o : ReadOperand)
  | ldy (o : ReadOperand)
  | sta (m : MemMode)
  | stx (m : MemMode)
  | sty (m : MemMode)
  | tax
  | tay
  | txa
  | tya
  | tsx
  | txs
  -- 42_arith_logic.md
  | adc (o : ReadOperand)
  | sbc (o : ReadOperand)
  | and (o : ReadOperand)
  | ora (o : ReadOperand)
  | eor (o : ReadOperand)
  | cmp (o : ReadOperand)
  | cpx (o : ReadOperand)
  | cpy (o : ReadOperand)
  | bit (o : ReadOperand)
  -- 43_shift_incdec.md
  | asl (o : RmwOperand)
  | lsr (o : RmwOperand)
  | rol (o : RmwOperand)
  | ror (o : RmwOperand)
  | inc (m : MemMode)
  | dec (m : MemMode)
  | inx
  | iny
  | dex
  | dey
  -- 44_control_flow.md
  | bpl (r : Byte)
  | bmi (r : Byte)
  | bvc (r : Byte)
  | bvs (r : Byte)
  | bcc (r : Byte)
  | bcs (r : Byte)
  | bne (r : Byte)
  | beq (r : Byte)
  | jmp (target : Addr)
  | jmpInd (pointer : Addr)
  | jsr (target : Addr)
  | rts
  | rti
  | brk
  -- 45_stack_flags_nop.md
  | pha
  | php
  | pla
  | plp
  | clc
  | sec
  | cli
  | sei
  | cld
  | sed
  | clv
  -- 45 R381 and 46 R400-R405: the 28 NOP rows, told apart by their opcode byte
  | nop (op : Byte) (o : NopOperand)
  -- 46_undocumented.md, the nestest set
  | lax (m : MemMode)
  | sax (m : MemMode)
  | sbcEB (i : Byte)
  | slo (m : MemMode)
  | rla (m : MemMode)
  | sre (m : MemMode)
  | rra (m : MemMode)
  | dcp (m : MemMode)
  | isb (m : MemMode)
  -- 46 R427: the twelve KIL rows
  | kil (op : Byte)
  -- 46 R429-R442: the thirteen others
  | anc (op : Byte) (i : Byte)
  | alr (i : Byte)
  | arr (i : Byte)
  | axs (i : Byte)
  | xaa (i : Byte)
  | lxa (i : Byte)
  | las (a : Addr)
  | sha (m : MemMode)
  | shx (a : Addr)
  | shy (a : Addr)
  | tas (a : Addr)
deriving DecidableEq, Repr

end Sys2Proof
end

