-- ==== Sys2Proof/WellFormed.lean ====
section
/-!
DEFINITION. Well-formed instructions: the operand forms the opcode map of 30_encoding.md R156 gives each instruction, and the
opcode bytes of the rows that carry theirs.
-/

namespace Sys2Proof

/-- The memory operand is in one of the listed modes. -/
def MemMode.isIn (ks : List ModeKind) (m : MemMode) : Bool := ks.contains m.kind

/-- The operand is immediate, or in one of the listed memory modes. -/
def ReadOperand.immOrIn (ks : List ModeKind) : ReadOperand → Bool
  | .imm _ => true
  | .mem m => m.isIn ks

/-- The operand is in memory, in one of the listed modes. -/
def ReadOperand.memIn (ks : List ModeKind) : ReadOperand → Bool
  | .imm _ => false
  | .mem m => m.isIn ks

/-- The operand is the accumulator, or in one of the listed memory modes. -/
def RmwOperand.accOrIn (ks : List ModeKind) : RmwOperand → Bool
  | .acc => true
  | .mem m => m.isIn ks

/-- The seven memory modes of the eight ALU operations (42 R282) and, as stores, of STA (41 R253). -/
def aluModes : List ModeKind := [.zp, .zpX, .abs, .absX, .absY, .indX, .indY]

/-- The four memory modes of the official read-modify-write instructions (43 R310-R315). -/
def rmwModes : List ModeKind := [.zp, .zpX, .abs, .absX]

/-- The opcode byte and the operand form of the 28 NOP rows (45 R381, 46 R400-R405). -/
def nopForm (op : Byte) : NopOperand → Bool
  | .implied => [0xEA#8, 0x1A#8, 0x3A#8, 0x5A#8, 0x7A#8, 0xDA#8, 0xFA#8].contains op
  | .read (.imm _) => [0x80#8, 0x82#8, 0x89#8, 0xC2#8, 0xE2#8].contains op
  | .read (.mem m) =>
    match m.kind with
    | .zp => [0x04#8, 0x44#8, 0x64#8].contains op
    | .zpX => [0x14#8, 0x34#8, 0x54#8, 0x74#8, 0xD4#8, 0xF4#8].contains op
    | .abs => op == 0x0C#8
    | .absX => [0x1C#8, 0x3C#8, 0x5C#8, 0x7C#8, 0xDC#8, 0xFC#8].contains op
    | .zpY | .absY | .indX | .indY => false

/-- The twelve KIL opcode bytes (30 R158). -/
def kilOpcodes : List Byte :=
  [0x02#8, 0x12#8, 0x22#8, 0x32#8, 0x42#8, 0x52#8, 0x62#8, 0x72#8, 0x92#8, 0xB2#8, 0xD2#8, 0xF2#8]

/-- The instruction is a row of the opcode map: its operand form is one the map gives its mnemonic. -/
def Instr.wellFormed : Instr → Bool
  | .lda o | .adc o | .sbc o | .and o | .ora o | .eor o | .cmp o => o.immOrIn aluModes
  | .ldx o => o.immOrIn [.zp, .zpY, .abs, .absY]
  | .ldy o => o.immOrIn [.zp, .zpX, .abs, .absX]
  | .cpx o | .cpy o => o.immOrIn [.zp, .abs]
  | .bit o => o.memIn [.zp, .abs]
  | .sta m => m.isIn aluModes
  | .stx m => m.isIn [.zp, .zpY, .abs]
  | .sty m => m.isIn [.zp, .zpX, .abs]
  | .asl o | .lsr o | .rol o | .ror o => o.accOrIn rmwModes
  | .inc m | .dec m => m.isIn rmwModes
  | .nop op o => nopForm op o
  | .lax m => m.isIn [.zp, .zpY, .abs, .absY, .indX, .indY]
  | .sax m => m.isIn [.zp, .zpY, .abs, .indX]
  | .slo m | .rla m | .sre m | .rra m | .dcp m | .isb m => m.isIn aluModes
  | .kil op => kilOpcodes.contains op
  | .anc op _ => op == 0x0B#8 || op == 0x2B#8
  | .sha m => m.isIn [.absY, .indY]
  | .tax | .tay | .txa | .tya | .tsx | .txs | .inx | .iny | .dex | .dey => true
  | .bpl _ | .bmi _ | .bvc _ | .bvs _ | .bcc _ | .bcs _ | .bne _ | .beq _ => true
  | .jmp _ | .jmpInd _ | .jsr _ | .rts | .rti | .brk => true
  | .pha | .php | .pla | .plp | .clc | .sec | .cli | .sei | .cld | .sed | .clv => true
  | .sbcEB _ | .alr _ | .arr _ | .axs _ | .xaa _ | .lxa _ => true
  | .las _ | .shx _ | .shy _ | .tas _ => true

end Sys2Proof
end

