-- ==== Sys2Proof/Decode.lean ====
section
/-!
DEFINITION. From bytes to instructions and back (30_encoding.md): the decoder, total on bytes (R154), the encoder, and the
byte-order helpers they and the machine use (20_memory.md R109).
-/

namespace Sys2Proof

/-- `h:l`, the 16-bit value with high byte `h` and low byte `l` (00_scope.md R13). -/
def joinBytes (h l : Byte) : Addr := h ++ l

/-- The low byte of a 16-bit value, the one at the lower address (20 R109). -/
def lowByte (a : Addr) : Byte := a.extractLsb' 0 8

/-- The high byte of a 16-bit value. -/
def highByte (a : Addr) : Byte := a.extractLsb' 8 8

/-- `sext_8(r)` added to an address modulo 2^16 (00 R14, 30 R152). -/
def addSigned (a : Addr) (r : Byte) : Addr := a + r.signExtend 16

/-- Row 0x of the opcode map (30 R156). -/
def decodeRow0 (lo : Nat) (b1 b2 : Byte) : Instr :=
  match lo with
  | 0 => .brk
  | 1 => .ora (.mem (.indX b1))
  | 2 => .kil 0x02#8
  | 3 => .slo (.indX b1)
  | 4 => .nop 0x04#8 (.read (.mem (.zp b1)))
  | 5 => .ora (.mem (.zp b1))
  | 6 => .asl (.mem (.zp b1))
  | 7 => .slo (.zp b1)
  | 8 => .php
  | 9 => .ora (.imm b1)
  | 10 => .asl .acc
  | 11 => .anc 0x0B#8 b1
  | 12 => .nop 0x0C#8 (.read (.mem (.abs (joinBytes b2 b1))))
  | 13 => .ora (.mem (.abs (joinBytes b2 b1)))
  | 14 => .asl (.mem (.abs (joinBytes b2 b1)))
  | _ => .slo (.abs (joinBytes b2 b1))

/-- Row 1x of the opcode map (30 R156). -/
def decodeRow1 (lo : Nat) (b1 b2 : Byte) : Instr :=
  match lo with
  | 0 => .bpl b1
  | 1 => .ora (.mem (.indY b1))
  | 2 => .kil 0x12#8
  | 3 => .slo (.indY b1)
  | 4 => .nop 0x14#8 (.read (.mem (.zpX b1)))
  | 5 => .ora (.mem (.zpX b1))
  | 6 => .asl (.mem (.zpX b1))
  | 7 => .slo (.zpX b1)
  | 8 => .clc
  | 9 => .ora (.mem (.absY (joinBytes b2 b1)))
  | 10 => .nop 0x1A#8 .implied
  | 11 => .slo (.absY (joinBytes b2 b1))
  | 12 => .nop 0x1C#8 (.read (.mem (.absX (joinBytes b2 b1))))
  | 13 => .ora (.mem (.absX (joinBytes b2 b1)))
  | 14 => .asl (.mem (.absX (joinBytes b2 b1)))
  | _ => .slo (.absX (joinBytes b2 b1))

/-- Row 2x of the opcode map (30 R156). -/
def decodeRow2 (lo : Nat) (b1 b2 : Byte) : Instr :=
  match lo with
  | 0 => .jsr (joinBytes b2 b1)
  | 1 => .and (.mem (.indX b1))
  | 2 => .kil 0x22#8
  | 3 => .rla (.indX b1)
  | 4 => .bit (.mem (.zp b1))
  | 5 => .and (.mem (.zp b1))
  | 6 => .rol (.mem (.zp b1))
  | 7 => .rla (.zp b1)
  | 8 => .plp
  | 9 => .and (.imm b1)
  | 10 => .rol .acc
  | 11 => .anc 0x2B#8 b1
  | 12 => .bit (.mem (.abs (joinBytes b2 b1)))
  | 13 => .and (.mem (.abs (joinBytes b2 b1)))
  | 14 => .rol (.mem (.abs (joinBytes b2 b1)))
  | _ => .rla (.abs (joinBytes b2 b1))

/-- Row 3x of the opcode map (30 R156). -/
def decodeRow3 (lo : Nat) (b1 b2 : Byte) : Instr :=
  match lo with
  | 0 => .bmi b1
  | 1 => .and (.mem (.indY b1))
  | 2 => .kil 0x32#8
  | 3 => .rla (.indY b1)
  | 4 => .nop 0x34#8 (.read (.mem (.zpX b1)))
  | 5 => .and (.mem (.zpX b1))
  | 6 => .rol (.mem (.zpX b1))
  | 7 => .rla (.zpX b1)
  | 8 => .sec
  | 9 => .and (.mem (.absY (joinBytes b2 b1)))
  | 10 => .nop 0x3A#8 .implied
  | 11 => .rla (.absY (joinBytes b2 b1))
  | 12 => .nop 0x3C#8 (.read (.mem (.absX (joinBytes b2 b1))))
  | 13 => .and (.mem (.absX (joinBytes b2 b1)))
  | 14 => .rol (.mem (.absX (joinBytes b2 b1)))
  | _ => .rla (.absX (joinBytes b2 b1))

/-- Row 4x of the opcode map (30 R156). -/
def decodeRow4 (lo : Nat) (b1 b2 : Byte) : Instr :=
  match lo with
  | 0 => .rti
  | 1 => .eor (.mem (.indX b1))
  | 2 => .kil 0x42#8
  | 3 => .sre (.indX b1)
  | 4 => .nop 0x44#8 (.read (.mem (.zp b1)))
  | 5 => .eor (.mem (.zp b1))
  | 6 => .lsr (.mem (.zp b1))
  | 7 => .sre (.zp b1)
  | 8 => .pha
  | 9 => .eor (.imm b1)
  | 10 => .lsr .acc
  | 11 => .alr b1
  | 12 => .jmp (joinBytes b2 b1)
  | 13 => .eor (.mem (.abs (joinBytes b2 b1)))
  | 14 => .lsr (.mem (.abs (joinBytes b2 b1)))
  | _ => .sre (.abs (joinBytes b2 b1))

/-- Row 5x of the opcode map (30 R156). -/
def decodeRow5 (lo : Nat) (b1 b2 : Byte) : Instr :=
  match lo with
  | 0 => .bvc b1
  | 1 => .eor (.mem (.indY b1))
  | 2 => .kil 0x52#8
  | 3 => .sre (.indY b1)
  | 4 => .nop 0x54#8 (.read (.mem (.zpX b1)))
  | 5 => .eor (.mem (.zpX b1))
  | 6 => .lsr (.mem (.zpX b1))
  | 7 => .sre (.zpX b1)
  | 8 => .cli
  | 9 => .eor (.mem (.absY (joinBytes b2 b1)))
  | 10 => .nop 0x5A#8 .implied
  | 11 => .sre (.absY (joinBytes b2 b1))
  | 12 => .nop 0x5C#8 (.read (.mem (.absX (joinBytes b2 b1))))
  | 13 => .eor (.mem (.absX (joinBytes b2 b1)))
  | 14 => .lsr (.mem (.absX (joinBytes b2 b1)))
  | _ => .sre (.absX (joinBytes b2 b1))

/-- Row 6x of the opcode map (30 R156). -/
def decodeRow6 (lo : Nat) (b1 b2 : Byte) : Instr :=
  match lo with
  | 0 => .rts
  | 1 => .adc (.mem (.indX b1))
  | 2 => .kil 0x62#8
  | 3 => .rra (.indX b1)
  | 4 => .nop 0x64#8 (.read (.mem (.zp b1)))
  | 5 => .adc (.mem (.zp b1))
  | 6 => .ror (.mem (.zp b1))
  | 7 => .rra (.zp b1)
  | 8 => .pla
  | 9 => .adc (.imm b1)
  | 10 => .ror .acc
  | 11 => .arr b1
  | 12 => .jmpInd (joinBytes b2 b1)
  | 13 => .adc (.mem (.abs (joinBytes b2 b1)))
  | 14 => .ror (.mem (.abs (joinBytes b2 b1)))
  | _ => .rra (.abs (joinBytes b2 b1))

/-- Row 7x of the opcode map (30 R156). -/
def decodeRow7 (lo : Nat) (b1 b2 : Byte) : Instr :=
  match lo with
  | 0 => .bvs b1
  | 1 => .adc (.mem (.indY b1))
  | 2 => .kil 0x72#8
  | 3 => .rra (.indY b1)
  | 4 => .nop 0x74#8 (.read (.mem (.zpX b1)))
  | 5 => .adc (.mem (.zpX b1))
  | 6 => .ror (.mem (.zpX b1))
  | 7 => .rra (.zpX b1)
  | 8 => .sei
  | 9 => .adc (.mem (.absY (joinBytes b2 b1)))
  | 10 => .nop 0x7A#8 .implied
  | 11 => .rra (.absY (joinBytes b2 b1))
  | 12 => .nop 0x7C#8 (.read (.mem (.absX (joinBytes b2 b1))))
  | 13 => .adc (.mem (.absX (joinBytes b2 b1)))
  | 14 => .ror (.mem (.absX (joinBytes b2 b1)))
  | _ => .rra (.absX (joinBytes b2 b1))

/-- Row 8x of the opcode map (30 R156). -/
def decodeRow8 (lo : Nat) (b1 b2 : Byte) : Instr :=
  match lo with
  | 0 => .nop 0x80#8 (.read (.imm b1))
  | 1 => .sta (.indX b1)
  | 2 => .nop 0x82#8 (.read (.imm b1))
  | 3 => .sax (.indX b1)
  | 4 => .sty (.zp b1)
  | 5 => .sta (.zp b1)
  | 6 => .stx (.zp b1)
  | 7 => .sax (.zp b1)
  | 8 => .dey
  | 9 => .nop 0x89#8 (.read (.imm b1))
  | 10 => .txa
  | 11 => .xaa b1
  | 12 => .sty (.abs (joinBytes b2 b1))
  | 13 => .sta (.abs (joinBytes b2 b1))
  | 14 => .stx (.abs (joinBytes b2 b1))
  | _ => .sax (.abs (joinBytes b2 b1))

/-- Row 9x of the opcode map (30 R156). -/
def decodeRow9 (lo : Nat) (b1 b2 : Byte) : Instr :=
  match lo with
  | 0 => .bcc b1
  | 1 => .sta (.indY b1)
  | 2 => .kil 0x92#8
  | 3 => .sha (.indY b1)
  | 4 => .sty (.zpX b1)
  | 5 => .sta (.zpX b1)
  | 6 => .stx (.zpY b1)
  | 7 => .sax (.zpY b1)
  | 8 => .tya
  | 9 => .sta (.absY (joinBytes b2 b1))
  | 10 => .txs
  | 11 => .tas (joinBytes b2 b1)
  | 12 => .shy (joinBytes b2 b1)
  | 13 => .sta (.absX (joinBytes b2 b1))
  | 14 => .shx (joinBytes b2 b1)
  | _ => .sha (.absY (joinBytes b2 b1))

/-- Row Ax of the opcode map (30 R156). -/
def decodeRowA (lo : Nat) (b1 b2 : Byte) : Instr :=
  match lo with
  | 0 => .ldy (.imm b1)
  | 1 => .lda (.mem (.indX b1))
  | 2 => .ldx (.imm b1)
  | 3 => .lax (.indX b1)
  | 4 => .ldy (.mem (.zp b1))
  | 5 => .lda (.mem (.zp b1))
  | 6 => .ldx (.mem (.zp b1))
  | 7 => .lax (.zp b1)
  | 8 => .tay
  | 9 => .lda (.imm b1)
  | 10 => .tax
  | 11 => .lxa b1
  | 12 => .ldy (.mem (.abs (joinBytes b2 b1)))
  | 13 => .lda (.mem (.abs (joinBytes b2 b1)))
  | 14 => .ldx (.mem (.abs (joinBytes b2 b1)))
  | _ => .lax (.abs (joinBytes b2 b1))

/-- Row Bx of the opcode map (30 R156). -/
def decodeRowB (lo : Nat) (b1 b2 : Byte) : Instr :=
  match lo with
  | 0 => .bcs b1
  | 1 => .lda (.mem (.indY b1))
  | 2 => .kil 0xB2#8
  | 3 => .lax (.indY b1)
  | 4 => .ldy (.mem (.zpX b1))
  | 5 => .lda (.mem (.zpX b1))
  | 6 => .ldx (.mem (.zpY b1))
  | 7 => .lax (.zpY b1)
  | 8 => .clv
  | 9 => .lda (.mem (.absY (joinBytes b2 b1)))
  | 10 => .tsx
  | 11 => .las (joinBytes b2 b1)
  | 12 => .ldy (.mem (.absX (joinBytes b2 b1)))
  | 13 => .lda (.mem (.absX (joinBytes b2 b1)))
  | 14 => .ldx (.mem (.absY (joinBytes b2 b1)))
  | _ => .lax (.absY (joinBytes b2 b1))

/-- Row Cx of the opcode map (30 R156). -/
def decodeRowC (lo : Nat) (b1 b2 : Byte) : Instr :=
  match lo with
  | 0 => .cpy (.imm b1)
  | 1 => .cmp (.mem (.indX b1))
  | 2 => .nop 0xC2#8 (.read (.imm b1))
  | 3 => .dcp (.indX b1)
  | 4 => .cpy (.mem (.zp b1))
  | 5 => .cmp (.mem (.zp b1))
  | 6 => .dec (.zp b1)
  | 7 => .dcp (.zp b1)
  | 8 => .iny
  | 9 => .cmp (.imm b1)
  | 10 => .dex
  | 11 => .axs b1
  | 12 => .cpy (.mem (.abs (joinBytes b2 b1)))
  | 13 => .cmp (.mem (.abs (joinBytes b2 b1)))
  | 14 => .dec (.abs (joinBytes b2 b1))
  | _ => .dcp (.abs (joinBytes b2 b1))

/-- Row Dx of the opcode map (30 R156). -/
def decodeRowD (lo : Nat) (b1 b2 : Byte) : Instr :=
  match lo with
  | 0 => .bne b1
  | 1 => .cmp (.mem (.indY b1))
  | 2 => .kil 0xD2#8
  | 3 => .dcp (.indY b1)
  | 4 => .nop 0xD4#8 (.read (.mem (.zpX b1)))
  | 5 => .cmp (.mem (.zpX b1))
  | 6 => .dec (.zpX b1)
  | 7 => .dcp (.zpX b1)
  | 8 => .cld
  | 9 => .cmp (.mem (.absY (joinBytes b2 b1)))
  | 10 => .nop 0xDA#8 .implied
  | 11 => .dcp (.absY (joinBytes b2 b1))
  | 12 => .nop 0xDC#8 (.read (.mem (.absX (joinBytes b2 b1))))
  | 13 => .cmp (.mem (.absX (joinBytes b2 b1)))
  | 14 => .dec (.absX (joinBytes b2 b1))
  | _ => .dcp (.absX (joinBytes b2 b1))

/-- Row Ex of the opcode map (30 R156). -/
def decodeRowE (lo : Nat) (b1 b2 : Byte) : Instr :=
  match lo with
  | 0 => .cpx (.imm b1)
  | 1 => .sbc (.mem (.indX b1))
  | 2 => .nop 0xE2#8 (.read (.imm b1))
  | 3 => .isb (.indX b1)
  | 4 => .cpx (.mem (.zp b1))
  | 5 => .sbc (.mem (.zp b1))
  | 6 => .inc (.zp b1)
  | 7 => .isb (.zp b1)
  | 8 => .inx
  | 9 => .sbc (.imm b1)
  | 10 => .nop 0xEA#8 .implied
  | 11 => .sbcEB b1
  | 12 => .cpx (.mem (.abs (joinBytes b2 b1)))
  | 13 => .sbc (.mem (.abs (joinBytes b2 b1)))
  | 14 => .inc (.abs (joinBytes b2 b1))
  | _ => .isb (.abs (joinBytes b2 b1))

/-- Row Fx of the opcode map (30 R156). -/
def decodeRowF (lo : Nat) (b1 b2 : Byte) : Instr :=
  match lo with
  | 0 => .beq b1
  | 1 => .sbc (.mem (.indY b1))
  | 2 => .kil 0xF2#8
  | 3 => .isb (.indY b1)
  | 4 => .nop 0xF4#8 (.read (.mem (.zpX b1)))
  | 5 => .sbc (.mem (.zpX b1))
  | 6 => .inc (.zpX b1)
  | 7 => .isb (.zpX b1)
  | 8 => .sed
  | 9 => .sbc (.mem (.absY (joinBytes b2 b1)))
  | 10 => .nop 0xFA#8 .implied
  | 11 => .isb (.absY (joinBytes b2 b1))
  | 12 => .nop 0xFC#8 (.read (.mem (.absX (joinBytes b2 b1))))
  | 13 => .sbc (.mem (.absX (joinBytes b2 b1)))
  | 14 => .inc (.absX (joinBytes b2 b1))
  | _ => .isb (.absX (joinBytes b2 b1))

/-- The instruction an opcode byte and the two bytes after it select. Every byte value is a row (30 R154): the high
nibble picks the row of the map, the low nibble the column. An instruction shorter than three bytes ignores the rest. -/
def decodeBytes (op b1 b2 : Byte) : Instr :=
  let lo := op.toNat % 16
  match op.toNat / 16 with
  | 0 => decodeRow0 lo b1 b2
  | 1 => decodeRow1 lo b1 b2
  | 2 => decodeRow2 lo b1 b2
  | 3 => decodeRow3 lo b1 b2
  | 4 => decodeRow4 lo b1 b2
  | 5 => decodeRow5 lo b1 b2
  | 6 => decodeRow6 lo b1 b2
  | 7 => decodeRow7 lo b1 b2
  | 8 => decodeRow8 lo b1 b2
  | 9 => decodeRow9 lo b1 b2
  | 10 => decodeRowA lo b1 b2
  | 11 => decodeRowB lo b1 b2
  | 12 => decodeRowC lo b1 b2
  | 13 => decodeRowD lo b1 b2
  | 14 => decodeRowE lo b1 b2
  | _ => decodeRowF lo b1 b2

/-- The number of operand bytes of a memory mode (30 R151). -/
def MemMode.size (m : MemMode) : Nat :=
  match m.kind with
  | .abs | .absX | .absY => 2
  | .zp | .zpX | .zpY | .indX | .indY => 1

/-- The operand bytes of a memory mode in address order: the low byte of an address first (30 R151, R152). -/
def MemMode.bytes : MemMode → List Byte
  | .zp z | .zpX z | .zpY z | .indX z | .indY z => [z]
  | .abs a | .absX a | .absY a => [lowByte a, highByte a]

/-- The operand bytes of a read operand. -/
def ReadOperand.bytes : ReadOperand → List Byte
  | .imm i => [i]
  | .mem m => m.bytes

/-- The operand bytes of a shift operand: none for the accumulator. -/
def RmwOperand.bytes : RmwOperand → List Byte
  | .acc => []
  | .mem m => m.bytes

/-- The operand bytes of a NOP. -/
def NopOperand.bytes : NopOperand → List Byte
  | .implied => []
  | .read o => o.bytes

/-- The operand bytes an instruction is written with, in address order after its opcode (30 R151). -/
def operandBytes : Instr → List Byte
  | .lda o | .ldx o | .ldy o | .adc o | .sbc o | .and o | .ora o | .eor o | .cmp o | .cpx o | .cpy o | .bit o => o.bytes
  | .sta m | .stx m | .sty m | .inc m | .dec m | .lax m | .sax m | .slo m | .rla m | .sre m | .rra m | .dcp m | .isb m
  | .sha m => m.bytes
  | .asl o | .lsr o | .rol o | .ror o => o.bytes
  | .nop _ o => o.bytes
  | .bpl r | .bmi r | .bvc r | .bvs r | .bcc r | .bcs r | .bne r | .beq r => [r]
  | .jmp a | .jmpInd a | .jsr a | .las a | .shx a | .shy a | .tas a => [lowByte a, highByte a]
  | .sbcEB i | .anc _ i | .alr i | .arr i | .axs i | .xaa i | .lxa i => [i]
  | .tax | .tay | .txa | .tya | .tsx | .txs | .inx | .iny | .dex | .dey | .rts | .rti | .brk | .pha | .php | .pla | .plp
  | .clc | .sec | .cli | .sei | .cld | .sed | .clv | .kil _ => []

/-- The length of an instruction in bytes (30 R150). BRK is one byte as decoded; it skips the byte after it itself (44 R354). -/
def Instr.length (i : Instr) : Nat := 1 + (operandBytes i).length

/-- The length an opcode byte decides (30 R150: "Its length is a function of the opcode byte alone"). -/
def lengthOf (op : Byte) : Nat := (decodeBytes op 0#8 0#8).length

/-- Why a byte string is not an instruction: the only way a total decoder can refuse (30 R154). -/
inductive DecodeError where
  /-- no byte to decode -/
  | noOpcode
  /-- the string ends inside the operand bytes of this opcode -/
  | truncated (op : Byte)
deriving DecidableEq, Repr

/-- What decoding a byte string answers: an instruction and the bytes after it, or a refusal by name. -/
inductive Decoded where
  | instr (i : Instr) (rest : List Byte)
  | refused (why : DecodeError)
deriving DecidableEq, Repr

/-- Decode the instruction at the head of a byte string (30 R150): read the opcode, take the operand bytes it asks for. -/
def decode : List Byte → Decoded
  | [] => .refused .noOpcode
  | op :: rest =>
    match lengthOf op, rest with
    | 1, rest => .instr (decodeBytes op 0#8 0#8) rest
    | 2, b1 :: rest => .instr (decodeBytes op b1 0#8) rest
    | _, b1 :: b2 :: rest => .instr (decodeBytes op b1 b2) rest
    | _, _ => .refused (.truncated op)

/-- The memory-mode opcodes of LDA (R250). -/
def ldaOpcode : ModeKind → Option Byte
  | .indX => some 0xA1#8
  | .zp => some 0xA5#8
  | .abs => some 0xAD#8
  | .indY => some 0xB1#8
  | .zpX => some 0xB5#8
  | .absY => some 0xB9#8
  | .absX => some 0xBD#8
  | _ => none

/-- The memory-mode opcodes of LDX (R251). -/
def ldxOpcode : ModeKind → Option Byte
  | .zp => some 0xA6#8
  | .abs => some 0xAE#8
  | .zpY => some 0xB6#8
  | .absY => some 0xBE#8
  | _ => none

/-- The memory-mode opcodes of LDY (R252). -/
def ldyOpcode : ModeKind → Option Byte
  | .zp => some 0xA4#8
  | .abs => some 0xAC#8
  | .zpX => some 0xB4#8
  | .absX => some 0xBC#8
  | _ => none

/-- The memory-mode opcodes of STA (R253). -/
def staOpcode : ModeKind → Option Byte
  | .indX => some 0x81#8
  | .zp => some 0x85#8
  | .abs => some 0x8D#8
  | .indY => some 0x91#8
  | .zpX => some 0x95#8
  | .absY => some 0x99#8
  | .absX => some 0x9D#8
  | _ => none

/-- The memory-mode opcodes of STX (R254). -/
def stxOpcode : ModeKind → Option Byte
  | .zp => some 0x86#8
  | .abs => some 0x8E#8
  | .zpY => some 0x96#8
  | _ => none

/-- The memory-mode opcodes of STY (R255). -/
def styOpcode : ModeKind → Option Byte
  | .zp => some 0x84#8
  | .abs => some 0x8C#8
  | .zpX => some 0x94#8
  | _ => none

/-- The memory-mode opcodes of ADC (R282). -/
def adcOpcode : ModeKind → Option Byte
  | .indX => some 0x61#8
  | .zp => some 0x65#8
  | .abs => some 0x6D#8
  | .indY => some 0x71#8
  | .zpX => some 0x75#8
  | .absY => some 0x79#8
  | .absX => some 0x7D#8
  | _ => none

/-- The memory-mode opcodes of SBC (R283). -/
def sbcOpcode : ModeKind → Option Byte
  | .indX => some 0xE1#8
  | .zp => some 0xE5#8
  | .abs => some 0xED#8
  | .indY => some 0xF1#8
  | .zpX => some 0xF5#8
  | .absY => some 0xF9#8
  | .absX => some 0xFD#8
  | _ => none

/-- The memory-mode opcodes of AND (R284). -/
def andOpcode : ModeKind → Option Byte
  | .indX => some 0x21#8
  | .zp => some 0x25#8
  | .abs => some 0x2D#8
  | .indY => some 0x31#8
  | .zpX => some 0x35#8
  | .absY => some 0x39#8
  | .absX => some 0x3D#8
  | _ => none

/-- The memory-mode opcodes of ORA (R285). -/
def oraOpcode : ModeKind → Option Byte
  | .indX => some 0x01#8
  | .zp => some 0x05#8
  | .abs => some 0x0D#8
  | .indY => some 0x11#8
  | .zpX => some 0x15#8
  | .absY => some 0x19#8
  | .absX => some 0x1D#8
  | _ => none

/-- The memory-mode opcodes of EOR (R286). -/
def eorOpcode : ModeKind → Option Byte
  | .indX => some 0x41#8
  | .zp => some 0x45#8
  | .abs => some 0x4D#8
  | .indY => some 0x51#8
  | .zpX => some 0x55#8
  | .absY => some 0x59#8
  | .absX => some 0x5D#8
  | _ => none

/-- The memory-mode opcodes of CMP (R287). -/
def cmpOpcode : ModeKind → Option Byte
  | .indX => some 0xC1#8
  | .zp => some 0xC5#8
  | .abs => some 0xCD#8
  | .indY => some 0xD1#8
  | .zpX => some 0xD5#8
  | .absY => some 0xD9#8
  | .absX => some 0xDD#8
  | _ => none

/-- The memory-mode opcodes of CPX (R288). -/
def cpxOpcode : ModeKind → Option Byte
  | .zp => some 0xE4#8
  | .abs => some 0xEC#8
  | _ => none

/-- The memory-mode opcodes of CPY (R289). -/
def cpyOpcode : ModeKind → Option Byte
  | .zp => some 0xC4#8
  | .abs => some 0xCC#8
  | _ => none

/-- The memory-mode opcodes of BIT (R290). -/
def bitOpcode : ModeKind → Option Byte
  | .zp => some 0x24#8
  | .abs => some 0x2C#8
  | _ => none

/-- The memory-mode opcodes of ASL (R310). -/
def aslOpcode : ModeKind → Option Byte
  | .zp => some 0x06#8
  | .abs => some 0x0E#8
  | .zpX => some 0x16#8
  | .absX => some 0x1E#8
  | _ => none

/-- The memory-mode opcodes of LSR (R311). -/
def lsrOpcode : ModeKind → Option Byte
  | .zp => some 0x46#8
  | .abs => some 0x4E#8
  | .zpX => some 0x56#8
  | .absX => some 0x5E#8
  | _ => none

/-- The memory-mode opcodes of ROL (R312). -/
def rolOpcode : ModeKind → Option Byte
  | .zp => some 0x26#8
  | .abs => some 0x2E#8
  | .zpX => some 0x36#8
  | .absX => some 0x3E#8
  | _ => none

/-- The memory-mode opcodes of ROR (R313). -/
def rorOpcode : ModeKind → Option Byte
  | .zp => some 0x66#8
  | .abs => some 0x6E#8
  | .zpX => some 0x76#8
  | .absX => some 0x7E#8
  | _ => none

/-- The memory-mode opcodes of INC (R314). -/
def incOpcode : ModeKind → Option Byte
  | .zp => some 0xE6#8
  | .abs => some 0xEE#8
  | .zpX => some 0xF6#8
  | .absX => some 0xFE#8
  | _ => none

/-- The memory-mode opcodes of DEC (R315). -/
def decOpcode : ModeKind → Option Byte
  | .zp => some 0xC6#8
  | .abs => some 0xCE#8
  | .zpX => some 0xD6#8
  | .absX => some 0xDE#8
  | _ => none

/-- The memory-mode opcodes of LAX (R410). -/
def laxOpcode : ModeKind → Option Byte
  | .indX => some 0xA3#8
  | .zp => some 0xA7#8
  | .abs => some 0xAF#8
  | .indY => some 0xB3#8
  | .zpY => some 0xB7#8
  | .absY => some 0xBF#8
  | _ => none

/-- The memory-mode opcodes of SAX (R411). -/
def saxOpcode : ModeKind → Option Byte
  | .indX => some 0x83#8
  | .zp => some 0x87#8
  | .abs => some 0x8F#8
  | .zpY => some 0x97#8
  | _ => none

/-- The memory-mode opcodes of SLO (R413). -/
def sloOpcode : ModeKind → Option Byte
  | .indX => some 0x03#8
  | .zp => some 0x07#8
  | .abs => some 0x0F#8
  | .indY => some 0x13#8
  | .zpX => some 0x17#8
  | .absY => some 0x1B#8
  | .absX => some 0x1F#8
  | _ => none

/-- The memory-mode opcodes of RLA (R414). -/
def rlaOpcode : ModeKind → Option Byte
  | .indX => some 0x23#8
  | .zp => some 0x27#8
  | .abs => some 0x2F#8
  | .indY => some 0x33#8
  | .zpX => some 0x37#8
  | .absY => some 0x3B#8
  | .absX => some 0x3F#8
  | _ => none

/-- The memory-mode opcodes of SRE (R415). -/
def sreOpcode : ModeKind → Option Byte
  | .indX => some 0x43#8
  | .zp => some 0x47#8
  | .abs => some 0x4F#8
  | .indY => some 0x53#8
  | .zpX => some 0x57#8
  | .absY => some 0x5B#8
  | .absX => some 0x5F#8
  | _ => none

/-- The memory-mode opcodes of RRA (R416). -/
def rraOpcode : ModeKind → Option Byte
  | .indX => some 0x63#8
  | .zp => some 0x67#8
  | .abs => some 0x6F#8
  | .indY => some 0x73#8
  | .zpX => some 0x77#8
  | .absY => some 0x7B#8
  | .absX => some 0x7F#8
  | _ => none

/-- The memory-mode opcodes of DCP (R417). -/
def dcpOpcode : ModeKind → Option Byte
  | .indX => some 0xC3#8
  | .zp => some 0xC7#8
  | .abs => some 0xCF#8
  | .indY => some 0xD3#8
  | .zpX => some 0xD7#8
  | .absY => some 0xDB#8
  | .absX => some 0xDF#8
  | _ => none

/-- The memory-mode opcodes of ISB (R418). -/
def isbOpcode : ModeKind → Option Byte
  | .indX => some 0xE3#8
  | .zp => some 0xE7#8
  | .abs => some 0xEF#8
  | .indY => some 0xF3#8
  | .zpX => some 0xF7#8
  | .absY => some 0xFB#8
  | .absX => some 0xFF#8
  | _ => none

/-- The memory-mode opcodes of SHA (R437). -/
def shaOpcode : ModeKind → Option Byte
  | .indY => some 0x93#8
  | .absY => some 0x9F#8
  | _ => none

/-- The opcode byte of an instruction (30 R156, and the encodings each rule of 41-46 lists); `none` for a form no row has. -/
def opcodeOf : Instr → Option Byte
  | .lda (.imm _) => some 0xA9#8
  | .lda (.mem m) => ldaOpcode m.kind
  | .ldx (.imm _) => some 0xA2#8
  | .ldx (.mem m) => ldxOpcode m.kind
  | .ldy (.imm _) => some 0xA0#8
  | .ldy (.mem m) => ldyOpcode m.kind
  | .adc (.imm _) => some 0x69#8
  | .adc (.mem m) => adcOpcode m.kind
  | .sbc (.imm _) => some 0xE9#8
  | .sbc (.mem m) => sbcOpcode m.kind
  | .and (.imm _) => some 0x29#8
  | .and (.mem m) => andOpcode m.kind
  | .ora (.imm _) => some 0x09#8
  | .ora (.mem m) => oraOpcode m.kind
  | .eor (.imm _) => some 0x49#8
  | .eor (.mem m) => eorOpcode m.kind
  | .cmp (.imm _) => some 0xC9#8
  | .cmp (.mem m) => cmpOpcode m.kind
  | .cpx (.imm _) => some 0xE0#8
  | .cpx (.mem m) => cpxOpcode m.kind
  | .cpy (.imm _) => some 0xC0#8
  | .cpy (.mem m) => cpyOpcode m.kind
  | .bit (.imm _) => none
  | .bit (.mem m) => bitOpcode m.kind
  | .sta m => staOpcode m.kind
  | .stx m => stxOpcode m.kind
  | .sty m => styOpcode m.kind
  | .inc m => incOpcode m.kind
  | .dec m => decOpcode m.kind
  | .lax m => laxOpcode m.kind
  | .sax m => saxOpcode m.kind
  | .slo m => sloOpcode m.kind
  | .rla m => rlaOpcode m.kind
  | .sre m => sreOpcode m.kind
  | .rra m => rraOpcode m.kind
  | .dcp m => dcpOpcode m.kind
  | .isb m => isbOpcode m.kind
  | .sha m => shaOpcode m.kind
  | .asl .acc => some 0x0A#8
  | .asl (.mem m) => aslOpcode m.kind
  | .lsr .acc => some 0x4A#8
  | .lsr (.mem m) => lsrOpcode m.kind
  | .rol .acc => some 0x2A#8
  | .rol (.mem m) => rolOpcode m.kind
  | .ror .acc => some 0x6A#8
  | .ror (.mem m) => rorOpcode m.kind
  | .nop op o => if nopForm op o then some op else none
  | .kil op => if kilOpcodes.contains op then some op else none
  | .anc op _ => if op == 0x0B#8 || op == 0x2B#8 then some op else none
  | .sbcEB _ => some 0xEB#8
  | .brk => some 0x00#8
  | .php => some 0x08#8
  | .bpl _ => some 0x10#8
  | .clc => some 0x18#8
  | .jsr _ => some 0x20#8
  | .plp => some 0x28#8
  | .bmi _ => some 0x30#8
  | .sec => some 0x38#8
  | .rti => some 0x40#8
  | .pha => some 0x48#8
  | .alr _ => some 0x4B#8
  | .bvc _ => some 0x50#8
  | .cli => some 0x58#8
  | .rts => some 0x60#8
  | .pla => some 0x68#8
  | .arr _ => some 0x6B#8
  | .bvs _ => some 0x70#8
  | .sei => some 0x78#8
  | .dey => some 0x88#8
  | .txa => some 0x8A#8
  | .xaa _ => some 0x8B#8
  | .bcc _ => some 0x90#8
  | .tya => some 0x98#8
  | .txs => some 0x9A#8
  | .tas _ => some 0x9B#8
  | .shy _ => some 0x9C#8
  | .shx _ => some 0x9E#8
  | .tay => some 0xA8#8
  | .tax => some 0xAA#8
  | .lxa _ => some 0xAB#8
  | .bcs _ => some 0xB0#8
  | .clv => some 0xB8#8
  | .tsx => some 0xBA#8
  | .las _ => some 0xBB#8
  | .iny => some 0xC8#8
  | .dex => some 0xCA#8
  | .axs _ => some 0xCB#8
  | .bne _ => some 0xD0#8
  | .cld => some 0xD8#8
  | .inx => some 0xE8#8
  | .beq _ => some 0xF0#8
  | .sed => some 0xF8#8
  | .jmp _ => some 0x4C#8
  | .jmpInd _ => some 0x6C#8

/-- The bytes of an instruction in address order, opcode first (30 R151); `[]` for a form no row of the map has. -/
def encode (i : Instr) : List Byte :=
  match opcodeOf i with
  | some op => op :: operandBytes i
  | none => []

/-- The mask of a number of low bits. -/
def lowBits (nbits w : Nat) : Nat := w % 2 ^ nbits

/-- Byte `k` of a table word: the table numbers bit 0 as the least significant bit of the first byte. -/
def tableByte (nbits w k : Nat) : Byte := BitVec.ofNat 8 (lowBits nbits w / 256 ^ k)

/-- The bytes of a table word as they lie in memory, zeros above `nbits`, up to the longest instruction (three bytes). -/
def tableBytes (nbits w : Nat) : List Byte := [tableByte nbits w 0, tableByte nbits w 1, tableByte nbits w 2]

/-- The instruction the decoder reads from a table word. -/
def decodeTableWord (nbits w : Nat) : Option Instr :=
  match decode (tableBytes nbits w) with
  | .instr i _ => some i
  | .refused _ => none

end Sys2Proof
end

