-- ==== Sys2Proof/Machine/Memory.lean ====
section
/-!
DEFINITION. Reading and writing the machine's memories. Every memory is a list of (address, value) pairs in one canonical
form: addresses strictly rising, no value equal to what an unlisted address reads as (log 4).
-/

namespace Sys2Proof.Machine

variable {α : Type}

/-- The value at an address: the listed one, or `d` where none is listed. -/
def cellGet (d : α) (m : List (Nat × α)) (a : Nat) : α :=
  match m with
  | [] => d
  | (k, v) :: m' => if k = a then v else cellGet d m' a

/-- The memory without any entry at an address. -/
def cellErase (m : List (Nat × α)) (a : Nat) : List (Nat × α) :=
  match m with
  | [] => []
  | (k, v) :: m' => if k = a then cellErase m' a else (k, v) :: cellErase m' a

/-- An entry put before the first entry of a higher address. -/
def cellInsert (m : List (Nat × α)) (a : Nat) (v : α) : List (Nat × α) :=
  match m with
  | [] => [(a, v)]
  | (k, w) :: m' => if a < k then (a, v) :: (k, w) :: m' else (k, w) :: cellInsert m' a v

/-- Write a value at an address; writing what an unlisted address reads as removes the entry. -/
def cellSet [DecidableEq α] (d : α) (m : List (Nat × α)) (a : Nat) (v : α) : List (Nat × α) :=
  if v = d then cellErase m a else cellInsert (cellErase m a) a v

/-- The canonical form with every address at least `lo` and below `hi`, and every value passing `ok`. -/
def cellsWf [DecidableEq α] (d : α) (ok : α → Bool) (lo hi : Nat) : List (Nat × α) → Bool
  | [] => true
  | (k, v) :: m => decide (lo ≤ k) && decide (k < hi) && decide (v ≠ d) && ok v && cellsWf d ok (k + 1) hi m

/-- A byte memory of `size` bytes is in canonical form. -/
def Memory.wf (size : Nat) (m : Mem) : Bool := cellsWf (0 : Byte) (fun _ => true) 0 size m

/-- The byte at an address of a byte memory. -/
def memGet (m : Mem) (a : Nat) : Byte := cellGet 0 m a

/-- A byte memory with one byte written. -/
def memSet (m : Mem) (a : Nat) (v : Byte) : Mem := cellSet 0 m a v

/-- The 6-bit palette memory is in canonical form (20 R115). -/
def paletteWf (m : List (Nat × BitVec 6)) : Bool := cellsWf (0 : BitVec 6) (fun _ => true) 0 32 m

/-- The pixel of a picture at column `x` of line `y` (61 R555). -/
def pixelAt (pic : Picture) (x y : Nat) : BitVec 9 := cellGet 0 (cellGet [] pic y) x

/-- A picture with one pixel written. -/
def setPixel (pic : Picture) (x y : Nat) (c : BitVec 9) : Picture :=
  cellSet [] pic y (cellSet 0 (cellGet [] pic y) x c)

/-- A picture of 256 columns and 240 lines is in canonical form. -/
def pictureWf (pic : Picture) : Bool :=
  cellsWf ([] : PixelRow) (cellsWf (0 : BitVec 9) (fun _ => true) 0 256) 0 240 pic

/-- The cell of internal RAM an address of $0000-$1FFF names: `addr & $07FF` (20 R101, R103). -/
def ramIndex (a : Addr) : Nat := (a &&& 0x07FF).toNat

/-- The byte of internal RAM an address of $0000-$1FFF reads (20 R101). -/
def State.ramByte (s : State) (a : Addr) : Byte := memGet s.ram (ramIndex a)

end Sys2Proof.Machine
end

