-- ==== Sys2Proof/Machine/Apu.lean ====
section
/-!
DEFINITION. The APU: its registers (62_apu.md R585-R593), its per-cycle step (R595), its units (R600-R631) and its mixer
(R635).
-/

namespace Sys2Proof.Machine

/-! ### Tables -/

/-- `LENGTH_TABLE` (R594). -/
def lengthTable : List Byte :=
  [10, 254, 20, 2, 40, 4, 80, 6, 160, 8, 60, 10, 14, 12, 26, 14]
    ++ [12, 16, 24, 18, 48, 20, 96, 22, 192, 24, 72, 26, 16, 28, 32, 30]

/-- `LENGTH_TABLE[val[7:3]]` (R586). -/
def lengthLoad (val : Byte) : Byte := lengthTable.getD (val.toNat / 8) 0

/-- `NOISE_TABLE`, in CPU cycles (R616). -/
def noiseTable : List Nat := [4, 8, 16, 32, 64, 96, 128, 160, 202, 254, 380, 508, 762, 1016, 2034, 4068]

/-- `DMC_RATE`, in CPU cycles (R620). -/
def dmcRate : List Nat := [428, 380, 340, 320, 286, 254, 226, 214, 190, 160, 142, 128, 106, 84, 72, 54]

/-- `DUTY[duty][seq]` (R609), in output order of `seq`. -/
def dutyTable : List (List Nat) :=
  [[0, 1, 0, 0, 0, 0, 0, 0], [0, 1, 1, 0, 0, 0, 0, 0], [0, 1, 1, 1, 1, 0, 0, 0], [1, 0, 0, 1, 1, 1, 1, 1]]

/-- `TRI_SEQ[seq]` (R614): 15 down to 0, then 0 up to 15. -/
def triSeq (seq : BitVec 5) : Nat := if seq.toNat < 16 then 15 - seq.toNat else seq.toNat - 16

/-! ### Shared units -/

/-- The envelope on a quarter frame (R605). -/
def Envelope.clock (e : Envelope) (vol : BitVec 4) (halt : Bool) : Envelope :=
  if e.start then { start := false, decay := 15, divider := vol }
  else if e.divider = 0 then
    { e with
      divider := vol
      decay := if e.decay ≠ 0 then e.decay - 1 else if halt then 15 else e.decay }
  else { e with divider := e.divider - 1 }

/-- The length counter on a half frame (R608). -/
def lengthClock (halt : Bool) (length : Byte) : Byte := if !halt && length != 0 then length - 1 else length

/-- The timer period with its low eight bits written (R585). -/
def periodLow (tp : BitVec 11) (val : Byte) : BitVec 11 := (tp &&& 0x700) ||| val.setWidth 11

/-- The timer period with its high three bits written (R585). -/
def periodHigh (tp : BitVec 11) (val : Byte) : BitVec 11 := (tp &&& 0x0FF) ||| ((val &&& 0x07).setWidth 11 <<< 8)

/-! ### Pulse -/

/-- A write to one of a pulse channel's four registers (R585, R586). -/
def Pulse.write (p : Pulse) (reg : Nat) (val : Byte) : Pulse :=
  match reg with
  | 0 => { p with duty := val.extractLsb' 6 2, halt := val.getLsbD 5, constVol := val.getLsbD 4, vol := val.setWidth 4 }
  | 1 =>
    { p with sweepEn := val.getLsbD 7, sweepPeriod := val.extractLsb' 4 3, sweepNeg := val.getLsbD 3,
             sweepShift := val.setWidth 3, sweepReload := true }
  | 2 => { p with timerPeriod := periodLow p.timerPeriod val }
  | _ =>
    { p with timerPeriod := periodHigh p.timerPeriod val, seq := 0, env := { p.env with start := true },
             length := if p.enabled then lengthLoad val else p.length }

/-- The sweep target as an integer (R606); `ones` is set for pulse 1, whose negative mode is one's complement. -/
def Pulse.sweepTarget (p : Pulse) (ones : Bool) : Int :=
  let change : Int := (p.timerPeriod >>> p.sweepShift.toNat).toNat
  if p.sweepNeg then (p.timerPeriod.toNat : Int) - change - (if ones then 1 else 0)
  else (p.timerPeriod.toNat : Int) + change

/-- `Muted(p)` (R607). -/
def Pulse.muted (p : Pulse) (ones : Bool) : Bool :=
  decide (p.timerPeriod.toNat < 8) || decide (0x7FF < p.sweepTarget ones)

/-- The sweep's update of the period on a half frame (R606). -/
def Pulse.sweepPeriodUpdate (p : Pulse) (ones : Bool) : BitVec 11 :=
  if p.sweepDivider == 0 && p.sweepEn && p.sweepShift != 0 && !p.muted ones then BitVec.ofInt 11 (p.sweepTarget ones)
  else p.timerPeriod

/-- The sweep unit on a half frame (R606). -/
def Pulse.sweepClock (p : Pulse) (ones : Bool) : Pulse :=
  let q := { p with timerPeriod := p.sweepPeriodUpdate ones }
  if p.sweepDivider == 0 || p.sweepReload then { q with sweepDivider := p.sweepPeriod, sweepReload := false }
  else { q with sweepDivider := p.sweepDivider - 1 }

/-- A pulse channel on a quarter frame (R601). -/
def Pulse.quarter (p : Pulse) : Pulse := { p with env := p.env.clock p.vol p.halt }

/-- A pulse channel on a half frame (R602). -/
def Pulse.half (p : Pulse) (ones : Bool) : Pulse :=
  { p with length := lengthClock p.halt p.length }.sweepClock ones

/-- `PulseTimerStep` (R609). -/
def Pulse.timerStep (p : Pulse) : Pulse :=
  if p.timer = 0 then { p with timer := p.timerPeriod, seq := p.seq + 1 } else { p with timer := p.timer - 1 }

/-- Enable or disable a pulse channel; disabling zeros its length (R591). -/
def Pulse.enable (p : Pulse) (on : Bool) : Pulse := { p with enabled := on, length := if on then p.length else 0 }

/-- A channel's volume (R605). -/
def channelVolume (constVol : Bool) (vol : BitVec 4) (e : Envelope) : Nat := if constVol then vol.toNat else e.decay.toNat

/-- Pulse output, 0..15 (R610). -/
def Pulse.output (p : Pulse) (ones : Bool) : Nat :=
  if p.length = 0 ∨ p.muted ones = true ∨ (dutyTable.getD p.duty.toNat []).getD p.seq.toNat 0 = 0 then 0
  else channelVolume p.constVol p.vol p.env

/-! ### Triangle -/

/-- A write to one of the triangle's four registers, $4008-$400B (R587); $4009 is unused (R593). -/
def Triangle.write (t : Triangle) (reg : Nat) (val : Byte) : Triangle :=
  match reg with
  | 0 => { t with control := val.getLsbD 7, linReloadValue := val.setWidth 7 }
  | 1 => t
  | 2 => { t with timerPeriod := periodLow t.timerPeriod val }
  | _ =>
    { t with timerPeriod := periodHigh t.timerPeriod val, linReload := true,
             length := if t.enabled then lengthLoad val else t.length }

/-- The linear counter on a quarter frame (R612). -/
def Triangle.quarter (t : Triangle) : Triangle :=
  { t with
    linCounter := if t.linReload then t.linReloadValue else if t.linCounter ≠ 0 then t.linCounter - 1 else t.linCounter
    linReload := t.linReload && t.control }

/-- The triangle on a half frame (R602, R608): its halt is `control`. -/
def Triangle.half (t : Triangle) : Triangle := { t with length := lengthClock t.control t.length }

/-- `TriangleTimerStep` (R613). -/
def Triangle.timerStep (t : Triangle) : Triangle :=
  if t.timer = 0 then
    { t with timer := t.timerPeriod, seq := if t.linCounter ≠ 0 ∧ t.length ≠ 0 then t.seq + 1 else t.seq }
  else { t with timer := t.timer - 1 }

/-- Enable or disable the triangle (R591). -/
def Triangle.enable (t : Triangle) (on : Bool) : Triangle := { t with enabled := on, length := if on then t.length else 0 }

/-- Triangle output, 0..15 (R614). -/
def Triangle.output (t : Triangle) : Nat := triSeq t.seq

/-! ### Noise -/

/-- A write to one of the noise channel's four registers, $400C-$400F (R588); $400D is unused (R593). -/
def Noise.write (n : Noise) (reg : Nat) (val : Byte) : Noise :=
  match reg with
  | 0 => { n with halt := val.getLsbD 5, constVol := val.getLsbD 4, vol := val.setWidth 4 }
  | 1 => n
  | 2 => { n with mode := val.getLsbD 7, periodIndex := val.setWidth 4 }
  | _ => { n with env := { n.env with start := true }, length := if n.enabled then lengthLoad val else n.length }

/-- The noise channel on a quarter frame (R601). -/
def Noise.quarter (n : Noise) : Noise := { n with env := n.env.clock n.vol n.halt }

/-- The noise channel on a half frame (R602). -/
def Noise.half (n : Noise) : Noise := { n with length := lengthClock n.halt n.length }

/-- `LfsrClock()` (R617). -/
def lfsrClock (mode : Bool) (lfsr : BitVec 15) : BitVec 15 :=
  let fb := lfsr.getLsbD 0 ^^ (if mode then lfsr.getLsbD 6 else lfsr.getLsbD 1)
  (lfsr >>> 1) ||| (if fb then 0x4000 else 0)

/-- `NoiseTimerStep` (R616). -/
def Noise.timerStep (n : Noise) : Noise :=
  if n.timer = 0 then
    { n with timer := BitVec.ofNat 12 (noiseTable.getD n.periodIndex.toNat 1 - 1), lfsr := lfsrClock n.mode n.lfsr }
  else { n with timer := n.timer - 1 }

/-- Enable or disable the noise channel (R591). -/
def Noise.enable (n : Noise) (on : Bool) : Noise := { n with enabled := on, length := if on then n.length else 0 }

/-- Noise output, 0..15 (R618). -/
def Noise.output (n : Noise) : Nat :=
  if n.length = 0 ∨ n.lfsr.getLsbD 0 = true then 0 else channelVolume n.constVol n.vol n.env

/-! ### DMC -/

/-- A write to one of the DMC's four registers, $4010-$4013 (R589). -/
def Dmc.write (d : Dmc) (reg : Nat) (val : Byte) : Dmc :=
  match reg with
  | 0 =>
    { d with irqEnable := val.getLsbD 7, loop := val.getLsbD 6, rateIndex := val.setWidth 4,
             dmcIrq := d.dmcIrq && val.getLsbD 7 }
  | 1 => { d with level := val.setWidth 7 }
  | 2 => { d with sampleAddr := 0xC000 + val.setWidth 16 * 64 }
  | _ => { d with sampleLen := val.setWidth 12 * 16 + 1 }

/-- The level after one output bit (R620). -/
def dmcLevel (level : BitVec 7) (up : Bool) : BitVec 7 :=
  if up then (if level.toNat ≤ 125 then level + 2 else level) else (if 2 ≤ level.toNat then level - 2 else level)

/-- The output unit at the end of an eight-bit group (R620). -/
def Dmc.reloadShift (d : Dmc) : Dmc :=
  if d.bufferFull then { d with bitsRemaining := 8, shift := d.buffer, bufferFull := false, silence := false }
  else { d with bitsRemaining := 8, silence := true }

/-- `DmcOutputClock()` (R620). -/
def Dmc.outputClock (d : Dmc) : Dmc :=
  let q :=
    { d with level := if d.silence then d.level else dmcLevel d.level (d.shift.getLsbD 0), shift := d.shift >>> 1,
             bitsRemaining := d.bitsRemaining - 1 }
  if q.bitsRemaining = 0 then q.reloadShift else q

/-- `DmcTimerStep` (R620). -/
def Dmc.timerStep (d : Dmc) : Dmc :=
  if d.timer = 0 then { d.outputClock with timer := BitVec.ofNat 9 (dmcRate.getD d.rateIndex.toNat 1 - 1) }
  else { d with timer := d.timer - 1 }

/-- The reader needs a byte (R621). -/
def Dmc.needsByte (d : Dmc) : Bool := !d.bufferFull && d.bytesRemaining != 0

/-- The start of the sample (R591, R630). -/
def Dmc.restart (d : Dmc) : Dmc := { d with curAddr := d.sampleAddr, bytesRemaining := d.sampleLen }

/-- The sample's end: loop, raise the IRQ, or stop (R630). -/
def Dmc.sampleEnd (d : Dmc) : Dmc :=
  if d.loop then d.restart else if d.irqEnable then { d with dmcIrq := true } else d

/-- `DmcDeliver(b)` (R621, R631); the byte counter wraps in its 12 bits (log 12). -/
def Dmc.deliver (d : Dmc) (b : Byte) : Dmc :=
  let q :=
    { d with buffer := b, bufferFull := true, curAddr := if d.curAddr = 0xFFFF then 0x8000 else d.curAddr + 1,
             bytesRemaining := d.bytesRemaining - 1 }
  if q.bytesRemaining = 0 then q.sampleEnd else q

/-- The DMC's part of a $4015 write (R591). -/
def Dmc.enable (d : Dmc) (on : Bool) : Dmc :=
  let q := { d with dmcIrq := false }
  if on then (if d.bytesRemaining = 0 then q.restart else q) else { q with bytesRemaining := 0 }

/-! ### The whole unit -/

/-- `Quarter()` (R601). -/
def Apu.quarter (u : Apu) : Apu :=
  { u with pulse1 := u.pulse1.quarter, pulse2 := u.pulse2.quarter, noise := u.noise.quarter, tri := u.tri.quarter }

/-- `Half()` (R602). -/
def Apu.half (u : Apu) : Apu :=
  { u with pulse1 := u.pulse1.half true, pulse2 := u.pulse2.half false, tri := u.tri.half, noise := u.noise.half }

/-- The four-step sequence at count `fc` (R600). -/
def Apu.fourStep (u : Apu) : Apu :=
  if u.fc = 7457 ∨ u.fc = 22371 then u.quarter
  else if u.fc = 14913 then u.quarter.half
  else if u.fc = 29829 then { u.quarter.half with frameIrq := u.frameIrq || !u.fcInhibit }
  else if u.fc = 29830 then { u with fc := 0 }
  else u

/-- The five-step sequence at count `fc` (R600). -/
def Apu.fiveStep (u : Apu) : Apu :=
  if u.fc = 7457 ∨ u.fc = 22371 then u.quarter
  else if u.fc = 14913 ∨ u.fc = 37281 then u.quarter.half
  else if u.fc = 37282 then { u with fc := 0 }
  else u

/-- The count and the step it selects (R600). -/
def Apu.sequence (u : Apu) : Apu :=
  let q := { u with fc := u.fc + 1 }
  if q.fcMode then q.fiveStep else q.fourStep

/-- `FrameCounterStep()` (R600): a pending restart counts down, and in its last cycle zeroes the count instead. -/
def Apu.frameCounterStep (u : Apu) : Apu :=
  if u.fcDelay = 0 then u.sequence
  else if u.fcDelay = 1 then { u with fcDelay := 0, fc := 0 }
  else { u with fcDelay := u.fcDelay - 1 }.sequence

/-- The timers of one CPU cycle, in the order of R595; the pulses only in an APU cycle. -/
def Apu.timers (u : Apu) (apuCycle : Bool) : Apu :=
  { u with
    tri := u.tri.timerStep
    pulse1 := if apuCycle then u.pulse1.timerStep else u.pulse1
    pulse2 := if apuCycle then u.pulse2.timerStep else u.pulse2
    noise := u.noise.timerStep
    dmc := u.dmc.timerStep }

/-- `ApuStep()` (R595) but for the reader's request, which is the bus's state. `cycles` is the number of the CPU cycle:
the odd ones are APU cycles (R596). -/
def Apu.step (u : Apu) (cycles : Nat) : Apu := u.frameCounterStep.timers (cycles % 2 == 1)

/-- `ApuRegWrite(a, v)` for $4000-$4013, by the offset from $4000 (20 R102, R585-R589). -/
def Apu.regWrite (u : Apu) (off : Nat) (val : Byte) : Apu :=
  match off / 4 with
  | 0 => { u with pulse1 := u.pulse1.write (off % 4) val }
  | 1 => { u with pulse2 := u.pulse2.write (off % 4) val }
  | 2 => { u with tri := u.tri.write (off % 4) val }
  | 3 => { u with noise := u.noise.write (off % 4) val }
  | _ => { u with dmc := u.dmc.write (off % 4) val }

/-- `ApuStatusWrite(v)`, $4015 (R591). -/
def Apu.statusWrite (u : Apu) (val : Byte) : Apu :=
  { u with
    pulse1 := u.pulse1.enable (val.getLsbD 0)
    pulse2 := u.pulse2.enable (val.getLsbD 1)
    tri := u.tri.enable (val.getLsbD 2)
    noise := u.noise.enable (val.getLsbD 3)
    dmc := u.dmc.enable (val.getLsbD 4) }

/-- The byte a $4015 read returns; bit 5 is bit 5 of the CPU data bus (R592). -/
def Apu.statusByte (u : Apu) (busLatch : Byte) : Byte :=
  BitVec.ofBool u.dmc.dmcIrq ++ BitVec.ofBool u.frameIrq ++ BitVec.ofBool (busLatch.getLsbD 5)
    ++ BitVec.ofBool (u.dmc.bytesRemaining != 0) ++ BitVec.ofBool (u.noise.length != 0)
    ++ BitVec.ofBool (u.tri.length != 0) ++ BitVec.ofBool (u.pulse2.length != 0) ++ BitVec.ofBool (u.pulse1.length != 0)

/-- The APU after a $4015 read: the frame IRQ flag is cleared (R592). -/
def Apu.afterStatusRead (u : Apu) : Apu := { u with frameIrq := false }

/-- `FRAME_RESET_DELAY` (00 R10, R590): 3 when the write's cycle is odd, else 4. -/
def frameResetDelay (cycles : Nat) : Nat := if cycles % 2 = 1 then 3 else 4

/-- `FrameCounterWrite(v)`, $4017, in CPU cycle `cycles` (R590). -/
def Apu.frameCounterWrite (u : Apu) (cycles : Nat) (val : Byte) : Apu :=
  let q :=
    { u with fcMode := val.getLsbD 7, fcInhibit := val.getLsbD 6, frameIrq := u.frameIrq && !val.getLsbD 6,
             fcDelay := frameResetDelay cycles }
  if val.getLsbD 7 then q.quarter.half else q

/-! ### Mixer (R635), as exact rationals of the APU's state (log 18) -/

/-- `pulse_table[n] = 95.52 / (8128 / n + 100)`. -/
def pulseTable (n : Nat) : Rat := if n = 0 then 0 else (9552 / 100 : Rat) / (8128 / (n : Rat) + 100)

/-- `tnd_table[n] = 163.67 / (24329 / n + 100)`. -/
def tndTable (n : Nat) : Rat := if n = 0 then 0 else (16367 / 100 : Rat) / (24329 / (n : Rat) + 100)

/-- The mixer's value for the cycle that ended in this state: `pulse_table[p1+p2] + tnd_table[3*tri + 2*noise + dmc]`. -/
def Apu.mixer (u : Apu) : Rat :=
  pulseTable (u.pulse1.output true + u.pulse2.output false)
    + tndTable (3 * u.tri.output + 2 * u.noise.output + u.dmc.level.toNat)

end Sys2Proof.Machine
end

