-- ==== Sys2Proof/Machine/Cart.lean ====
section
/-!
DEFINITION. The cartridge interface (63_bus_dma_io.md R680), the reference cartridge (R681) behind it as data, and any other
cartridge as uninterpreted functions (log 5).
-/

namespace Sys2Proof.Machine

/-- The PRG byte an address of $8000-$FFFF names: `(a - $8000) mod size` (63 R681). -/
def Nrom.prgIndex (n : Nrom) (a : Addr) : Nat := (a.toNat - 0x8000) % (if n.prg32k then 0x8000 else 0x4000)

/-- `cpu_read` of the reference cartridge: PRG-RAM at $6000-$7FFF, PRG at $8000-$FFFF, none below (63 R681). -/
def Nrom.cpuRead (n : Nrom) (a : Addr) : Option Byte :=
  if a.toNat < 0x6000 then none
  else if a.toNat < 0x8000 then some (memGet n.prgRam (a.toNat - 0x6000))
  else some (memGet n.prg (n.prgIndex a))

/-- `cpu_write` of the reference cartridge: PRG-RAM stores, everything else is ignored (63 R681). -/
def Nrom.cpuWrite (n : Nrom) (a : Addr) (v : Byte) : Nrom :=
  if 0x6000 ≤ a.toNat ∧ a.toNat < 0x8000 then { n with prgRam := memSet n.prgRam (a.toNat - 0x6000) v } else n

/-- `ppu_read` of the reference cartridge: CHR below $2000; its own nametable RAM for $2800-$2FFF, reached under
FOUR_SCREEN only (20 R114, log 7). -/
def Nrom.ppuRead (n : Nrom) (a : BitVec 14) : Byte :=
  if a.toNat < 0x2000 then memGet n.chr a.toNat else memGet n.ntRam (a.toNat % 0x800)

/-- `ppu_write` of the reference cartridge: CHR stores only if it is RAM (63 R681). -/
def Nrom.ppuWrite (n : Nrom) (a : BitVec 14) (v : Byte) : Nrom :=
  if a.toNat < 0x2000 then
    if n.chrIsRam then { n with chr := memSet n.chr a.toNat v } else n
  else { n with ntRam := memSet n.ntRam (a.toNat % 0x800) v }

/-- The mirroring a number of `Config.cartMirroring` stands for. -/
def mirroringOf (k : Fin 5) : Mirroring :=
  match k.val with
  | 0 => .horizontal
  | 1 => .vertical
  | 2 => .oneScreenLo
  | 3 => .oneScreenHi
  | _ => .fourScreen

/-- `Cart.cpu_read(a)` for $4020-$FFFF: the byte driven, or none, and the cartridge after the access. -/
def Cart.cpuRead (c : Cart) (a : Addr) : Option Byte × Cart :=
  match c with
  | .nrom n => (n.cpuRead a, .nrom n)
  | .external st => (Config.cartCpuRead st a, .external (Config.cartAfterCpuRead st a))

/-- `Cart.cpu_write(a, v)` for $4020-$FFFF. -/
def Cart.cpuWrite (c : Cart) (a : Addr) (v : Byte) : Cart :=
  match c with
  | .nrom n => .nrom (n.cpuWrite a v)
  | .external st => .external (Config.cartAfterCpuWrite st a v)

/-- `Cart.ppu_read(a)`: the byte, and the cartridge after the access. -/
def Cart.ppuRead (c : Cart) (a : BitVec 14) : Byte × Cart :=
  match c with
  | .nrom n => (n.ppuRead a, .nrom n)
  | .external st => (Config.cartPpuRead st a, .external (Config.cartAfterPpuRead st a))

/-- `Cart.ppu_write(a, v)`. -/
def Cart.ppuWrite (c : Cart) (a : BitVec 14) (v : Byte) : Cart :=
  match c with
  | .nrom n => .nrom (n.ppuWrite a v)
  | .external st => .external (Config.cartAfterPpuWrite st a v)

/-- `Cart.mirroring`. -/
def Cart.mirroring (c : Cart) : Mirroring :=
  match c with
  | .nrom n => n.mirroring
  | .external st => mirroringOf (Config.cartMirroring st)

/-- `Cart.irq`: the reference cartridge never asserts it (63 R681). -/
def Cart.irq (c : Cart) : Bool :=
  match c with
  | .nrom _ => false
  | .external st => Config.cartIrq st

/-- The memory of a cartridge that the CPU sees as plain memory: PRG-RAM and PRG of the reference cartridge. -/
def Cart.memByte (c : Cart) (a : Addr) : Option Byte :=
  match c with
  | .nrom n => n.cpuRead a
  | .external _ => none

/-- The reference cartridge with one byte placed at an address of $6000-$FFFF, as its image would hold it. -/
def Nrom.place (n : Nrom) (a : Addr) (v : Byte) : Nrom :=
  if a.toNat < 0x8000 then n.cpuWrite a v else { n with prg := memSet n.prg (n.prgIndex a) v }

/-- The memories of the reference cartridge are in canonical form. -/
def Nrom.wf (n : Nrom) : Bool :=
  Memory.wf (if n.prg32k then 0x8000 else 0x4000) n.prg && Memory.wf 0x2000 n.prgRam && Memory.wf 0x2000 n.chr
    && Memory.wf 0x800 n.ntRam

/-- The memories of the cartridge are in canonical form. -/
def Cart.wf (c : Cart) : Bool :=
  match c with
  | .nrom n => n.wf
  | .external _ => true

end Sys2Proof.Machine
end

