-- ==== Sys2Proof/Machine/Ppu.lean ====
section
/-!
DEFINITION. The PPU: its address space (20_memory.md R113-R115), its registers (61_ppu.md R507-R521), and the dot
(R530-R556). The cartridge answers the PPU bus, so operations that use the bus take and return it.
-/

namespace Sys2Proof.Machine

/-! ### Derived signals (R502) -/

/-- `show_bg` (R502, R511). -/
def Ppu.showBg (p : Ppu) : Bool := p.mask.getLsbD 3

/-- `show_spr` (R502, R511). -/
def Ppu.showSpr (p : Ppu) : Bool := p.mask.getLsbD 4

/-- `rendering` (R502). -/
def Ppu.rendering (p : Ppu) : Bool := p.showBg || p.showSpr

/-- `render_line`: the pre-render line and the visible lines (R502). -/
def Ppu.renderLine (p : Ppu) : Bool := decide (-1 ≤ p.scanline) && decide (p.scanline ≤ 239)

/-- The line is a visible one, 0..239 (R503). -/
def Ppu.visibleLine (p : Ppu) : Bool := decide (0 ≤ p.scanline) && decide (p.scanline ≤ 239)

/-- `nmi_output` (R502). -/
def Ppu.nmiOutput (p : Ppu) : Bool := p.vbl && p.ctrl.getLsbD 7

/-- `spr_height` (R502). -/
def Ppu.sprHeight (p : Ppu) : Nat := if p.ctrl.getLsbD 5 then 16 else 8

/-! ### The PPU address space -/

/-- `PaletteIndex(a)`: five bits, with $10, $14, $18, $1C aliased to $00, $04, $08, $0C (20 R115). -/
def paletteIndex (a : BitVec 14) : Nat :=
  let i := a.toNat % 32
  if 16 ≤ i ∧ i % 4 = 0 then i - 16 else i

/-- The 6-bit palette entry an address of $3F00-$3FFF reads (20 R115). -/
def Ppu.paletteRead (p : Ppu) (a : BitVec 14) : BitVec 6 := cellGet 0 p.palette (paletteIndex a)

/-- A palette write keeps `v & $3F` (20 R115). -/
def Ppu.paletteWrite (p : Ppu) (a : BitVec 14) (v : Byte) : Ppu :=
  { p with palette := cellSet 0 p.palette (paletteIndex a) (v.setWidth 6) }

/-- The page of nametable RAM behind nametable `n`, or none where the cartridge's own RAM is (20 R114). -/
def ciramPage (m : Mirroring) (n : Nat) : Option Nat :=
  match m with
  | .horizontal => some (n / 2)
  | .vertical => some (n % 2)
  | .oneScreenLo => some 0
  | .oneScreenHi => some 1
  | .fourScreen => if n < 2 then some n else none

/-- The nametable an address of $2000-$3EFF lies in (20 R114). -/
def nametableOf (a : BitVec 14) : Nat := a.toNat / 0x400 % 4

/-- `NametableRead(a)` (20 R114). -/
def nametableRead (p : Ppu) (c : Cart) (a : BitVec 14) : Byte × Cart :=
  match ciramPage c.mirroring (nametableOf a) with
  | some page => (memGet p.ciram (page * 0x400 + a.toNat % 0x400), c)
  | none => c.ppuRead (a &&& 0x2FFF)

/-- `NametableWrite(a, v)` (20 R114). -/
def nametableWrite (p : Ppu) (c : Cart) (a : BitVec 14) (v : Byte) : Ppu × Cart :=
  match ciramPage c.mirroring (nametableOf a) with
  | some page => ({ p with ciram := memSet p.ciram (page * 0x400 + a.toNat % 0x400) v }, c)
  | none => (p, c.ppuWrite (a &&& 0x2FFF) v)

/-- `PpuRead(a)` (20 R113). -/
def ppuBusRead (p : Ppu) (c : Cart) (a : BitVec 14) : Byte × Cart :=
  if a.toNat < 0x2000 then c.ppuRead a
  else if a.toNat < 0x3F00 then nametableRead p c a
  else ((p.paletteRead a).setWidth 8, c)

/-- `PpuWrite(a, v)` (20 R113). -/
def ppuBusWrite (p : Ppu) (c : Cart) (a : BitVec 14) (v : Byte) : Ppu × Cart :=
  if a.toNat < 0x2000 then (p, c.ppuWrite a v)
  else if a.toNat < 0x3F00 then nametableWrite p c a v
  else (p.paletteWrite a v, c)

/-! ### The registers -/

/-- The address PPUDATA accesses: `v & $3FFF` (20 R113, R522). -/
def Ppu.dataAddr (p : Ppu) : BitVec 14 := p.v.setWidth 14

/-- `v` after a PPUDATA access (R519, R520). -/
def Ppu.bumpV (p : Ppu) : Ppu := { p with v := p.v + (if p.ctrl.getLsbD 2 then 32 else 1) }

/-- PPUCTRL write (R510). -/
def Ppu.writeCtrl (p : Ppu) (val : Byte) : Ppu :=
  { p with ctrl := val, t := (p.t &&& 0x73FF) ||| ((val &&& 0x03).setWidth 15 <<< 10) }

/-- OAMDATA write (R515): ignored while rendering on a render line. -/
def Ppu.writeOamData (p : Ppu) (val : Byte) : Ppu :=
  if p.rendering && p.renderLine then p
  else { p with oam := memSet p.oam p.oamAddr.toNat val, oamAddr := p.oamAddr + 1 }

/-- PPUSCROLL write (R517). -/
def Ppu.writeScroll (p : Ppu) (val : Byte) : Ppu :=
  if p.w then
    { p with
      t := (p.t &&& 0x0C1F) ||| ((val &&& 0x07).setWidth 15 <<< 12) ||| ((val >>> 3).setWidth 15 <<< 5)
      w := false }
  else { p with t := (p.t &&& 0x7FE0) ||| (val >>> 3).setWidth 15, fineX := val.setWidth 3, w := true }

/-- PPUADDR write (R518). -/
def Ppu.writeAddr (p : Ppu) (val : Byte) : Ppu :=
  if p.w then
    let t := (p.t &&& 0x7F00) ||| val.setWidth 15
    { p with t := t, v := t, w := false }
  else { p with t := (p.t &&& 0x00FF) ||| ((val &&& 0x3F).setWidth 15 <<< 8), w := true }

/-- PPUDATA write (R520). -/
def writeData (p : Ppu) (c : Cart) (val : Byte) : Ppu × Cart :=
  let r := ppuBusWrite p c p.dataAddr val
  (r.1.bumpV, r.2)

/-- `PpuRegWrite(r, val)` (R507); every write refreshes the open-bus byte (R508). PPUSTATUS takes no write (R512). -/
def ppuRegWrite (p : Ppu) (c : Cart) (r : Nat) (val : Byte) : Ppu × Cart :=
  let p := { p with openBus := val }
  match r with
  | 0 => (p.writeCtrl val, c)
  | 1 => ({ p with mask := val }, c)
  | 2 => (p, c)
  | 3 => ({ p with oamAddr := val }, c)
  | 4 => (p.writeOamData val, c)
  | 5 => (p.writeScroll val, c)
  | 6 => (p.writeAddr val, c)
  | _ => writeData p c val

/-- The position of the VBL race: the next dot to run sets VBL (R549). -/
def Ppu.atVblDot (p : Ppu) : Bool := decide (p.scanline = 241) && decide (p.dot = 1)

/-- The byte a PPUSTATUS read returns (R513); at the race position bit 7 is 0 (R549, log 21). -/
def Ppu.statusByte (p : Ppu) : Byte :=
  BitVec.ofBool (p.vbl && !p.atVblDot) ++ BitVec.ofBool p.sprite0Hit ++ BitVec.ofBool p.spriteOverflow
    ++ p.openBus.setWidth 5

/-- PPUSTATUS read (R513, R549). -/
def Ppu.readStatus (p : Ppu) : Byte × Ppu :=
  let r := p.statusByte
  (r, { p with vbl := false, w := false, openBus := r, suppressVbl := p.suppressVbl || p.atVblDot })

/-- OAMDATA read (R516): bits 4-2 of an attribute byte read as 0. -/
def Ppu.readOamData (p : Ppu) : Byte × Ppu :=
  let b := memGet p.oam p.oamAddr.toNat
  let r := if p.oamAddr.toNat % 4 = 2 then b &&& 0xE3 else b
  (r, { p with openBus := r })

/-- PPUDATA read (R519). -/
def readData (p : Ppu) (c : Cart) : Byte × Ppu × Cart :=
  let a := p.dataAddr
  if a.toNat < 0x3F00 then
    let m := ppuBusRead p c a
    (p.readBuffer, { p.bumpV with readBuffer := m.1, openBus := p.readBuffer }, m.2)
  else
    let r := (p.openBus &&& 0xC0) ||| (p.paletteRead a).setWidth 8
    let m := ppuBusRead p c (a - 0x1000)
    (r, { p.bumpV with readBuffer := m.1, openBus := r }, m.2)

/-- `PpuRegRead(r)` (R507); a write-only register reads as the open-bus byte (R508). -/
def ppuRegRead (p : Ppu) (c : Cart) (r : Nat) : Byte × Ppu × Cart :=
  match r with
  | 2 => let q := p.readStatus; (q.1, q.2, c)
  | 4 => let q := p.readOamData; (q.1, q.2, c)
  | 7 => readData p c
  | _ => (p.openBus, p, c)

/-- What a reset does to the PPU (R506, 70 R691). -/
def Ppu.reset (p : Ppu) : Ppu :=
  { p with ctrl := 0, mask := 0, vbl := false, sprite0Hit := false, spriteOverflow := false, w := false,
           suppressVbl := false, nmiPrev := false }

/-! ### The background pipeline -/

/-- The shift of one background dot (R535). -/
def Ppu.bgShift (p : Ppu) : Ppu :=
  { p with
    bgLo := p.bgLo <<< 1
    bgHi := p.bgHi <<< 1
    atLo := (p.atLo <<< 1) ||| (BitVec.ofBool p.atLatchLo).setWidth 8
    atHi := (p.atHi <<< 1) ||| (BitVec.ofBool p.atLatchHi).setWidth 8 }

/-- The reload of the shifters' low bytes and the attribute latch (R535). -/
def Ppu.bgReload (p : Ppu) : Ppu :=
  { p with
    bgLo := (p.bgLo &&& 0xFF00) ||| p.ptLo.setWidth 16
    bgHi := (p.bgHi &&& 0xFF00) ||| p.ptHi.setWidth 16
    atLatchLo := p.atByte.getLsbD 0
    atLatchHi := p.atByte.getLsbD 1 }

/-- Dots at which the background shifters shift: 2..257 and 322..337 (R535). -/
def shiftDot (d : Nat) : Bool := (decide (2 ≤ d) && decide (d ≤ 257)) || (decide (322 ≤ d) && decide (d ≤ 337))

/-- Dots at which they reload: 9, 17, ..., 257 and 329, 337 (R535). -/
def reloadDot (d : Nat) : Bool := (decide (9 ≤ d) && decide (d ≤ 257) && d % 8 == 1) || d == 329 || d == 337

/-- `BgShiftAndReload(d)` (R535). -/
def Ppu.bgShiftAndReload (p : Ppu) : Ppu :=
  let q := if shiftDot p.dot then p.bgShift else p
  if reloadDot p.dot then q.bgReload else q

/-- `NTaddr` (R534). -/
def Ppu.ntAddr (p : Ppu) : BitVec 14 := 0x2000 ||| (p.v &&& 0x0FFF).setWidth 14

/-- `ATaddr` (R534). -/
def Ppu.atAddr (p : Ppu) : BitVec 14 :=
  0x23C0 ||| (p.v &&& 0x0C00).setWidth 14 ||| ((p.v >>> 4) &&& 0x38).setWidth 14 ||| ((p.v >>> 2) &&& 0x07).setWidth 14

/-- `PTaddr` (R534). -/
def Ppu.ptAddr (p : Ppu) : BitVec 14 :=
  (if p.ctrl.getLsbD 4 then 0x1000 else 0) ||| (p.ntByte.setWidth 14 <<< 4) ||| (p.v >>> 12).setWidth 14

/-- `AttrBits(b)`: the quadrant selected by coarse Y bit 1 and coarse X bit 1 (R534). -/
def Ppu.attrBits (p : Ppu) (b : Byte) : BitVec 2 :=
  (b >>> (((p.v >>> 4) &&& 4) ||| (p.v &&& 2)).toNat).setWidth 2

/-- Coarse X increment (R536). -/
def incCoarseX (v : BitVec 15) : BitVec 15 :=
  if v &&& 0x001F = 0x001F then (v &&& 0x7FE0) ^^^ 0x0400 else v + 1

/-- Fine Y increment (R537). -/
def incFineY (v : BitVec 15) : BitVec 15 :=
  if v &&& 0x7000 = 0x7000 then
    let v := v &&& 0x0FFF
    if v &&& 0x03E0 = 0x03A0 then (v &&& 0x0C1F) ^^^ 0x0800
    else if v &&& 0x03E0 = 0x03E0 then v &&& 0x0C1F
    else v + 0x0020
  else v + 0x1000

/-- Horizontal copy from `t` (R538). -/
def copyHorizontal (v t : BitVec 15) : BitVec 15 := (v &&& 0x7BE0) ||| (t &&& 0x041F)

/-- Vertical copy from `t` (R539). -/
def copyVertical (v t : BitVec 15) : BitVec 15 := (v &&& 0x041F) ||| (t &&& 0x7BE0)

/-- Dots of the background fetch schedule: 1..256 and 321..336 (R533). -/
def fetchDot (d : Nat) : Bool := (decide (1 ≤ d) && decide (d ≤ 256)) || (decide (321 ≤ d) && decide (d ≤ 336))

/-- The nametable fetch (R533, R534). -/
def fetchNt (p : Ppu) (c : Cart) : Ppu × Cart :=
  let m := ppuBusRead p c p.ntAddr
  ({ p with ntByte := m.1 }, m.2)

/-- The attribute fetch (R533, R534). -/
def fetchAt (p : Ppu) (c : Cart) : Ppu × Cart :=
  let m := ppuBusRead p c p.atAddr
  ({ p with atByte := p.attrBits m.1 }, m.2)

/-- The pattern low fetch (R533, R534). -/
def fetchPtLo (p : Ppu) (c : Cart) : Ppu × Cart :=
  let m := ppuBusRead p c p.ptAddr
  ({ p with ptLo := m.1 }, m.2)

/-- The pattern high fetch, at low + 8 (R533, R534). -/
def fetchPtHi (p : Ppu) (c : Cart) : Ppu × Cart :=
  let m := ppuBusRead p c (p.ptAddr + 8)
  ({ p with ptHi := m.1 }, m.2)

/-- The fetch or coarse X increment of a dot (R533, R536). -/
def bgFetchTile (p : Ppu) (c : Cart) : Ppu × Cart :=
  if fetchDot p.dot then
    match (p.dot - 1) % 8 with
    | 0 => fetchNt p c
    | 2 => fetchAt p c
    | 4 => fetchPtLo p c
    | 6 => fetchPtHi p c
    | 7 => ({ p with v := incCoarseX p.v }, c)
    | _ => (p, c)
  else if p.dot == 337 || p.dot == 339 then fetchNt p c
  else (p, c)

/-- The other updates of `v`: fine Y at 256, horizontal copy at 257, vertical copy at 280..304 of the pre-render line
(R537-R539). -/
def Ppu.updateV (p : Ppu) : Ppu :=
  if p.dot = 256 then { p with v := incFineY p.v }
  else if p.dot = 257 then { p with v := copyHorizontal p.v p.t }
  else if p.scanline = -1 ∧ 280 ≤ p.dot ∧ p.dot ≤ 304 then { p with v := copyVertical p.v p.t }
  else p

/-- `BgFetch(s, d)` (R530, R533-R539). -/
def bgFetch (p : Ppu) (c : Cart) : Ppu × Cart :=
  let r := bgFetchTile p c
  (r.1.updateV, r.2)

/-! ### The sprite pipeline -/

/-- Secondary OAM with all 32 bytes $FF (R541). -/
def clearedSecOam : Mem := (List.range 32).map fun k => (k, 0xFF#8)

/-- Sprite `n` is in range of the current line (R542). -/
def Ppu.inRange (p : Ppu) (n : Nat) : Bool :=
  let y : Int := (memGet p.oam (4 * n)).toNat
  decide (y ≤ p.scanline) && decide (p.scanline - y < p.sprHeight)

/-- Copy the four bytes of sprite `n` into secondary OAM slot `k` (R542). -/
def Ppu.copySprite (p : Ppu) (n k : Nat) : Mem :=
  memSet (memSet (memSet (memSet p.secOam (4 * k) (memGet p.oam (4 * n)))
    (4 * k + 1) (memGet p.oam (4 * n + 1)))
    (4 * k + 2) (memGet p.oam (4 * n + 2)))
    (4 * k + 3) (memGet p.oam (4 * n + 3))

/-- Examine sprite `n` (R542, R543). -/
def Ppu.examineSprite (p : Ppu) (n : Nat) : Ppu :=
  if p.inRange n then
    if p.secCount < 8 then
      { p with secOam := p.copySprite n p.secCount, secCount := p.secCount + 1, sprite0Next := p.sprite0Next || n == 0 }
    else { p with spriteOverflow := true }
  else p

/-- `SpriteEvaluate(s, d)`: the clear at dot 1 of a render line, sprite `n` at dot `65 + 2n` of a visible line
(R541-R543). -/
def Ppu.spriteEvaluate (p : Ppu) : Ppu :=
  if p.dot = 1 then { p with secOam := clearedSecOam, secCount := 0, sprite0Next := false }
  else if p.visibleLine && decide (65 ≤ p.dot) && decide (p.dot ≤ 191) && p.dot % 2 == 1 then
    p.examineSprite ((p.dot - 65) / 2)
  else p

/-- The pattern row of a sprite whose Y byte is `y` and attribute byte is `at_` on the current line (R544). -/
def Ppu.spriteRow (p : Ppu) (y at_ : Byte) : Nat :=
  let row := ((p.scanline - (y.toNat : Int)) % (p.sprHeight : Int)).toNat
  if at_.getLsbD 7 then p.sprHeight - 1 - row else row

/-- The pattern address of row `row` of tile `tile` (R544). -/
def Ppu.spriteAddr (p : Ppu) (tile : Byte) (row : Nat) : BitVec 14 :=
  if p.ctrl.getLsbD 5 then
    BitVec.ofNat 14
      (tile.toNat % 2 * 0x1000 + (tile.toNat / 2 * 2 + (if 8 ≤ row then 1 else 0)) * 16 + row % 8)
  else BitVec.ofNat 14 ((if p.ctrl.getLsbD 3 then 0x1000 else 0) + tile.toNat * 16 + row)

/-- The unit of a slot without a sprite (R544). -/
def SpriteUnit.transparent : SpriteUnit := { patLo := 0, patHi := 0, attr := 0, xc := 0xFF }

/-- Load unit `i` (R544); on the pre-render line it is always transparent (R532, log 16). -/
def loadUnit (p : Ppu) (c : Cart) (i : Nat) : Ppu × Cart :=
  if i < p.secCount ∧ p.scanline ≠ -1 then
    let y := memGet p.secOam (4 * i)
    let tile := memGet p.secOam (4 * i + 1)
    let attr := memGet p.secOam (4 * i + 2)
    let xs := memGet p.secOam (4 * i + 3)
    let a := p.spriteAddr tile (p.spriteRow y attr)
    let lo := ppuBusRead p c a
    let hi := ppuBusRead p lo.2 (a + 8)
    let flip (b : Byte) : Byte := if attr.getLsbD 6 then b.reverse else b
    ({ p with units := p.units.set i { patLo := flip lo.1, patHi := flip hi.1, attr := attr, xc := xs } }, hi.2)
  else ({ p with units := p.units.set i .transparent }, c)

/-- `SpriteFetch(s, d)`: at dot 257 the sprite-0 mark, at dot `264 + 8i` unit `i` (R544). -/
def spriteFetch (p : Ppu) (c : Cart) : Ppu × Cart :=
  if p.dot = 257 then ({ p with sprite0InUnits := p.sprite0Next }, c)
  else if 264 ≤ p.dot ∧ p.dot ≤ 320 ∧ p.dot % 8 = 0 then loadUnit p c ((p.dot - 264) / 8)
  else (p, c)

/-- OAMADDR is set to 0 at dots 257..320 of a render line while rendering (R556). -/
def Ppu.clearOamAddr (p : Ppu) : Ppu :=
  if 257 ≤ p.dot ∧ p.dot ≤ 320 then { p with oamAddr := 0 } else p

/-- The pipelines of one rendering dot, in the order of R530. -/
def renderDot (p : Ppu) (c : Cart) : Ppu × Cart :=
  let b := bgFetch p.bgShiftAndReload c
  let f := spriteFetch b.1.spriteEvaluate b.2
  (f.1.clearOamAddr, f.2)

/-! ### Pixel output -/

/-- A sprite unit is active when its X counter is 0 (R550). -/
def SpriteUnit.active (u : SpriteUnit) : Bool := u.xc == 0

/-- The two-bit pixel `{pat_hi[7], pat_lo[7]}` of a unit (R550). -/
def SpriteUnit.pixel (u : SpriteUnit) : Nat := 2 * (u.patHi.getLsbD 7).toNat + (u.patLo.getLsbD 7).toNat

/-- A unit after a pixel: an active one shifts, an inactive one counts down (R550). -/
def SpriteUnit.advance (u : SpriteUnit) : SpriteUnit :=
  if u.active then { u with patLo := u.patLo <<< 1, patHi := u.patHi <<< 1 } else { u with xc := u.xc - 1 }

/-- The background pixel `bp` at column `x` (R540). -/
def Ppu.bgPixel (p : Ppu) (x : Nat) : Nat :=
  if p.showBg && (decide (8 ≤ x) || p.mask.getLsbD 1) then
    2 * (p.bgHi.getLsbD (15 - p.fineX.toNat)).toNat + (p.bgLo.getLsbD (15 - p.fineX.toNat)).toNat
  else 0

/-- The background palette `ba` (R540). -/
def Ppu.bgPalette (p : Ppu) : Nat :=
  2 * (p.atHi.getLsbD (7 - p.fineX.toNat)).toNat + (p.atLo.getLsbD (7 - p.fineX.toNat)).toNat

/-- The lowest-numbered active unit with a non-zero pixel, where sprites are shown (R550). -/
def Ppu.spriteAt (p : Ppu) (x : Nat) : Option SpriteUnit :=
  if p.showSpr && (decide (8 ≤ x) || p.mask.getLsbD 2) then p.units.find? fun u => u.active && u.pixel != 0 else none

/-- The palette address of a rendered pixel (R550). -/
def Ppu.pixelAddr (p : Ppu) (x : Nat) : BitVec 14 :=
  let bp := p.bgPixel x
  let bg := BitVec.ofNat 14 (0x3F00 + 4 * p.bgPalette + bp)
  match p.spriteAt x with
  | none => if bp = 0 then 0x3F00 else bg
  | some u =>
    let spr := BitVec.ofNat 14 (0x3F10 + 4 * (u.attr.toNat % 4) + u.pixel)
    if bp = 0 then spr else if u.attr.getLsbD 5 then bg else spr

/-- The conditions of a sprite-0 hit at column `x` (R551). -/
def Ppu.sprite0HitAt (p : Ppu) (x : Nat) : Bool :=
  p.sprite0InUnits
    && (match p.units with
        | u :: _ => u.active && u.pixel != 0
        | [] => false)
    && p.bgPixel x != 0 && p.showBg && p.showSpr
    && !(decide (x < 8) && (!p.mask.getLsbD 1 || !p.mask.getLsbD 2))
    && x != 255

/-- The palette address of a pixel with rendering off: the backdrop, or the entry `v` points at (R554). -/
def Ppu.idlePixelAddr (p : Ppu) : BitVec 14 := if 0x3F00 ≤ p.dataAddr.toNat then p.dataAddr else 0x3F00

/-- The 9-bit output pixel `{mask[7:5], c}` of a palette entry, after greyscale (R553). -/
def Ppu.outputColour (p : Ppu) (c : BitVec 6) : BitVec 9 :=
  p.mask.extractLsb' 5 3 ++ (if p.mask.getLsbD 0 then c &&& 0x30 else c)

/-- Write pixel (`x`, scanline) of the frame buffer (R555). -/
def Ppu.emit (p : Ppu) (x : Nat) (a : BitVec 14) : Ppu :=
  { p with frame := setPixel p.frame x p.scanline.toNat (p.outputColour (p.paletteRead a)) }

/-- `OutputPixel(s, x)` (R550-R554). -/
def Ppu.outputPixel (p : Ppu) (x : Nat) : Ppu :=
  if p.rendering then
    let q := p.emit x (p.pixelAddr x)
    { q with sprite0Hit := p.sprite0Hit || p.sprite0HitAt x, units := p.units.map SpriteUnit.advance }
  else p.emit x p.idlePixelAddr

/-! ### The dot -/

/-- The flag changes of a dot: VBL set at (241, 1) unless suppressed, the pre-render clear at (-1, 1) (R530, R547-R549). -/
def Ppu.flagDot (p : Ppu) : Ppu :=
  if p.atVblDot then (if p.suppressVbl then { p with suppressVbl := false } else { p with vbl := true })
  else if p.scanline = -1 ∧ p.dot = 1 then { p with vbl := false, sprite0Hit := false, spriteOverflow := false }
  else p

/-- The end of a frame: the position wraps, the parity flips, and the host's copy is taken (R504, R531, R555, log 15). -/
def Ppu.endFrame (p : Ppu) : Ppu :=
  { p with scanline := -1, dot := 0, oddFrame := !p.oddFrame, frameComplete := true, frameCount := p.frameCount + 1,
           lastFrame := p.frame }

/-- `Advance()` (R531). -/
def Ppu.advance (p : Ppu) : Ppu :=
  if p.scanline = -1 ∧ p.dot = 339 ∧ p.oddFrame = true ∧ p.rendering = true then { p with scanline := 0, dot := 0 }
  else if 341 ≤ p.dot + 1 then
    if 261 ≤ p.scanline + 1 then p.endFrame else { p with scanline := p.scanline + 1, dot := 0 }
  else { p with dot := p.dot + 1 }

/-- The work of a dot before `NmiEdge()` (R530). The registers that decide `rendering` do not change within it. -/
def dotBody (p : Ppu) (c : Cart) : Ppu × Cart :=
  let q := p.flagDot
  let r := if p.rendering && p.renderLine then renderDot q c else (q, c)
  (if p.visibleLine && decide (1 ≤ p.dot) && decide (p.dot ≤ 256) then r.1.outputPixel (p.dot - 1) else r.1, r.2)

/-- `PpuDot()` (R530): the PPU and the cartridge after the dot, and whether the NMI output made an active edge in it
(R546). -/
def ppuDot (p : Ppu) (c : Cart) : Ppu × Cart × Bool :=
  let r := dotBody p c
  let q := r.1
  ({ q with nmiPrev := q.nmiOutput }.advance, r.2, q.nmiOutput && !q.nmiPrev)

/-- The memories of the PPU and its two pictures are in canonical form. -/
def Ppu.memsWf (p : Ppu) : Bool :=
  Memory.wf 0x800 p.ciram && Memory.wf 0x100 p.oam && Memory.wf 0x20 p.secOam && paletteWf p.palette
    && pictureWf p.frame && pictureWf p.lastFrame

end Sys2Proof.Machine
end

