-- ==== Sys2Proof/Machine/Ops.lean ====
section
/-!
DEFINITION. The named operations of the machine: the clock tick and the bus cycle (20_memory.md R111), the CPU bus
(R101, R102), DMA (63_bus_dma_io.md R662), stack accesses (00_scope.md R18), and the taking of an interrupt, of a reset
(60_exceptions.md R458, 70_reset_and_hazards.md R692) and the return from one (44_control_flow.md R353).
-/

namespace Sys2Proof.Machine

/-! ### The CPU's own registers -/

/-- `PC <- a`. -/
def State.withPc (s : State) (a : Addr) : State := { s with pc := a }

/-- `A <- v`. -/
def State.withA (s : State) (v : Byte) : State := { s with a := v }

/-- `X <- v`. -/
def State.withX (s : State) (v : Byte) : State := { s with x := v }

/-- `S <- v`. -/
def State.withSp (s : State) (v : Byte) : State := { s with sp := v }

/-- `P <- p`. -/
def State.withP (s : State) (p : Flags) : State := { s with p := p }

/-- `bus_latch <- b` (10 R69). -/
def State.latch (s : State) (b : Byte) : State := { s with busLatch := b }

/-! ### Clock -/

/-- `PpuDot()` in the machine: an active edge of the NMI output sets the CPU's latch (61 R546, 10 R64). -/
def State.ppuDot (s : State) : State :=
  let r := Machine.ppuDot s.ppu s.cart
  { s with ppu := r.1, cart := r.2.1, nmiPending := s.nmiPending || r.2.2 }

/-- `ApuStep()` in the machine (62 R595): the reader's request is the pending bit of the DMC DMA (62 R621). -/
def State.apuStep (s : State) : State :=
  let u := s.apu.step s.cycles
  { s with apu := u, dma := { s.dma with dmcPending := s.dma.dmcPending || u.dmc.needsByte } }

/-- `cycles <- cycles + 1` (10 R68). -/
def State.countCycle (s : State) : State := { s with cycles := s.cycles + 1 }

/-- `Tick()` (20 R111): three dots, one APU step, one cycle counted. -/
def State.tick (s : State) : State := s.ppuDot.ppuDot.ppuDot.apuStep.countCycle

/-! ### The CPU bus -/

/-- `ControllerRead(p)` (63 R672): the byte of port 0 or 1, and the ports after it. -/
def Pads.read (k : Pads) (port1 : Bool) (busLatch : Byte) : Byte × Pads :=
  let buttons := if port1 then k.buttons1 else k.buttons0
  let shift := if port1 then k.shift1 else k.shift0
  let d := if k.strobe then buttons.getLsbD 0 else shift.getLsbD 0
  let next := (shift >>> 1) ||| 0x80
  ((busLatch &&& 0xE0) ||| (BitVec.ofBool d).setWidth 8,
    if k.strobe then k else if port1 then { k with shift1 := next } else { k with shift0 := next })

/-- `ControllerStrobeWrite(v)` (63 R671): a high-to-low strobe snapshots both ports. -/
def Pads.strobeWrite (k : Pads) (val : Byte) : Pads :=
  let q := { k with strobe := val.getLsbD 0 }
  if k.strobe && !val.getLsbD 0 then { q with shift0 := k.buttons0, shift1 := k.buttons1 } else q

/-- `CpuBusRead(a)` (20 R101): the byte, and the state after the read's side effects (R105). -/
def State.busRead (s : State) (a : Addr) : Byte × State :=
  if a.toNat < 0x2000 then (s.ramByte a, s)
  else if a.toNat < 0x4000 then
    let r := ppuRegRead s.ppu s.cart (a.toNat % 8)
    (r.1, { s with ppu := r.2.1, cart := r.2.2 })
  else if a.toNat < 0x4015 then (s.busLatch, s)
  else if a.toNat = 0x4015 then (s.apu.statusByte s.busLatch, { s with apu := s.apu.afterStatusRead })
  else if a.toNat < 0x4018 then
    let r := s.pads.read (a.toNat == 0x4017) s.busLatch
    (r.1, { s with pads := r.2 })
  else if a.toNat < 0x4020 then (s.busLatch, s)
  else
    let r := s.cart.cpuRead a
    (r.1.getD s.busLatch, { s with cart := r.2 })

/-- `OamDmaRequest(v)` (63 R660). -/
def State.oamDmaRequest (s : State) (val : Byte) : State :=
  { s with dma := { s.dma with oamPending := true, oamPage := val } }

/-- `CpuBusWrite(a, v)` (20 R102). -/
def State.busWrite (s : State) (a : Addr) (v : Byte) : State :=
  if a.toNat < 0x2000 then { s with ram := memSet s.ram (ramIndex a) v }
  else if a.toNat < 0x4000 then
    let r := ppuRegWrite s.ppu s.cart (a.toNat % 8) v
    { s with ppu := r.1, cart := r.2 }
  else if a.toNat < 0x4014 then { s with apu := s.apu.regWrite (a.toNat % 0x20) v }
  else if a.toNat = 0x4014 then s.oamDmaRequest v
  else if a.toNat = 0x4015 then { s with apu := s.apu.statusWrite v }
  else if a.toNat = 0x4016 then { s with pads := s.pads.strobeWrite v }
  else if a.toNat = 0x4017 then { s with apu := s.apu.frameCounterWrite s.cycles v }
  else if a.toNat < 0x4020 then s
  else { s with cart := s.cart.cpuWrite a v }

/-! ### DMA (63 R662) -/

/-- `DmaIdle()` repeated: cycles without a bus access. -/
def State.idle (s : State) : Nat → State
  | 0 => s
  | n + 1 => s.tick.idle n

/-- A read of the bus and the tick of its cycle: `DmaRead(a)`, and the last part of a CPU read cycle (20 R111). -/
def State.readAndTick (s : State) (a : Addr) : Byte × State :=
  let r := s.busRead a
  (r.1, (r.2.latch r.1).tick)

/-- `DmcDeliver(b)` (62 R621) in the machine, and the end of its request. -/
def State.dmcDeliver (s : State) (b : Byte) : State :=
  { s with apu := { s.apu with dmc := s.apu.dmc.deliver b }, dma := { s.dma with dmcPending := false } }

/-- The DMC DMA: `DMC_STALL - 1` idle cycles and the fetch of one sample byte (63 R665). The request counts as pending
until its byte is delivered (62 R621, log 11). -/
def State.serveDmc (s : State) : State :=
  let t := s.idle (Config.dmcStall - 1)
  let r := t.readAndTick t.apu.dmc.curAddr
  r.2.dmcDeliver r.1

/-- `oam[oam_addr] <- b; oam_addr <- u8(oam_addr + 1); open_bus <- b` (63 R662). -/
def Ppu.dmaPut (p : Ppu) (b : Byte) : Ppu :=
  { p with oam := memSet p.oam p.oamAddr.toNat b, oamAddr := p.oamAddr + 1, openBus := b }

/-- The write of one DMA byte, before its tick. -/
def State.dmaPut (s : State) (b : Byte) : State := { s with ppu := s.ppu.dmaPut b }

/-- `DmaWriteOam(b)` (63 R662, R663). -/
def State.dmaWriteOam (s : State) (b : Byte) : State := ((s.dmaPut b).latch b).tick

/-- The last `n` of the 256 read and write pairs of an OAM DMA from page `page` (63 R662, R663). -/
def State.oamCopy (s : State) (page : Byte) : Nat → State
  | 0 => s
  | n + 1 =>
    let r := s.readAndTick (joinBytes page (BitVec.ofNat 8 (255 - n)))
    (r.2.dmaWriteOam r.1).oamCopy page n

/-- The OAM DMA's request is taken: `oam_dma_pending <- 0`. -/
def State.oamDmaStart (s : State) : State := { s with dma := { s.dma with oamPending := false } }

/-- The OAM DMA: one idle cycle, one more when `cycles` is odd at its start, then 256 pairs (63 R661-R663). -/
def State.serveOam (s : State) : State :=
  (s.oamDmaStart.idle (if s.cycles % 2 = 1 then 2 else 1)).oamCopy s.dma.oamPage 256

/-- Serve the DMC DMA if it is pending. -/
def State.serveDmcIfPending (s : State) : State := if s.dma.dmcPending then s.serveDmc else s

/-- Serve the OAM DMA if it is pending. -/
def State.serveOamIfPending (s : State) : State := if s.dma.oamPending then s.serveOam else s

/-- `ServiceDma()` (63 R662): the DMC first, then OAM, then a DMC request raised meanwhile. No other turn of the loop is
possible (log 26). -/
def State.serviceDma (s : State) : State := s.serveDmcIfPending.serveOamIfPending.serveDmcIfPending

/-! ### CPU cycles -/

/-- `MemRead(a, 1)`: one CPU read cycle (00 R16, 20 R111). -/
def State.memRead (s : State) (a : Addr) : Byte × State := s.serviceDma.readAndTick a

/-- `DummyRead(a)` (00 R17). -/
def State.dummyRead (s : State) (a : Addr) : State := (s.memRead a).2

/-- `MemWrite(a, 1, v)`: one CPU write cycle (00 R16, 20 R111). -/
def State.memWrite (s : State) (a : Addr) (v : Byte) : State := ((s.busWrite a v).latch v).tick

/-- `fetch`: read the byte at PC and step past it (10 R54, 40 R200). -/
def State.fetchByte (s : State) : Byte × State :=
  let r := s.memRead s.pc
  (r.1, r.2.withPc (s.pc + 1))

/-! ### The stack -/

/-- The address `$0100 + S` (10 R53). -/
def stackAddr (sp : Byte) : Addr := joinBytes 0x01 sp

/-- `Push(v)` (00 R18). -/
def State.push (s : State) (v : Byte) : State := (s.memWrite (stackAddr s.sp) v).withSp (s.sp - 1)

/-- `Pull()` (00 R18). -/
def State.pull (s : State) : Byte × State := (s.withSp (s.sp + 1)).memRead (stackAddr (s.sp + 1))

/-! ### Interrupts -/

/-- `P_byte`, the byte `{N, V, 1, 0, D, I, Z, C}` (10 R57). -/
def Flags.byte (p : Flags) : Byte :=
  BitVec.ofBool p.n ++ BitVec.ofBool p.v ++ 1#1 ++ 0#1 ++ BitVec.ofBool p.d ++ BitVec.ofBool p.i ++ BitVec.ofBool p.z
    ++ BitVec.ofBool p.c

/-- `irq_line`, recomputed when polled (10 R65). -/
def State.irqLine (s : State) : Bool := s.apu.frameIrq || s.apu.dmc.dmcIrq || s.cart.irq

/-- The vectors, by the address of their low byte (20 R107, 60 R452). -/
def nmiVector : Addr := 0xFFFA

/-- The reset vector. -/
def resetVector : Addr := 0xFFFC

/-- The vector IRQ and BRK share. -/
def irqVector : Addr := 0xFFFE

/-- The last two cycles of an interrupt sequence or of BRK: read the vector, setting I with its low byte, and go there
(60 R458, 44 R354). -/
def State.enterVector (s : State) (vec : Addr) : State :=
  let l := s.memRead vec
  let h := (l.2.withP { s.p with i := true }).memRead (vec + 1)
  h.2.withPc (joinBytes h.1 l.1)

/-- The last five cycles of an interrupt sequence and of BRK (60 R458, 44 R354): push PCH, PCL and the given status byte,
then enter through the vector. -/
def State.saveAndEnter (s : State) (status : Byte) (vec : Addr) : State :=
  (((s.push (highByte s.pc)).push (lowByte s.pc)).push status).enterVector vec

/-- `InterruptSequence`, seven cycles (60 R458): the pushed status has bit 5 set and B clear. -/
def State.interruptSequence (s : State) (vec : Addr) : State :=
  ((s.dummyRead s.pc).dummyRead s.pc).saveAndEnter (s.p.byte ||| 0x20) vec

/-- `nmi_pending <- 0` (60 R460). -/
def State.clearNmi (s : State) : State := { s with nmiPending := false }

/-- The NMI sequence: it clears the latch at its first cycle (60 R458, R460). -/
def State.nmiSequence (s : State) : State := s.clearNmi.interruptSequence nmiVector

/-- The IRQ sequence (60 R458, R461). -/
def State.irqSequence (s : State) : State := s.interruptSequence irqVector

/-- Bus DMA after a reset (70 R691, R692): both requests cleared, the page left unchanged. 63 R655 says that the page is cleared
too (log 28: the model's choice between the two). -/
def Dma.reset (d : Dma) : Dma := { d with oamPending := false, dmcPending := false }

/-- The first action of the reset sequence, before its cycles (70 R691, R692). -/
def State.resetDevices (s : State) : State :=
  { s with resetPending := false, nmiPending := false, jammed := false, ppu := s.ppu.reset,
           apu := s.apu.statusWrite 0, dma := s.dma.reset }

/-- `ResetSequence()`, seven cycles (70 R692). Its reads leave their last byte, that of $FFFD, in `bus_latch`, as 10 R69 and 70
R701 have it; the tables of 10 R75 and 70 R691 call the latch unchanged (log 30: the model's choice between the two). -/
def State.resetSequence (s : State) : State :=
  let r := s.resetDevices
  let t := (((r.dummyRead s.pc).dummyRead s.pc).dummyRead (stackAddr s.sp)).dummyRead (stackAddr (s.sp - 1))
  let u := (t.dummyRead (stackAddr (s.sp - 2))).withSp 0xFD
  let l := u.memRead resetVector
  let h := (l.2.withP (.ofByte 0x24)).memRead (resetVector + 1)
  h.2.withPc (joinBytes h.1 l.1)

/-- Pull PC, low byte first: cycles 5 and 6 of RTI, 4 and 5 of RTS (44 R352, R353). -/
def State.pullPc (s : State) : State :=
  let l := s.pull
  let h := l.2.pull
  h.2.withPc (joinBytes h.1 l.1)

/-- Pull P: bits 5 and 4 of the byte are discarded (10 R57, 44 R353, 45 R373). -/
def State.pullFlags (s : State) : State :=
  let r := s.pull
  r.2.withP (.ofByte r.1)

/-- The return from an interrupt after the opcode fetch: cycles 2 to 6 of RTI (44 R353). -/
def State.interruptReturn (s : State) : State :=
  ((s.dummyRead s.pc).dummyRead (stackAddr s.sp)).pullFlags.pullPc

/-! ### Memory seen without a bus cycle -/

/-- The byte of plain memory the CPU sees at an address: internal RAM, and the memory of the reference cartridge. `none`
for a device, for open bus, and for a cartridge the model does not know. -/
def State.memByte (s : State) (a : Addr) : Option Byte :=
  if a.toNat < 0x2000 then some (s.ramByte a)
  else if a.toNat < 0x4020 then none
  else s.cart.memByte a

/-- Every memory of the machine is in canonical form. -/
def State.memWf (s : State) : Bool := Memory.wf 0x800 s.ram && s.ppu.memsWf && s.cart.wf

end Sys2Proof.Machine
end

