-- ==== Sys2Proof/Machine/Operands.lean ====
section
/-!
DEFINITION. The addressing modes as bus cycles (40_addressing.md R200-R220). Every operation here starts after the instruction's
own bytes have been fetched: `exec` runs on a state whose PC is past the operand bytes, and the operand comes with the
instruction.
-/

namespace Sys2Proof.Machine

/-- What one instruction answers. -/
abbrev Out := Host.Outcome State Fault Refusal

/-! ### Addresses (R215) -/

/-- The zero-page address `$00:z` (R204). -/
def zpAddr (z : Byte) : Addr := joinBytes 0 z

/-- The unfixed address of an index addition: the base's page with the new low byte (R215). -/
def unfixed (base : Addr) (idx : Byte) : Addr := joinBytes (highByte base) (lowByte base + idx)

/-- The effective address of an index addition, modulo 2^16 (R215). -/
def indexed (base : Addr) (idx : Byte) : Addr := base + idx.setWidth 16

/-- The index addition crosses a page (R215). -/
def crosses (base : Addr) (idx : Byte) : Bool := decide (256 ≤ (lowByte base).toNat + idx.toNat)

/-! ### Templates -/

/-- The implied template's only cycle after the opcode fetch (R201). -/
def State.implied (s : State) : State := s.dummyRead s.pc

/-- Cycles 3 to 5 of indexed indirect: the pointer at `z + X` in page zero (R210). -/
def State.pointerX (s : State) (z : Byte) : Addr × State :=
  let l := (s.dummyRead (zpAddr z)).memRead (zpAddr (z + s.x))
  let h := l.2.memRead (zpAddr (z + s.x + 1))
  (joinBytes h.1 l.1, h.2)

/-- Cycles 3 and 4 of indirect indexed: the pointer at `z` in page zero (R211). -/
def State.pointerY (s : State) (z : Byte) : Addr × State :=
  let l := s.memRead (zpAddr z)
  let h := l.2.memRead (zpAddr (z + 1))
  (joinBytes h.1 l.1, h.2)

/-- The cycles of a write-class or read-modify-write template before its first access to the effective address, and that
address (R204-R211). The indexed forms always read the unfixed address first. -/
def State.locate (s : State) : MemMode → Addr × State
  | .zp z => (zpAddr z, s)
  | .zpX z => (zpAddr (z + s.x), s.dummyRead (zpAddr z))
  | .zpY z => (zpAddr (z + s.y), s.dummyRead (zpAddr z))
  | .abs a => (a, s)
  | .absX a => (indexed a s.x, s.dummyRead (unfixed a s.x))
  | .absY a => (indexed a s.y, s.dummyRead (unfixed a s.y))
  | .indX z => s.pointerX z
  | .indY z =>
    let p := s.pointerY z
    (indexed p.1 s.y, p.2.dummyRead (unfixed p.1 s.y))

/-- The last cycles of an indexed read: one more, at the unfixed address, only on a page cross (R208). -/
def State.readIndexed (s : State) (base : Addr) (idx : Byte) : Byte × State :=
  if crosses base idx then (s.dummyRead (unfixed base idx)).memRead (indexed base idx) else s.memRead (indexed base idx)

/-- The read-class template of a memory mode: the operand and the state after its cycles (R204-R211). -/
def State.readMem (s : State) : MemMode → Byte × State
  | .zp z => s.memRead (zpAddr z)
  | .zpX z => (s.dummyRead (zpAddr z)).memRead (zpAddr (z + s.x))
  | .zpY z => (s.dummyRead (zpAddr z)).memRead (zpAddr (z + s.y))
  | .abs a => s.memRead a
  | .absX a => s.readIndexed a s.x
  | .absY a => s.readIndexed a s.y
  | .indX z =>
    let p := s.pointerX z
    p.2.memRead p.1
  | .indY z =>
    let p := s.pointerY z
    p.2.readIndexed p.1 s.y

/-- The operand of a read-class instruction (R203-R211, R214). -/
def State.readOperand (s : State) : ReadOperand → Byte × State
  | .imm i => (i, s)
  | .mem m => s.readMem m

/-- The write-class template: one write of the store value, no read of the effective address (R218). -/
def State.store (s : State) (m : MemMode) (v : Byte) : State :=
  let l := s.locate m
  l.2.memWrite l.1 v

/-- What the middle of a read-modify-write template does to the byte it read: a result, and the registers after it. -/
abbrev Modifier := Byte → State → Byte × State

/-- The read-modify-write template: read, write the unmodified value, write the result (R220). -/
def State.modify (s : State) (m : MemMode) (f : Modifier) : State :=
  let l := s.locate m
  let r := l.2.memRead l.1
  let w := f r.1 (r.2.memWrite l.1 r.1)
  w.2.memWrite l.1 w.1

/-- The accumulator template (R202). -/
def State.modifyAcc (s : State) (f : Modifier) : State :=
  let t := s.implied
  let w := f t.a t
  w.2.withA w.1

/-- A shift or rotate on its operand (R202, R204-R208). -/
def State.modifyOperand (s : State) (o : RmwOperand) (f : Modifier) : State :=
  match o with
  | .acc => s.modifyAcc f
  | .mem m => s.modify m f

/-- A shift of the byte and the flags alone, as a step of the template. -/
def onFlags (g : Byte → Flags → Byte × Flags) : Modifier := fun v s =>
  let r := g v s.p
  (r.1, s.withP r.2)

/-- The relative template after the fetch of the displacement (R213): two cycles when not taken, three when taken within the
page of the next instruction, four when taken into another page. -/
def State.branch (s : State) (cond : Bool) (r : Byte) : State :=
  if cond then
    let target := addSigned s.pc r
    let t := s.dummyRead s.pc
    if highByte target = highByte s.pc then t.withPc target
    else (t.dummyRead (joinBytes (highByte s.pc) (lowByte target))).withPc target
  else s

end Sys2Proof.Machine
end

