-- ==== Sys2Proof/Machine/LoadStore.lean ====
section
/-!
DEFINITION. Loads, stores and register transfers (41_load_store_transfer.md).
-/

namespace Sys2Proof.Machine

/-- `A <- v; NZ(A)`. -/
def State.setA (s : State) (v : Byte) : State := { s with a := v, p := s.p.nz v }

/-- `X <- v; NZ(X)`. -/
def State.setX (s : State) (v : Byte) : State := { s with x := v, p := s.p.nz v }

/-- `Y <- v; NZ(Y)`. -/
def State.setY (s : State) (v : Byte) : State := { s with y := v, p := s.p.nz v }

/-- LDA (R250): `A <- M; NZ(A)`. -/
def execLda (o : ReadOperand) (s : State) : Out :=
  let r := s.readOperand o
  .next (r.2.setA r.1)

/-- LDX (R251): `X <- M; NZ(X)`. -/
def execLdx (o : ReadOperand) (s : State) : Out :=
  let r := s.readOperand o
  .next (r.2.setX r.1)

/-- LDY (R252): `Y <- M; NZ(Y)`. -/
def execLdy (o : ReadOperand) (s : State) : Out :=
  let r := s.readOperand o
  .next (r.2.setY r.1)

/-- STA (R253): the store value is A; no flag changes. -/
def execSta (m : MemMode) (s : State) : Out := .next (s.store m s.a)

/-- STX (R254): the store value is X; no flag changes. -/
def execStx (m : MemMode) (s : State) : Out := .next (s.store m s.x)

/-- STY (R255): the store value is Y; no flag changes. -/
def execSty (m : MemMode) (s : State) : Out := .next (s.store m s.y)

/-- TAX (R256): `X <- A; NZ(X)`. -/
def execTax (s : State) : Out := .next (s.implied.setX s.a)

/-- TAY (R257): `Y <- A; NZ(Y)`. -/
def execTay (s : State) : Out := .next (s.implied.setY s.a)

/-- TXA (R258): `A <- X; NZ(A)`. -/
def execTxa (s : State) : Out := .next (s.implied.setA s.x)

/-- TYA (R259): `A <- Y; NZ(A)`. -/
def execTya (s : State) : Out := .next (s.implied.setA s.y)

/-- TSX (R260): `X <- S; NZ(X)`. -/
def execTsx (s : State) : Out := .next (s.implied.setX s.sp)

/-- TXS (R261): `S <- X`; no flag changes. -/
def execTxs (s : State) : Out := .next (s.implied.withSp s.x)

end Sys2Proof.Machine
end

