-- ==== Sys2Proof/Machine/Arith.lean ====
section
/-!
DEFINITION. Arithmetic, logic, compares and BIT (42_arith_logic.md).
-/

namespace Sys2Proof.Machine

/-- `AddCore(M)` on the machine's A and flags (R280). -/
def State.addA (s : State) (m : Byte) : State :=
  let r := addCore s.a m s.p
  (s.withA r.1).withP r.2

/-- `CompareCore(R, M)` on the machine's flags (R281). -/
def State.compare (s : State) (reg m : Byte) : State := s.withP (compareCore reg m s.p)

/-- ADC (R282): `AddCore(M)`. -/
def execAdc (o : ReadOperand) (s : State) : Out :=
  let r := s.readOperand o
  .next (r.2.addA r.1)

/-- SBC (R283): `AddCore(M ^ $FF)`. -/
def execSbc (o : ReadOperand) (s : State) : Out :=
  let r := s.readOperand o
  .next (r.2.addA (r.1 ^^^ 0xFF))

/-- AND (R284): `A <- A & M; NZ(A)`. -/
def execAnd (o : ReadOperand) (s : State) : Out :=
  let r := s.readOperand o
  .next (r.2.setA (r.2.a &&& r.1))

/-- ORA (R285): `A <- A | M; NZ(A)`. -/
def execOra (o : ReadOperand) (s : State) : Out :=
  let r := s.readOperand o
  .next (r.2.setA (r.2.a ||| r.1))

/-- EOR (R286): `A <- A ^ M; NZ(A)`. -/
def execEor (o : ReadOperand) (s : State) : Out :=
  let r := s.readOperand o
  .next (r.2.setA (r.2.a ^^^ r.1))

/-- CMP (R287): `CompareCore(A, M)`. -/
def execCmp (o : ReadOperand) (s : State) : Out :=
  let r := s.readOperand o
  .next (r.2.compare r.2.a r.1)

/-- CPX (R288): `CompareCore(X, M)`. -/
def execCpx (o : ReadOperand) (s : State) : Out :=
  let r := s.readOperand o
  .next (r.2.compare r.2.x r.1)

/-- CPY (R289): `CompareCore(Y, M)`. -/
def execCpy (o : ReadOperand) (s : State) : Out :=
  let r := s.readOperand o
  .next (r.2.compare r.2.y r.1)

/-- BIT (R290): `Z <- (A & M) == 0; N <- M[7]; V <- M[6]`. -/
def execBit (o : ReadOperand) (s : State) : Out :=
  let r := s.readOperand o
  .next (r.2.withP (bitCore r.2.a r.1 r.2.p))

end Sys2Proof.Machine
end

