-- ==== Sys2Proof/Machine/Control.lean ====
section
/-!
DEFINITION. Branches, jumps, subroutines, RTI and BRK (44_control_flow.md).
-/

namespace Sys2Proof.Machine

/-- BPL (R341, R340): taken when N is 0. -/
def execBpl (r : Byte) (s : State) : Out := .next (s.branch (!s.p.n) r)

/-- BMI (R342, R340): taken when N is 1. -/
def execBmi (r : Byte) (s : State) : Out := .next (s.branch s.p.n r)

/-- BVC (R343, R340): taken when V is 0. -/
def execBvc (r : Byte) (s : State) : Out := .next (s.branch (!s.p.v) r)

/-- BVS (R344, R340): taken when V is 1. -/
def execBvs (r : Byte) (s : State) : Out := .next (s.branch s.p.v r)

/-- BCC (R345, R340): taken when C is 0. -/
def execBcc (r : Byte) (s : State) : Out := .next (s.branch (!s.p.c) r)

/-- BCS (R346, R340): taken when C is 1. -/
def execBcs (r : Byte) (s : State) : Out := .next (s.branch s.p.c r)

/-- BNE (R347, R340): taken when Z is 0. -/
def execBne (r : Byte) (s : State) : Out := .next (s.branch (!s.p.z) r)

/-- BEQ (R348, R340): taken when Z is 1. -/
def execBeq (r : Byte) (s : State) : Out := .next (s.branch s.p.z r)

/-- JMP absolute (R349): the operand bytes are fetched, and PC is the operand. -/
def execJmp (target : Addr) (s : State) : Out := .next (s.withPc target)

/-- Cycles 4 and 5 of JMP indirect (R350): the high byte is read from the page of the low byte. -/
def State.jumpThrough (s : State) (pointer : Addr) : State :=
  let l := s.memRead pointer
  let h := l.2.memRead (joinBytes (highByte pointer) (lowByte pointer + 1))
  h.2.withPc (joinBytes h.1 l.1)

/-- JMP indirect (R350, 40 R212). -/
def execJmpInd (pointer : Addr) (s : State) : Out := .next (s.jumpThrough pointer)

/-- Cycles 3 to 5 of JSR (R351): push the address of its last byte, where PC stands. -/
def State.jsrPush (s : State) : State :=
  ((s.dummyRead (stackAddr s.sp)).push (highByte s.pc)).push (lowByte s.pc)

/-- The high byte JSR reads in its last cycle, after its pushes (R351). -/
def State.jsrHigh (s : State) : Byte := (s.jsrPush.memRead s.pc).1

/-- JSR (R351): push, read the high byte at PC, go to the operand. Its high byte is the one that read delivers (log 13). -/
def execJsr (target : Addr) (s : State) : Out := .next ((s.jsrPush.dummyRead s.pc).withPc target)

/-- Cycles 2 to 6 of RTS (R352): pull PC, read there, step past it. -/
def State.returnFromSubroutine (s : State) : State :=
  let t := ((s.dummyRead s.pc).dummyRead (stackAddr s.sp)).pullPc
  (t.dummyRead t.pc).withPc (t.pc + 1)

/-- RTS (R352). -/
def execRts (s : State) : Out := .next s.returnFromSubroutine

/-- RTI (R353): pull P and PC. -/
def execRti (s : State) : Out := .next s.interruptReturn

/-- BRK (R354, 60 R463): skip the padding byte, push PC and P with B set, enter through the IRQ vector. -/
def execBrk (s : State) : Out :=
  .next (((s.dummyRead s.pc).withPc (s.pc + 1)).saveAndEnter (s.p.byte ||| 0x30) irqVector)

end Sys2Proof.Machine
end

