-- ==== Sys2Proof/Machine/Shift.lean ====
section
/-!
DEFINITION. Shifts, rotates, increments and decrements (43_shift_incdec.md).
-/

namespace Sys2Proof.Machine

/-- ASL (R310): shift left, bit 7 into C; NZ of the result. -/
def execAsl (o : RmwOperand) (s : State) : Out :=
  .next (s.modifyOperand o (onFlags fun v p => withNz (aslCore v p)))

/-- LSR (R311): shift right, bit 0 into C; NZ of the result. -/
def execLsr (o : RmwOperand) (s : State) : Out :=
  .next (s.modifyOperand o (onFlags fun v p => withNz (lsrCore v p)))

/-- ROL (R312): rotate left through C; NZ of the result. -/
def execRol (o : RmwOperand) (s : State) : Out :=
  .next (s.modifyOperand o (onFlags fun v p => withNz (rolCore v p)))

/-- ROR (R313): rotate right through C; NZ of the result. -/
def execRor (o : RmwOperand) (s : State) : Out :=
  .next (s.modifyOperand o (onFlags fun v p => withNz (rorCore v p)))

/-- INC (R314): increment memory; NZ of the result, C and V unchanged. -/
def execInc (m : MemMode) (s : State) : Out := .next (s.modify m (onFlags fun v p => withNz (v + 1, p)))

/-- DEC (R315): decrement memory; NZ of the result, C and V unchanged. -/
def execDec (m : MemMode) (s : State) : Out := .next (s.modify m (onFlags fun v p => withNz (v - 1, p)))

/-- INX (R316): `X <- u8(X + 1); NZ(X)`. -/
def execInx (s : State) : Out := .next (s.implied.setX (s.x + 1))

/-- INY (R317): `Y <- u8(Y + 1); NZ(Y)`. -/
def execIny (s : State) : Out := .next (s.implied.setY (s.y + 1))

/-- DEX (R318): `X <- u8(X - 1); NZ(X)`. -/
def execDex (s : State) : Out := .next (s.implied.setX (s.x - 1))

/-- DEY (R319): `Y <- u8(Y - 1); NZ(Y)`. -/
def execDey (s : State) : Out := .next (s.implied.setY (s.y - 1))

end Sys2Proof.Machine
end

