-- ==== Sys2Proof/Machine/StackFlags.lean ====
section
/-!
DEFINITION. Stack operations, flag instructions and NOP (45_stack_flags_nop.md), and the undocumented NOPs (46 R400-R406).
-/

namespace Sys2Proof.Machine

/-- PHA (R370). -/
def execPha (s : State) : Out := .next (s.implied.push s.a)

/-- PHP (R371): the pushed byte has B and bit 5 set. -/
def execPhp (s : State) : Out := .next (s.implied.push (s.p.byte ||| 0x30))

/-- PLA (R372): `A <- Pull(); NZ(A)`. -/
def execPla (s : State) : Out :=
  let r := (s.implied.dummyRead (stackAddr s.sp)).pull
  .next (r.2.setA r.1)

/-- PLP (R373). -/
def execPlp (s : State) : Out := .next (s.implied.dummyRead (stackAddr s.sp)).pullFlags

/-- CLC (R374): `P.C <- 0`. -/
def execClc (s : State) : Out := .next (s.implied.withP { s.p with c := false })

/-- SEC (R375): `P.C <- 1`. -/
def execSec (s : State) : Out := .next (s.implied.withP { s.p with c := true })

/-- CLI (R376): `P.I <- 0`. -/
def execCli (s : State) : Out := .next (s.implied.withP { s.p with i := false })

/-- SEI (R377): `P.I <- 1`. -/
def execSei (s : State) : Out := .next (s.implied.withP { s.p with i := true })

/-- CLD (R378): `P.D <- 0`. -/
def execCld (s : State) : Out := .next (s.implied.withP { s.p with d := false })

/-- SED (R379): `P.D <- 1`. -/
def execSed (s : State) : Out := .next (s.implied.withP { s.p with d := true })

/-- CLV (R380): `P.V <- 0`. -/
def execClv (s : State) : Out := .next (s.implied.withP { s.p with v := false })

/-- NOP, official and undocumented (R381, 46 R400-R406): the template's reads and nothing else. -/
def execNop (_op : Byte) (o : NopOperand) (s : State) : Out :=
  match o with
  | .implied => .next s.implied
  | .read r => .next (s.readOperand r).2

end Sys2Proof.Machine
end

