-- ==== Sys2Proof/Machine/Undoc.lean ====
section
/-!
DEFINITION. The undocumented instructions but for the NOPs (46_undocumented.md): the nestest set (R410-R419), KIL (R427, R428), and the
thirteen others under `OTHER_UNDOC_POLICY` (R429-R442).
-/

namespace Sys2Proof.Machine

/-- LAX (R410): `A <- M; X <- M; NZ(M)`. -/
def execLax (m : MemMode) (s : State) : Out :=
  let r := s.readMem m
  .next ((r.2.withX r.1).setA r.1)

/-- SAX (R411): the store value is `A & X`; no flag changes. -/
def execSax (m : MemMode) (s : State) : Out := .next (s.store m (s.a &&& s.x))

/-- SBC immediate at $EB (R412): as SBC immediate. -/
def execSbcEB (i : Byte) (s : State) : Out := .next (s.addA (i ^^^ 0xFF))

/-- A shift whose result then combines with A, setting N and Z (R413-R415). -/
def shiftThen (g : Byte → Flags → Byte × Flags) (combine : Byte → Byte → Byte) : Modifier := fun v s =>
  let r := g v s.p
  (r.1, (s.withP r.2).setA (combine s.a r.1))

/-- ROR, then ADC with the carry just set (R416). -/
def rorThenAdd : Modifier := fun v s =>
  let r := rorCore v s.p
  (r.1, (s.withP r.2).addA r.1)

/-- Decrement, then compare with A (R417). -/
def decThenCompare : Modifier := fun v s => (v - 1, s.compare s.a (v - 1))

/-- Increment, then subtract from A (R418). -/
def incThenSub : Modifier := fun v s => (v + 1, s.addA ((v + 1) ^^^ 0xFF))

/-- SLO (R413): shift left, then OR into A. -/
def execSlo (m : MemMode) (s : State) : Out := .next (s.modify m (shiftThen aslCore fun a r => a ||| r))

/-- RLA (R414): rotate left, then AND into A. -/
def execRla (m : MemMode) (s : State) : Out := .next (s.modify m (shiftThen rolCore fun a r => a &&& r))

/-- SRE (R415): shift right, then exclusive OR into A. -/
def execSre (m : MemMode) (s : State) : Out := .next (s.modify m (shiftThen lsrCore fun a r => a ^^^ r))

/-- RRA (R416): rotate right, then ADC. -/
def execRra (m : MemMode) (s : State) : Out := .next (s.modify m rorThenAdd)

/-- DCP (R417): decrement, then compare with A. -/
def execDcp (m : MemMode) (s : State) : Out := .next (s.modify m decThenCompare)

/-- ISB (R418): increment, then subtract from A. -/
def execIsb (m : MemMode) (s : State) : Out := .next (s.modify m incThenSub)

/-- `jammed <- 1` (R427). -/
def State.jam (s : State) : State := { s with jammed := true }

/-- KIL (R427): the dummy read of cycle 2, then the CPU is jammed; PC stays past the opcode. -/
def execKil (_op : Byte) (s : State) : Out := .next s.implied.jam

/-- The meaning of one of the thirteen others under the machine's policy (R429): refused by its opcode, the one-byte two-cycle
NOP (R442), or its NMOS behaviour. -/
def State.otherUndoc (s : State) (op : Byte) (nmos : State) : Out :=
  match s.undocPolicy with
  | .refuse => .refused (.undocRefused op)
  | .nop1 => .next s.implied
  | .nmos => .next nmos

/-- ANC (R430): AND, then C is N. -/
def execAnc (op : Byte) (i : Byte) (s : State) : Out :=
  let t := s.setA (s.a &&& i)
  s.otherUndoc op (t.withP { t.p with c := t.p.n })

/-- ALR (R431): AND, then LSR. -/
def execAlr (i : Byte) (s : State) : Out :=
  let r := withNz (lsrCore (s.a &&& i) s.p)
  s.otherUndoc 0x4B ((s.withA r.1).withP r.2)

/-- ARR (R432): AND, then ROR with flags of its own. -/
def execArr (i : Byte) (s : State) : Out :=
  let r := arrCore s.a i s.p
  s.otherUndoc 0x6B ((s.withA r.1).withP r.2)

/-- AXS (R433): `X <- (A & X) - imm`, with the flags of that compare. -/
def execAxs (i : Byte) (s : State) : Out :=
  let r := axsCore s.a s.x i s.p
  s.otherUndoc 0xCB ((s.withX r.1).withP r.2)

/-- XAA (R434): `A <- (A | XAA_MAGIC) & X & M; NZ(A)`, with the OPEN constant (log 9). -/
def execXaa (i : Byte) (s : State) : Out := s.otherUndoc 0x8B (s.setA ((s.a ||| Config.xaaMagic) &&& s.x &&& i))

/-- LXA (R435): `v = (A | XAA_MAGIC) & M` into A and X; NZ(v) (log 9). 10 R50 and R52 leave LXA out of the instructions that write
A and X (log 29: the model follows R435). -/
def execLxa (i : Byte) (s : State) : Out :=
  let v := (s.a ||| Config.xaaMagic) &&& i
  s.otherUndoc 0xAB ((s.withX v).setA v)

/-- LAS (R436): `v = M & S` into A, X and S; NZ(v). -/
def execLas (a : Addr) (s : State) : Out :=
  let r := s.readMem (.absY a)
  let v := r.1 &&& s.sp
  s.otherUndoc 0xBB (((r.2.withX v).withSp v).setA v)

/-- The store value of SHA, SHX, SHY and TAS: the register and the base's high byte plus one (R437-R440). -/
def highStoreValue (base : Addr) (reg : Byte) : Byte := reg &&& (highByte base + 1)

/-- The address they write: on a page cross its high byte is the store value (R441, log 10). -/
def highStoreAddr (base : Addr) (idx reg : Byte) : Addr :=
  if crosses base idx then joinBytes (highStoreValue base reg) (lowByte base + idx) else indexed base idx

/-- Their template: the dummy read at the unfixed address, then the write (R208, R209, R211, R441). -/
def State.storeHigh (s : State) (base : Addr) (idx reg : Byte) : State :=
  (s.dummyRead (unfixed base idx)).memWrite (highStoreAddr base idx reg) (highStoreValue base reg)

/-- The base address SHA's operand names, and the state after the cycles that found it: the operand for absolute,Y, the
pointer for (zero-page),Y (R437). -/
def State.shaBase (s : State) : MemMode → Addr × State
  | .indY z => s.pointerY z
  | .abs a | .absX a | .absY a => (a, s)
  | .zp z | .zpX z | .zpY z | .indX z => (zpAddr z, s)

/-- The opcode byte of SHA in its two modes (R437). -/
def shaByte (m : MemMode) : Byte := if m.kind = .indY then 0x93 else 0x9F

/-- SHA (R437): the store value is `A & X & u8(h + 1)`. -/
def execSha (m : MemMode) (s : State) : Out :=
  let b := s.shaBase m
  s.otherUndoc (shaByte m) (b.2.storeHigh b.1 s.y (s.a &&& s.x))

/-- SHX (R438): the store value is `X & u8(h + 1)`, absolute,Y. -/
def execShx (a : Addr) (s : State) : Out := s.otherUndoc 0x9E (s.storeHigh a s.y s.x)

/-- SHY (R439): the store value is `Y & u8(h + 1)`, absolute,X. -/
def execShy (a : Addr) (s : State) : Out := s.otherUndoc 0x9C (s.storeHigh a s.x s.y)

/-- TAS (R440): `S <- A & X`, then the store value is `S & u8(h + 1)`, absolute,Y. -/
def execTas (a : Addr) (s : State) : Out :=
  s.otherUndoc 0x9B ((s.withSp (s.a &&& s.x)).storeHigh a s.y (s.a &&& s.x))

end Sys2Proof.Machine
end

