-- ==== Sys2Proof/Machine/Fetch.lean ====
section
/-!
DEFINITION. Fetching an instruction (30_encoding.md R150, 40_addressing.md R200), and placing one where the next fetch finds it.
-/

namespace Sys2Proof.Machine

/-- The thirteen undocumented opcodes outside the nestest set (30 R159). -/
def otherUndocOpcodes : List Byte :=
  [0x0B#8, 0x2B#8, 0x4B#8, 0x6B#8, 0x8B#8, 0x93#8, 0x9B#8, 0x9C#8, 0x9E#8, 0x9F#8, 0xAB#8, 0xBB#8, 0xCB#8]

/-- The operand bytes read, one per cycle, before the instruction's own cycles: all of them, but one for JSR, whose high byte
is read by its last cycle (44 R351), and none for the thirteen others unless the policy is `nmos` (46 R429, R442, log 24). -/
def fetchedOperands (policy : UndocPolicy) (op : Byte) : Nat :=
  if otherUndocOpcodes.contains op && policy != .nmos then 0
  else if op = 0x20 then 1
  else lengthOf op - 1

/-- The third byte of a two-byte fetch: JSR's high byte, the one its last cycle will read (log 13). -/
def State.pendingHigh (s : State) (op : Byte) : Byte := if op = 0x20 then s.jsrHigh else 0

/-- Fetch the instruction at PC: a read cycle for the opcode and for each operand byte, each stepping PC (10 R54). -/
def State.fetchInstr (s : State) : Instr × State :=
  let o := s.fetchByte
  match fetchedOperands s.undocPolicy o.1 with
  | 0 => (decodeBytes o.1 0 0, o.2)
  | 1 =>
    let b := o.2.fetchByte
    (decodeBytes o.1 b.1 (b.2.pendingHigh o.1), b.2)
  | _ =>
    let b := o.2.fetchByte
    let c := b.2.fetchByte
    (decodeBytes o.1 b.1 c.1, c.2)

/-! ### Placing an instruction -/

/-- A byte can be placed at the address: RAM, or PRG-RAM or PRG of the reference cartridge. -/
def State.canPlace (s : State) (a : Addr) : Bool :=
  if a.toNat < 0x2000 then true
  else match s.cart with
    | .nrom _ => decide (0x6000 ≤ a.toNat)
    | .external _ => false

/-- Place one byte of a program's image. -/
def State.placeByte (s : State) (a : Addr) (v : Byte) : State :=
  if a.toNat < 0x2000 then { s with ram := memSet s.ram (ramIndex a) v }
  else match s.cart with
    | .nrom n => { s with cart := .nrom (n.place a v) }
    | .external _ => s

/-- PC itself where three bytes can be placed at it, else an address in RAM. -/
def State.placeablePc (s : State) : Addr :=
  if s.canPlace s.pc && s.canPlace (s.pc + 1) && s.canPlace (s.pc + 2) then s.pc else 0x0200

/-- Nothing but the instruction at PC can be chosen at the next boundary (60 R454): no reset, jam or NMI, and no IRQ that I
does not mask. -/
def State.readyToFetch (s : State) : State :=
  let t := { s with resetPending := false, jammed := false, nmiPending := false }
  if s.irqLine && !s.p.i then
    let u := { t with apu := { s.apu with frameIrq := false, dmc := { s.apu.dmc with dmcIrq := false } } }
    if u.irqLine then { u with p := { s.p with i := true } } else u
  else t

/-- A policy under which the opcode is not refused: the given one, but `nmos` for one of the thirteen others under `refuse`. -/
def runningPolicy (policy : UndocPolicy) (op : Byte) : UndocPolicy :=
  if otherUndocOpcodes.contains op && policy == .refuse then .nmos else policy

/-- The state with the bytes of a table word where the next step fetches, and that step an instruction step (log 1). -/
def State.placeFetchWord (s : State) (nbits w : Nat) : State :=
  let t :=
    { s.readyToFetch with pc := s.placeablePc, undocPolicy := runningPolicy s.undocPolicy (tableByte nbits w 0) }
  ((t.placeByte t.pc (tableByte nbits w 0)).placeByte (t.pc + 1) (tableByte nbits w 1)).placeByte (t.pc + 2)
    (tableByte nbits w 2)

end Sys2Proof.Machine
end

