-- ==== Sys2Proof/Machine/CpuStep.lean ====
section
/-!
DEFINITION. `CpuStep` (60_exceptions.md R454): what the CPU does at an instruction boundary.
-/

namespace Sys2Proof.Machine

/-- Fetch the instruction at PC and execute it (40 R200). -/
def State.runInstruction (s : State) : Host.Outcome State Fault Refusal :=
  let f := s.fetchInstr
  exec f.1 f.2

/-- `CpuStep()` (60 R454): the reset sequence, a jam cycle (46 R427, log 25), the NMI sequence, the IRQ sequence, or the
instruction at PC. -/
def State.cpuStep (s : State) : Host.Outcome State Fault Refusal :=
  if s.resetPending then .next s.resetSequence
  else if s.jammed then .next (s.dummyRead 0xFFFF)
  else if s.nmiPending then .next s.nmiSequence
  else if s.irqLine && !s.p.i then .next s.irqSequence
  else s.runInstruction

end Sys2Proof.Machine
end

