-- ==== Sys2Proof/Machine/Step.lean ====
section
/-!
DEFINITION. One step of the machine: one `CpuStep` (60_exceptions.md R454), from one instruction boundary to the next.
-/

namespace Sys2Proof.Machine

/-- One step: one `CpuStep()` (60 R454). -/
def step (s : State) : Host.Outcome State Fault Refusal := s.cpuStep

/-- The state with the instruction of a table word where the next step fetches. -/
def State.withFetchWord (s : State) (nbits w : Nat) : State := s.placeFetchWord nbits w

end Sys2Proof.Machine
end

