-- ==== Sys2Proof/Machine/Disasm.lean ====
section
/-!
DEFINITION. The disassembly of an instruction (30_encoding.md R161, R163), the DISASM field of the trace line (60 R495).
-/

namespace Sys2Proof

/-- One hexadecimal digit. -/
def hexDigit (n : Nat) : Char :=
  ['0', '1', '2', '3', '4', '5', '6', '7', '8', '9', 'A', 'B', 'C', 'D', 'E', 'F'].getD n '0'

/-- A byte as `$nn`. -/
def byteText (b : Byte) : String := String.ofList ['$', hexDigit (b.toNat / 16), hexDigit (b.toNat % 16)]

/-- An address as `$nnnn`. -/
def addrText (a : Addr) : String :=
  String.ofList
    ['$', hexDigit (a.toNat / 0x1000), hexDigit (a.toNat / 0x100 % 16), hexDigit (a.toNat / 16 % 16), hexDigit (a.toNat % 16)]

/-- The mnemonic of the opcode table's row. -/
def Instr.mnemonic : Instr → String
  | .lda _ => "LDA"
  | .ldx _ => "LDX"
  | .ldy _ => "LDY"
  | .sta _ => "STA"
  | .stx _ => "STX"
  | .sty _ => "STY"
  | .tax => "TAX"
  | .tay => "TAY"
  | .txa => "TXA"
  | .tya => "TYA"
  | .tsx => "TSX"
  | .txs => "TXS"
  | .adc _ => "ADC"
  | .sbc _ | .sbcEB _ => "SBC"
  | .and _ => "AND"
  | .ora _ => "ORA"
  | .eor _ => "EOR"
  | .cmp _ => "CMP"
  | .cpx _ => "CPX"
  | .cpy _ => "CPY"
  | .bit _ => "BIT"
  | .asl _ => "ASL"
  | .lsr _ => "LSR"
  | .rol _ => "ROL"
  | .ror _ => "ROR"
  | .inc _ => "INC"
  | .dec _ => "DEC"
  | .inx => "INX"
  | .iny => "INY"
  | .dex => "DEX"
  | .dey => "DEY"
  | .bpl _ => "BPL"
  | .bmi _ => "BMI"
  | .bvc _ => "BVC"
  | .bvs _ => "BVS"
  | .bcc _ => "BCC"
  | .bcs _ => "BCS"
  | .bne _ => "BNE"
  | .beq _ => "BEQ"
  | .jmp _ | .jmpInd _ => "JMP"
  | .jsr _ => "JSR"
  | .rts => "RTS"
  | .rti => "RTI"
  | .brk => "BRK"
  | .pha => "PHA"
  | .php => "PHP"
  | .pla => "PLA"
  | .plp => "PLP"
  | .clc => "CLC"
  | .sec => "SEC"
  | .cli => "CLI"
  | .sei => "SEI"
  | .cld => "CLD"
  | .sed => "SED"
  | .clv => "CLV"
  | .nop _ _ => "NOP"
  | .lax _ => "LAX"
  | .sax _ => "SAX"
  | .slo _ => "SLO"
  | .rla _ => "RLA"
  | .sre _ => "SRE"
  | .rra _ => "RRA"
  | .dcp _ => "DCP"
  | .isb _ => "ISB"
  | .kil _ => "KIL"
  | .anc _ _ => "ANC"
  | .alr _ => "ALR"
  | .arr _ => "ARR"
  | .axs _ => "AXS"
  | .xaa _ => "XAA"
  | .lxa _ => "LXA"
  | .las _ => "LAS"
  | .sha _ => "SHA"
  | .shx _ => "SHX"
  | .shy _ => "SHY"
  | .tas _ => "TAS"

/-- The row is an undocumented one (30 R157-R159), which the trace marks (30 R163). -/
def Instr.undocumented : Instr → Bool
  | .nop op _ => op != 0xEA
  | .lax _ | .sax _ | .sbcEB _ | .slo _ | .rla _ | .sre _ | .rra _ | .dcp _ | .isb _ | .kil _ => true
  | .anc _ _ | .alr _ | .arr _ | .axs _ | .xaa _ | .lxa _ | .las _ | .sha _ | .shx _ | .shy _ | .tas _ => true
  | .lda _ | .ldx _ | .ldy _ | .sta _ | .stx _ | .sty _ | .tax | .tay | .txa | .tya | .tsx | .txs => false
  | .adc _ | .sbc _ | .and _ | .ora _ | .eor _ | .cmp _ | .cpx _ | .cpy _ | .bit _ => false
  | .asl _ | .lsr _ | .rol _ | .ror _ | .inc _ | .dec _ | .inx | .iny | .dex | .dey => false
  | .bpl _ | .bmi _ | .bvc _ | .bvs _ | .bcc _ | .bcs _ | .bne _ | .beq _ => false
  | .jmp _ | .jmpInd _ | .jsr _ | .rts | .rti | .brk => false
  | .pha | .php | .pla | .plp | .clc | .sec | .cli | .sei | .cld | .sed | .clv => false

/-- A memory operand by its mode (30 R161). -/
def MemMode.text : MemMode → String
  | .zp z => byteText z
  | .zpX z => byteText z ++ ",X"
  | .zpY z => byteText z ++ ",Y"
  | .abs a => addrText a
  | .absX a => addrText a ++ ",X"
  | .absY a => addrText a ++ ",Y"
  | .indX z => "(" ++ byteText z ++ ",X)"
  | .indY z => "(" ++ byteText z ++ "),Y"

/-- An immediate operand. -/
def immText (i : Byte) : String := "#" ++ byteText i

/-- A read-class operand. -/
def ReadOperand.text : ReadOperand → String
  | .imm i => immText i
  | .mem m => m.text

/-- The operand of a shift or rotate. -/
def RmwOperand.text : RmwOperand → String
  | .acc => "A"
  | .mem m => m.text

/-- The operand of an instruction whose opcode is at `pc`, empty where the mode is implied; a branch shows its target (40 R213). -/
def Instr.operandText (pc : Addr) : Instr → String
  | .lda o | .ldx o | .ldy o | .adc o | .sbc o | .and o | .ora o | .eor o | .cmp o | .cpx o | .cpy o | .bit o => o.text
  | .sta m | .stx m | .sty m | .inc m | .dec m | .lax m | .sax m | .slo m | .rla m | .sre m | .rra m | .dcp m | .isb m
  | .sha m => m.text
  | .asl o | .lsr o | .rol o | .ror o => o.text
  | .bpl r | .bmi r | .bvc r | .bvs r | .bcc r | .bcs r | .bne r | .beq r => addrText (addSigned (pc + 2) r)
  | .jmp a | .jsr a => addrText a
  | .jmpInd a => "(" ++ addrText a ++ ")"
  | .nop _ (.read o) => o.text
  | .sbcEB i | .anc _ i | .alr i | .arr i | .axs i | .xaa i | .lxa i => immText i
  | .las a | .shx a | .tas a => addrText a ++ ",Y"
  | .shy a => addrText a ++ ",X"
  | .nop _ .implied | .kil _ => ""
  | .tax | .tay | .txa | .tya | .tsx | .txs | .inx | .iny | .dex | .dey | .rts | .rti | .brk => ""
  | .pha | .php | .pla | .plp | .clc | .sec | .cli | .sei | .cld | .sed | .clv => ""

/-- The disassembly of an instruction whose opcode is at `pc`. -/
def Instr.disasm (i : Instr) (pc : Addr) : String :=
  let head := (if i.undocumented then "*" else "") ++ i.mnemonic
  let operand := i.operandText pc
  if operand = "" then head else head ++ " " ++ operand

end Sys2Proof
end

