-- ==== Sys2Proof/Machine/HostOps.lean ====
section
/-!
DEFINITION. What the host can do to the block between two frames, and what it can see (63_bus_dma_io.md R675, R685, R686,
70_reset_and_hazards.md R690, 60_exceptions.md R495). None of these is a step of the machine (log 19).
-/

namespace Sys2Proof.Machine

/-- `set_controller(p, s)` (63 R675, R686): the eight buttons of port 0 or 1. -/
def State.setController (s : State) (port1 : Bool) (buttons : Byte) : State :=
  { s with pads := if port1 then { s.pads with buttons1 := buttons } else { s.pads with buttons0 := buttons } }

/-- The buttons of both ports, as the host sets them before a frame (63 R675). -/
def State.setControllers (s : State) (buttons : Byte × Byte) : State :=
  (s.setController false buttons.1).setController true buttons.2

/-- `reset()` (70 R690): nothing happens but that the reset is pending. -/
def State.requestReset (s : State) : State := { s with resetPending := true }

/-- Steps until the PPU completes a frame, at most `fuel` of them (63 R685). -/
def stepUntilFrame (fuel : Nat) (s : State) : Host.Outcome State Fault Refusal :=
  match fuel with
  | 0 => .next s
  | n + 1 =>
    match step s with
    | .next t => if t.ppu.frameComplete then .next t else stepUntilFrame n t
    | .fault f => .fault f
    | .refused r => .refused r

/-- The number of steps in which a frame always completes: a step runs at least one cycle, so three dots, and a frame has
341 * 262 = 89342 dots (61 R531). -/
def frameSteps : Nat := 29781

/-- `frame_complete <- 0` (61 R504, 63 R685). -/
def State.clearFrame (s : State) : State := { s with ppu := { s.ppu with frameComplete := false } }

/-- `step_frame()`: clear `frame_complete`, step until the PPU sets it (63 R685), then clear it (61 R504). -/
def stepFrame (s : State) : Host.Outcome State Fault Refusal :=
  match stepUntilFrame frameSteps s.clearFrame with
  | .next t => .next t.clearFrame
  | .fault f => .fault f
  | .refused r => .refused r

/-- `frame()` (61 R555, 63 R686): the last completed frame. -/
def State.completedFrame (s : State) : Picture := s.ppu.lastFrame

/-- The fields of a trace line (60 R495); `scanline` as the format prints it. The text itself is log 22. -/
structure TraceLine where
  pc : Addr
  bytes : List Byte
  disasm : String
  a : Byte
  x : Byte
  y : Byte
  p : Byte
  sp : Byte
  scanline : Nat
  dot : Nat
  cycles : Nat
deriving DecidableEq, Repr

/-- The bytes of the instruction at PC: those its fetch is about to read, found by running the fetch ahead (log 22). JSR's third is
the one its last cycle will read; one of the thirteen others is one byte long under `nop1` (46 R442). -/
def State.traceBytes (s : State) : List Byte :=
  let o := s.fetchByte
  match fetchedOperands s.undocPolicy o.1 with
  | 0 => [o.1]
  | 1 =>
    let b := o.2.fetchByte
    if o.1 = 0x20 then [o.1, b.1, b.2.jsrHigh] else [o.1, b.1]
  | _ =>
    let b := o.2.fetchByte
    [o.1, b.1, b.2.fetchByte.1]

/-- The disassembly of the instruction at PC: a one-byte NOP for one of the thirteen others under `nop1` (46 R442). -/
def State.traceDisasm (s : State) : String :=
  if otherUndocOpcodes.contains s.fetchByte.1 && s.undocPolicy == .nop1 then "*NOP" else s.fetchInstr.1.disasm s.pc

/-- The scanline as the line prints it: the pre-render line as 261 (60 R495). -/
def Ppu.printedScanline (p : Ppu) : Nat := if p.scanline = -1 then 261 else p.scanline.toNat

/-- The boundary chooses to execute an instruction (60 R454). -/
def State.choosesInstruction (s : State) : Bool :=
  !s.resetPending && !s.jammed && !s.nmiPending && !(s.irqLine && !s.p.i)

/-- The opcode at PC is one the policy refuses (46 R429): no instruction is executed. -/
def State.refusesOpcode (s : State) : Bool := otherUndocOpcodes.contains s.fetchByte.1 && s.undocPolicy == .refuse

/-- The trace line of a boundary (60 R495): none where no instruction is executed. -/
def State.traceLine (s : State) : Option TraceLine :=
  if s.choosesInstruction && !s.refusesOpcode then
    some { pc := s.pc, bytes := s.traceBytes, disasm := s.traceDisasm, a := s.a, x := s.x, y := s.y, p := s.p.byte, sp := s.sp,
           scanline := s.ppu.printedScanline, dot := s.ppu.dot, cycles := s.cycles }
  else none

end Sys2Proof.Machine
end

