-- ==== Sys2Proof/Safety.lean ====
section
/-!
DEFINITION. The terms claims are stated in: launches, runs and their ends (70_reset_and_hazards.md R702, R703, R719, R720), the
invariant of the machine, and what an instruction leaves as it was.
-/

namespace Sys2Proof.Machine

/-! ### Launches, runs and their ends (70 R702, R703, R719, R720) -/

/-- `CONTROLLER_INPUT` (63 R675): the buttons of port 0 and port 1 in each frame. -/
abbrev ControllerInput := Nat → Byte × Byte

/-- All buttons released (70 R703). -/
def released : ControllerInput := fun _ => (0, 0)

/-- Where a run begins: a state, and the controller input of its frames. -/
structure Launch where
  start : State
  input : ControllerInput

/-- `PowerOnLaunch(C, I)` (70 R702): the power-on state of R700 with cartridge `c`, input `I` and the default policy (00 R10),
whatever the memories hold. -/
def PowerOnLaunch (c : Cart) (input : ControllerInput) (l : Launch) : Prop :=
  l.input = input ∧ c.wf = true ∧ ∃ ramInit vramInit paletteInit oamInit secOamInit,
    Memory.wf 0x800 ramInit = true ∧ Memory.wf 0x800 vramInit = true ∧ paletteWf paletteInit = true
      ∧ Memory.wf 0x100 oamInit = true ∧ Memory.wf 0x20 secOamInit = true
      ∧ l.start = State.powerOn ramInit vramInit paletteInit oamInit secOamInit c

/-- The start of a frame: the host sets its buttons, and `step_frame()` clears `frame_complete` (63 R675, R685, R686). -/
def State.startFrame (s : State) (buttons : Byte × Byte) : State := (s.setControllers buttons).clearFrame

/-- `n` steps, or the first stop among them, from a boundary at which frame `j` begins (`starts`) or is the next to begin: the
step that completes a frame ends its `step_frame()`, which clears `frame_complete` (61 R504), and the next step begins the next
frame (70 R719). -/
def runStepsFrom (input : ControllerInput) (j : Nat) (starts : Bool) (n : Nat) (s : State) :
    Host.Outcome State Fault Refusal :=
  match n with
  | 0 => .next s
  | k + 1 =>
    match step (if starts then s.startFrame (input j) else s) with
    | .next t => runStepsFrom input (if starts then j + 1 else j) t.ppu.frameComplete k t.clearFrame
    | .fault f => .fault f
    | .refused r => .refused r

/-- The first `n` steps of the run from a launch. -/
def Launch.runSteps (l : Launch) (n : Nat) : Host.Outcome State Fault Refusal := runStepsFrom l.input 0 true n l.start

/-- `k` frames from frame `j` on, or the first stop in one of them. -/
def runFramesFrom (input : ControllerInput) (j k : Nat) (s : State) : Host.Outcome State Fault Refusal :=
  match k with
  | 0 => .next s
  | n + 1 =>
    match stepFrame (s.setControllers (input j)) with
    | .next t => runFramesFrom input (j + 1) n t
    | .fault f => .fault f
    | .refused r => .refused r

/-- The first `k` frames of the run from a launch. -/
def Launch.runFrames (l : Launch) (k : Nat) : Host.Outcome State Fault Refusal := runFramesFrom l.input 0 k l.start

/-- `AutomationLaunch(C)` (70 R703): a power-on launch with all buttons released, run to the boundary after the reset sequence,
with PC then forced to $C000. -/
def AutomationLaunch (c : Cart) (l : Launch) : Prop :=
  ∃ l₀ t, PowerOnLaunch c released l₀ ∧ l₀.runSteps 1 = .next t
    ∧ l = { start := { t with pc := 0xC000 }, input := released }

/-- `EndAfterSteps(n)` (70 R719): the run from `l` ends in `t`. -/
def EndAfterSteps (n : Nat) (l : Launch) (t : State) : Prop := l.runSteps n = .next t

/-- `EndAfterFrames(k)` (70 R719). -/
def EndAfterFrames (k : Nat) (l : Launch) (t : State) : Prop := l.runFrames k = .next t

/-- The byte a program finds at an address, without a bus cycle: plain memory, or what the cartridge answers as it stands; none
for a device or for open bus. -/
def State.codeByte (s : State) (a : Addr) : Option Byte := if a.toNat < 0x4020 then s.memByte a else (s.cart.cpuRead a).1

/-- The boundary `EndAtIdle(a)` names (70 R719): at a `JMP a` onto itself with no interrupt to take, and not of a jammed CPU,
which reaches no end defined by PC (70 R720). -/
def State.atIdle (s : State) (a : Addr) : Bool :=
  !s.jammed && s.pc == a && s.codeByte a == some 0x4C && s.codeByte (a + 1) == some (lowByte a)
    && s.codeByte (a + 2) == some (highByte a) && !s.nmiPending && (s.p.i || !s.irqLine)

/-- `EndAtIdle(a)` (70 R719): `t` is the first such boundary of the run from `l`. -/
def EndAtIdle (a : Addr) (l : Launch) (t : State) : Prop :=
  ∃ n, l.runSteps n = .next t ∧ t.atIdle a = true ∧ ∀ k u, k < n → l.runSteps k = .next u → u.atIdle a = false

/-- A run that is no longer any use to a claim: the CPU is jammed (70 R720). -/
def State.stuck (s : State) : Bool := s.jammed

/-! ### The invariant -/

/-- The position is on the grid (61 R503), the sprite units are eight (61 R500), and at most eight sprites are found (61 R542). -/
def Ppu.onGrid (p : Ppu) : Bool :=
  decide (-1 ≤ p.scanline) && decide (p.scanline ≤ 260) && decide (p.dot ≤ 340) && p.units.length == 8
    && decide (p.secCount ≤ 8)

/-- The bit counter is 1..8 (62 R582); the sample registers name cartridge space and at least one byte (62 R589); and while a
byte remains or a fetch is pending, its address is in cartridge space (62 R631). -/
def Dmc.sound (d : Dmc) (pending : Bool) : Bool :=
  decide (1 ≤ d.bitsRemaining) && decide (d.bitsRemaining ≤ 8) && decide (0xC000 ≤ d.sampleAddr.toNat)
    && d.sampleLen != 0 && (decide (0x8000 ≤ d.curAddr.toNat) || (d.bytesRemaining == 0 && !pending))

/-- The DMC is sound, the noise register is never 0 (62 R617), and a restart is at most four cycles away (62 R583). -/
def Apu.sound (u : Apu) (pending : Bool) : Bool :=
  u.dmc.sound pending && u.noise.lfsr != 0 && decide (u.fcDelay ≤ 4)

/-- The invariant of the machine: every memory in canonical form, the PPU on its grid, the APU sound. -/
def State.Inv (s : State) : Prop := s.memWf = true ∧ s.ppu.onGrid = true ∧ s.apu.sound s.dma.dmcPending = true

/-! ### Frames -/

/-- The registers of the CPU (10 R50) and two of its latches (10 R66, R67). -/
structure CpuView where
  a : Byte
  x : Byte
  y : Byte
  sp : Byte
  pc : Addr
  p : Flags
  jammed : Bool
  resetPending : Bool
deriving DecidableEq, Repr

/-- What an instruction's rule speaks of. -/
def State.cpu (s : State) : CpuView :=
  { a := s.a, x := s.x, y := s.y, sp := s.sp, pc := s.pc, p := s.p, jammed := s.jammed, resetPending := s.resetPending }

/-- The part of a pulse channel that only a CPU write changes (62 R585, R591). -/
def Pulse.settings (p : Pulse) : Pulse :=
  { p with env := .powerOn, sweepReload := false, sweepDivider := 0, timerPeriod := 0, timer := 0, seq := 0, length := 0 }

/-- The part of the triangle that only a CPU write changes (62 R587, R591). -/
def Triangle.settings (t : Triangle) : Triangle :=
  { t with linCounter := 0, linReload := false, timer := 0, seq := 0, length := 0 }

/-- The part of the noise channel that only a CPU write changes (62 R588, R591). -/
def Noise.settings (n : Noise) : Noise := { n with env := .powerOn, timer := 0, lfsr := 0, length := 0 }

/-- The part of the DMC that only a CPU write changes (62 R589). -/
def Dmc.settings (d : Dmc) : Dmc :=
  { Dmc.powerOn with
    irqEnable := d.irqEnable, loop := d.loop, rateIndex := d.rateIndex, sampleAddr := d.sampleAddr, sampleLen := d.sampleLen }

/-- The part of the APU that only a CPU write changes. -/
def Apu.settings (u : Apu) : Apu :=
  { Apu.powerOn with
    pulse1 := u.pulse1.settings, pulse2 := u.pulse2.settings, tri := u.tri.settings, noise := u.noise.settings,
    dmc := u.dmc.settings, fcMode := u.fcMode, fcInhibit := u.fcInhibit }

/-- The part of the PPU that only a CPU write changes (61 R510, R511, R517, R520; 20 R113). -/
structure PpuSettings where
  ctrl : Byte
  mask : Byte
  t : BitVec 15
  fineX : BitVec 3
  ciram : Mem
  palette : List (Nat × BitVec 6)
deriving DecidableEq, Repr

/-- The PPU's settings. -/
def Ppu.settings (p : Ppu) : PpuSettings :=
  { ctrl := p.ctrl, mask := p.mask, t := p.t, fineX := p.fineX, ciram := p.ciram, palette := p.palette }

/-- The cartridge, where the model knows what it is (63 R681). -/
def Cart.known (c : Cart) : Option Nrom :=
  match c with
  | .nrom n => some n
  | .external _ => none

/-- The reference cartridge but for its PRG-RAM, which is CPU memory. -/
def Cart.settings (c : Cart) : Option Nrom := c.known.map fun n => { n with prgRam := [] }

/-- What only a CPU write to a device register changes: the devices' settings and memories, the controller strobe, and the
reference cartridge's own memory. -/
structure Programmed where
  ppu : PpuSettings
  apu : Apu
  strobe : Bool
  cart : Option Nrom
deriving DecidableEq, Repr

/-- The programmed part of the devices. -/
def State.programmed (s : State) : Programmed :=
  { ppu := s.ppu.settings, apu := s.apu.settings, strobe := s.pads.strobe, cart := s.cart.settings }

/-- Two addresses name one byte of memory: they are equal, or mirrors of one byte of internal RAM (20 R103). -/
def sameByte (a b : Addr) : Bool :=
  a == b || (decide (a.toNat < 0x2000) && decide (b.toNat < 0x2000) && ramIndex a == ramIndex b)

/-- The addresses of device registers (20 R107). -/
def deviceAddr (a : Addr) : Bool := decide (0x2000 ≤ a.toNat) && decide (a.toNat < 0x4020)

/-- A store to the address is read back there: internal RAM, or the reference cartridge's PRG-RAM (20 R101, R102, 63 R681). -/
def State.writable (s : State) (a : Addr) : Bool :=
  decide (a.toNat < 0x2000) || (s.cart.known.isSome && decide (0x6000 ≤ a.toNat) && decide (a.toNat < 0x8000))

/-- From `s` to `t` at most the bytes at the addresses of `l` were stored to: every other byte of memory reads as before; if
none of them is a device register, what a store to a device changes is as before, and so is OAM if no OAM DMA was pending;
the host's inputs are as before, and a latched NMI is not lost. -/
def StoresOnly (l : List Addr) (s t : State) : Prop :=
  (∀ a, (∀ e ∈ l, sameByte e a = false) → t.memByte a = s.memByte a)
    ∧ ((∀ e ∈ l, deviceAddr e = false) →
        t.programmed = s.programmed
          ∧ (s.dma.oamPending = false → t.dma.oamPending = false ∧ t.ppu.oam = s.ppu.oam))
    ∧ (t.undocPolicy = s.undocPolicy ∧ t.pads.buttons0 = s.pads.buttons0 ∧ t.pads.buttons1 = s.pads.buttons1)
    ∧ (s.nmiPending = true → t.nmiPending = true)

/-- No DMA is pending and the DMC has nothing left to fetch: no cycle is stolen until a program asks for one (63 R662). -/
def State.noDma (s : State) : Bool :=
  !s.dma.oamPending && !s.dma.dmcPending && s.apu.dmc.bytesRemaining == 0

/-! ### Operands, without their bus cycles -/

/-- The 16-bit pointer at `$00:z` and `$00:u8(z + 1)` (40 R210, R211): page zero is internal RAM. -/
def State.pointer (s : State) (z : Byte) : Addr := joinBytes (s.ramByte (zpAddr (z + 1))) (s.ramByte (zpAddr z))

/-- The effective address of a memory mode (40 R204-R211). -/
def State.effAddr (s : State) : MemMode → Addr
  | .zp z => joinBytes 0 z
  | .zpX z => joinBytes 0 (z + s.x)
  | .zpY z => joinBytes 0 (z + s.y)
  | .abs a => a
  | .absX a => a + s.x.setWidth 16
  | .absY a => a + s.y.setWidth 16
  | .indX z => s.pointer (z + s.x)
  | .indY z => s.pointer z + s.y.setWidth 16

/-- The operand of a read-class instruction, as its template delivers it (40 R219). -/
def State.operand (s : State) (o : ReadOperand) : Byte := (s.readOperand o).1

/-- The byte a read-modify-write template reads (40 R220). -/
def State.rmwByte (s : State) (m : MemMode) : Byte := ((s.locate m).2.memRead (s.locate m).1).1

/-- One more cycle when an index addition crosses a page (40 R215). -/
def crossCycle (base : Addr) (idx : Byte) : Nat := if 256 ≤ base.toNat % 256 + idx.toNat then 1 else 0

/-- Cycles of a read-class memory operand after the instruction's own bytes (40 R217). -/
def State.readCycles (s : State) : MemMode → Nat
  | .zp _ | .abs _ => 1
  | .zpX _ | .zpY _ => 2
  | .absX a => 1 + crossCycle a s.x
  | .absY a => 1 + crossCycle a s.y
  | .indX _ => 4
  | .indY z => 3 + crossCycle (s.pointer z) s.y

/-- Cycles of a write-class memory operand after the instruction's own bytes (40 R217). -/
def writeCycles : MemMode → Nat
  | .zp _ | .abs _ => 1
  | .zpX _ | .zpY _ | .absX _ | .absY _ => 2
  | .indX _ | .indY _ => 4

/-- Cycles of a read-class operand after the instruction's own bytes (40 R217). -/
def State.operandCycles (s : State) : ReadOperand → Nat
  | .imm _ => 0
  | .mem m => s.readCycles m

/-- From `s` to `t` are `n` cycles, where no DMA steals one (70 R716, R717). -/
def Takes (n : Nat) (s t : State) : Prop := s.noDma = true → t.cycles = s.cycles + n

/-- `t` is reached by the two writes of a read-modify-write template: the byte read, then the result `r`, both at the effective
address, whatever stands there; between them only A and P change (40 R220, 43 R320). -/
def WritesTwice (s : State) (m : MemMode) (r : Byte) (t : State) : Prop :=
  let l := s.locate m
  t = { (l.2.memRead l.1).2.memWrite l.1 (s.rmwByte m) with a := t.a, p := t.p }.memWrite l.1 r

/-! ### Devices -/

/-- `n` dots of the PPU. -/
def runDots (n : Nat) (p : Ppu) (c : Cart) : Ppu × Cart :=
  match n with
  | 0 => (p, c)
  | k + 1 => runDots k (ppuDot p c).1 (ppuDot p c).2.1

/-- The controller ports after `n` reads of one of them. -/
def Pads.afterReads (k : Pads) (port1 : Bool) (busLatch : Byte) (n : Nat) : Pads :=
  match n with
  | 0 => k
  | m + 1 => ((k.afterReads port1 busLatch m).read port1 busLatch).2

/-- `n` steps of the frame counter. -/
def Apu.frameSteps (u : Apu) (n : Nat) : Apu :=
  match n with
  | 0 => u
  | k + 1 => u.frameCounterStep.frameSteps k

end Sys2Proof.Machine
end

