-- ==== Sys2Proof/Certificates/Slice0/Obligations.lean ====
section
/-!
DEFINITION. The statements for the provers. `StoresOnly l s t` (Safety) is the frame of memory and devices: at most the bytes at
the addresses of `l` are stored to. `CpuView` is the frame of the registers: a statement gives every register after, and the
jam and reset latches. An instruction's meaning runs on the state after its own bytes were fetched, so PC is past them.
-/

open Sys2Proof Sys2Proof.Machine

/-! ### Encoding -/

/-- 30 R150-R152, R156: no bit of an encoding is dropped. -/
def Obligations.DecodeOfEncodeIsTheInstruction : Prop :=
  ∀ (i : Instr) (rest : List Byte), i.wellFormed = true → decode (encode i ++ rest) = .instr i rest

/-- 30 R150-R156: what decodes is a row of the map, and its encoding is the bytes it was read from. -/
def Obligations.EncodeOfDecodeGivesTheBytesBack : Prop :=
  ∀ (bytes rest : List Byte) (i : Instr), decode bytes = .instr i rest → i.wellFormed = true ∧ encode i ++ rest = bytes

/-- 30 R150, R154: three bytes always decode, and the opcode byte alone decides how many are taken, one to three. -/
def Obligations.EveryOpcodeByteDecodes : Prop :=
  ∀ (op b1 b2 : Byte) (rest : List Byte), ∃ i,
    decode (op :: b1 :: b2 :: rest) = .instr i ((op :: b1 :: b2 :: rest).drop (lengthOf op))
      ∧ i.length = lengthOf op ∧ 1 ≤ lengthOf op ∧ lengthOf op ≤ 3

/-- Words written out from the encodings the rules of 41-46 list. -/
def Obligations.SpecEncodingsDecodeToTheirInstructions : Prop :=
  decode [0xA9, 0x7F] = .instr (.lda (.imm 0x7F)) []
    ∧ decode [0xBD, 0x34, 0x12] = .instr (.lda (.mem (.absX 0x1234))) []
    ∧ decode [0x96, 0x10] = .instr (.stx (.zpY 0x10)) []
    ∧ decode [0x71, 0x40] = .instr (.adc (.mem (.indY 0x40))) []
    ∧ decode [0x2C, 0x02, 0x20] = .instr (.bit (.mem (.abs 0x2002))) []
    ∧ decode [0x6A] = .instr (.ror .acc) []
    ∧ decode [0xFE, 0x00, 0x03] = .instr (.inc (.absX 0x0300)) []
    ∧ decode [0xF0, 0xFE] = .instr (.beq 0xFE) []
    ∧ decode [0x6C, 0xFF, 0x02] = .instr (.jmpInd 0x02FF) []
    ∧ decode [0x20, 0x00, 0x80] = .instr (.jsr 0x8000) []
    ∧ decode [0x28] = .instr .plp []
    ∧ decode [0x3C, 0x00, 0x80] = .instr (.nop 0x3C (.read (.mem (.absX 0x8000)))) []
    ∧ decode [0xC3, 0x80] = .instr (.dcp (.indX 0x80)) []
    ∧ decode [0xB2] = .instr (.kil 0xB2) []
    ∧ decode [0x9F, 0x00, 0x05] = .instr (.sha (.absY 0x0500)) []

/-! ### The machine's step -/

/-- 40 R200, 60 R454: when nothing else is chosen at the boundary and the bytes at PC are plain memory and decode to `i`, the
step is `exec i` on the state after the fetch of those bytes, one cycle each, whose PC is past them and whose other registers
and memory are as before.
Two forms have a premise of their own: the thirteen others need the policy under which they are instructions with operands (46
R429), and JSR must not push onto its own third byte, which it reads after its pushes (44 R351).
JSR's PC is at that third byte: one less than the others'. -/
def Obligations.StepRunsTheInstructionAtPc : Prop :=
  ∀ (s : State) (bytes : List Byte) (i : Instr),
    s.resetPending = false → s.jammed = false → s.nmiPending = false → (s.irqLine && !s.p.i) = false →
    decode bytes = .instr i [] →
    (∀ k, k < bytes.length → s.memByte (s.pc + BitVec.ofNat 16 k) = bytes[k]?) →
    (∀ op, bytes.head? = some op → otherUndocOpcodes.contains op = true → s.undocPolicy = .nmos) →
    (∀ a, i = .jsr a →
      sameByte (stackAddr s.sp) (s.pc + 2) = false ∧ sameByte (stackAddr (s.sp - 1)) (s.pc + 2) = false) →
    ∃ u n, step s = exec i u ∧ StoresOnly [] s u ∧ n = (if bytes.head? = some 0x20 then 2 else bytes.length)
      ∧ u.cpu = { s.cpu with pc := s.pc + BitVec.ofNat 16 n }
      ∧ Takes n s u ∧ (s.noDma = true → u.noDma = true)

/-- 60 R454: what a boundary chooses, in order. That a jam cycle reads $FFFF is the model's choice (log 25; 46 R428). -/
def Obligations.BoundaryChoosesInOrder : Prop :=
  ∀ s : State,
    (s.resetPending = true → step s = .next s.resetSequence)
      ∧ (s.resetPending = false → s.jammed = true → step s = .next (s.dummyRead 0xFFFF))
      ∧ (s.resetPending = false → s.jammed = false → s.nmiPending = true → step s = .next s.nmiSequence)
      ∧ (s.resetPending = false → s.jammed = false → s.nmiPending = false → s.irqLine = true → s.p.i = false →
          step s = .next s.irqSequence)
      ∧ (s.resetPending = false → s.jammed = false → s.nmiPending = false → (s.irqLine = false ∨ s.p.i = true) →
          step s = exec s.fetchInstr.1 s.fetchInstr.2)

/-- 60 R450, 46 R429: a step stops only on one of the thirteen other opcodes, and only under the policy `refuse`. -/
def Obligations.StepStopsOnlyOnRefusedOpcodes : Prop :=
  ∀ s : State,
    (∃ t, step s = .next t)
      ∨ (s.undocPolicy = .refuse ∧ otherUndocOpcodes.contains s.fetchByte.1 = true
          ∧ step s = .refused (.undocRefused s.fetchByte.1))

/-- Every step keeps the invariant: memories in canonical form, the PPU on its grid (61 R503), the DMC's fetches in cartridge
space (62 R631), the noise register not 0 (62 R617). -/
def Obligations.StepKeepsTheInvariant : Prop :=
  ∀ s t : State, s.Inv → step s = .next t → t.Inv

/-- The invariant holds at reset and at every power-on whose memories are in canonical form. -/
def Obligations.ResetSatisfiesTheInvariant : Prop :=
  State.reset.Inv
    ∧ ∀ (ram vram oam secOam : Mem) (palette : List (Nat × BitVec 6)) (cart : Cart) (policy : UndocPolicy),
        Memory.wf 0x800 ram = true → Memory.wf 0x800 vram = true → Memory.wf 0x100 oam = true →
        Memory.wf 0x20 secOam = true → paletteWf palette = true → cart.wf = true →
        (State.powerOn ram vram palette oam secOam cart policy).Inv

/-- 63 R685, 70 R720: `step_frame()` returns with a frame completed, unless the policy is `refuse` and it meets one of the thirteen
other opcodes. The PPU has set `frame_complete` when it stops stepping, and it clears the flag (61 R504). -/
def Obligations.StepFrameCompletesAFrameUnlessRefused : Prop :=
  ∀ s : State, s.ppu.onGrid = true →
    (∃ t, stepUntilFrame frameSteps s.clearFrame = .next t ∧ t.ppu.frameComplete = true
        ∧ stepFrame s = .next { t with ppu := { t.ppu with frameComplete := false } })
      ∨ (s.undocPolicy = .refuse ∧ ∃ op, otherUndocOpcodes.contains op = true ∧ stepFrame s = .refused (.undocRefused op))

/-- 61 R531: from the start of a frame to the start of the next are 89342 dots, or 89341 on an odd frame with rendering on. -/
def Obligations.FrameLengthInDots : Prop :=
  ∀ (p : Ppu) (c : Cart), p.scanline = -1 → p.dot = 0 →
    let q := (runDots (if p.oddFrame && p.rendering then 89341 else 89342) p c).1
    q.scanline = -1 ∧ q.dot = 0 ∧ q.oddFrame = !p.oddFrame ∧ q.frameCount = p.frameCount + 1 ∧ q.frameComplete = true

/-! ### Reset, power-on and interrupts -/

/-- 70 R691, R692: what the reset sequence changes and keeps; where the vector is plain memory, PC is what it holds. VBL can
only be set by the dot (241, 1), which 21 dots do not reach from another line. That `oam_dma_page` is kept, as
70 R691 has it, and not cleared, as 63 R655 has it, is the model's choice (log 28). -/
def Obligations.ResetSequenceSetsTheCpuAndSilencesTheDevices : Prop :=
  ∀ s : State, s.resetPending = true → ∃ t l h,
    step s = .next t
      ∧ t.cpu = { s.cpu with sp := 0xFD, p := .ofByte 0x24, pc := joinBytes h l, jammed := false, resetPending := false }
      ∧ (∀ b, s.memByte 0xFFFC = some b → l = b) ∧ (∀ b, s.memByte 0xFFFD = some b → h = b)
      ∧ t.cycles = s.cycles + 7
      ∧ t.ram = s.ram ∧ (∀ a, t.memByte a = s.memByte a) ∧ t.ppu.oam = s.ppu.oam
      ∧ t.ppu.settings = { s.ppu.settings with ctrl := 0, mask := 0 }
      ∧ t.pads.strobe = s.pads.strobe ∧ t.pads.buttons0 = s.pads.buttons0 ∧ t.pads.buttons1 = s.pads.buttons1
      ∧ t.dma.oamPending = false ∧ t.dma.dmcPending = false
      ∧ t.apu.pulse1.enabled = false ∧ t.apu.pulse2.enabled = false ∧ t.apu.tri.enabled = false
      ∧ t.apu.noise.enabled = false ∧ t.apu.dmc.bytesRemaining = 0
      ∧ t.apu.pulse1.length = 0 ∧ t.apu.pulse2.length = 0 ∧ t.apu.tri.length = 0 ∧ t.apu.noise.length = 0
      ∧ t.apu.dmc.dmcIrq = false ∧ t.nmiPending = false ∧ t.dma.oamPage = s.dma.oamPage
      ∧ t.ppu.sprite0Hit = false ∧ t.ppu.spriteOverflow = false ∧ t.ppu.w = false ∧ t.ppu.suppressVbl = false
      ∧ t.ppu.nmiPrev = false
      ∧ (s.ppu.scanline ≠ 240 → s.ppu.scanline ≠ 241 → t.ppu.vbl = false)

/-- 70 R701 but for the APU's timers (log 2): the first instruction fetch after a power-on with the reference cartridge. That
`bus_latch` is the byte of $FFFD, as R701 has it, and not unchanged, as 10 R75 and 70 R691 have it, is the model's choice (log 30).
-/
def Obligations.PowerOnReachesTheFirstFetch : Prop :=
  ∀ (ram vram oam secOam : Mem) (palette : List (Nat × BitVec 6)) (n : Nrom) (policy : UndocPolicy), ∃ t l h,
    step (State.powerOn ram vram palette oam secOam (.nrom n) policy) = .next t
      ∧ n.cpuRead 0xFFFC = some l ∧ n.cpuRead 0xFFFD = some h
      ∧ t.a = 0 ∧ t.x = 0 ∧ t.y = 0 ∧ t.sp = 0xFD ∧ t.p.byte = 0x24 ∧ t.pc = joinBytes h l ∧ t.busLatch = h
      ∧ t.cycles = 7 ∧ t.ppu.scanline = 0 ∧ t.ppu.dot = 21 ∧ t.apu.fc = 7
      ∧ t.nmiPending = false ∧ t.resetPending = false ∧ t.jammed = false
      ∧ t.ram = ram ∧ t.ppu.ciram = vram ∧ t.ppu.palette = palette ∧ t.ppu.oam = oam ∧ t.ppu.secOam = secOam
      ∧ t.cart = .nrom n

/-- 70 R692 for the cartridge and the memories `State.reset` chooses (logs 1, 3, 6): `State.reset` is one step after power-on, but
for the timers that the seven APU steps of that sequence move and 70 R701 does not (log 2). -/
def Obligations.ResetIsOneStepAfterPowerOn : Prop :=
  step (State.powerOn [] [] [] [] [] (.nrom .empty)) = .next
    { State.reset with
      apu :=
        { State.reset.apu with
          pulse1 := { Pulse.powerOn with seq := 3 }
          pulse2 := { Pulse.powerOn with seq := 3 }
          noise := { Noise.powerOn with timer := 1, lfsr := 0x2000 }
          dmc := { Dmc.powerOn with timer := 421, bitsRemaining := 7 } } }

/-- 60 R458, R451, R460, R461: taking an NMI or an IRQ saves PC and P on the stack, B clear and bit 5 set, sets I, and goes to
the vector, in seven cycles where no DMA steals one; the NMI clears its latch, which only a new edge can set again. -/
def Obligations.InterruptEntrySavesPcAndStatus : Prop :=
  ∀ (s : State) (vec : Addr),
    s.resetPending = false → s.jammed = false →
    (s.nmiPending = true ∧ vec = 0xFFFA ∨ s.nmiPending = false ∧ s.irqLine = true ∧ s.p.i = false ∧ vec = 0xFFFE) →
    ∃ t l h,
      step s = .next t
        ∧ t.cpu = { s.cpu with sp := s.sp - 3, p := { s.p with i := true }, pc := joinBytes h l }
        ∧ (∀ b, s.memByte vec = some b → l = b) ∧ (∀ b, s.memByte (vec + 1) = some b → h = b)
        ∧ t.memByte (stackAddr s.sp) = some (highByte s.pc)
        ∧ t.memByte (stackAddr (s.sp - 1)) = some (lowByte s.pc)
        ∧ t.memByte (stackAddr (s.sp - 2)) = some (s.p.byte ||| 0x20)
        ∧ StoresOnly [stackAddr s.sp, stackAddr (s.sp - 1), stackAddr (s.sp - 2)] s.clearNmi t
        ∧ (s.ppu.ctrl.getLsbD 7 = false → t.nmiPending = false)
        ∧ Takes 7 s t

/-- 60 R458, 44 R353: an RTI right after the entry resumes the interrupted instruction with the flags and the stack as they
were. -/
def Obligations.RtiUndoesAnInterruptEntry : Prop :=
  ∀ (s : State) (vec : Addr), ∃ t, exec .rti (s.interruptSequence vec) = .next t ∧ t.cpu = s.cpu

/-- 61 R547, R546, R549: the dot (241, 1) sets VBL and, where PPUCTRL enables it and the output was low, the CPU's NMI latch;
after a read at that position it does neither. -/
def Obligations.VblDotSetsTheFlagAndTheNmiLatch : Prop :=
  ∀ s : State, s.ppu.scanline = 241 → s.ppu.dot = 1 →
    (s.ppu.suppressVbl = false →
        s.ppuDot.ppu.vbl = true
          ∧ s.ppuDot.nmiPending = (s.nmiPending || (s.ppu.ctrl.getLsbD 7 && !s.ppu.nmiPrev)))
      ∧ (s.ppu.suppressVbl = true → s.ppu.vbl = false →
        s.ppuDot.ppu.vbl = false ∧ s.ppuDot.ppu.suppressVbl = false ∧ s.ppuDot.nmiPending = s.nmiPending)

/-! ### Operands -/

/-- 40 R204-R211, R215: the effective address of every memory mode, found without storing anything. -/
def Obligations.EffectiveAddresses : Prop :=
  ∀ (s : State) (m : MemMode),
    (s.locate m).1 = s.effAddr m ∧ (s.locate m).2.cpu = s.cpu ∧ StoresOnly [] s (s.locate m).2

/-- 40 R203-R211, R219, R220: the operand of a read-class instruction is the immediate byte, or the byte at the effective
address where that is plain memory; so is the byte a read-modify-write template reads. -/
def Obligations.OperandsAreReadAtTheEffectiveAddress : Prop :=
  ∀ s : State,
    (∀ i, s.operand (.imm i) = i)
      ∧ ∀ (m : MemMode) (b : Byte), s.memByte (s.effAddr m) = some b → s.operand (.mem m) = b ∧ s.rmwByte m = b

/-- 40 R217 after the fetch of the instruction's own bytes, where no DMA steals a cycle. -/
def Obligations.CyclesOfTheAddressingModes : Prop :=
  ∀ s : State, s.noDma = true →
    (∀ m : MemMode, (s.readMem m).2.cycles = s.cycles + s.readCycles m)
      ∧ (∀ (m : MemMode) (v : Byte), (s.store m v).cycles = s.cycles + writeCycles m)
      ∧ (∀ (m : MemMode) (f : Modifier),
          (∃ g, f = onFlags g) ∨ (∃ g h, f = shiftThen g h) ∨ f = rorThenAdd ∨ f = decThenCompare ∨ f = incThenSub →
          (s.modify m f).cycles = s.cycles + writeCycles m + 2)

/-! ### Loads, stores and transfers (41) -/

/-- 41 R250-R252, 46 R410. -/
def Obligations.LoadsSetTheRegisterAndNZ : Prop :=
  ∀ s : State,
    (∀ o, ∃ t, exec (.lda o) s = .next t ∧ StoresOnly [] s t ∧ Takes (s.operandCycles o) s t
      ∧ t.cpu = { s.cpu with
          a := s.operand o, p := { s.p with n := (s.operand o).getLsbD 7, z := s.operand o == 0 } })
    ∧ (∀ o, ∃ t, exec (.ldx o) s = .next t ∧ StoresOnly [] s t ∧ Takes (s.operandCycles o) s t
      ∧ t.cpu = { s.cpu with
          x := s.operand o, p := { s.p with n := (s.operand o).getLsbD 7, z := s.operand o == 0 } })
    ∧ (∀ o, ∃ t, exec (.ldy o) s = .next t ∧ StoresOnly [] s t ∧ Takes (s.operandCycles o) s t
      ∧ t.cpu = { s.cpu with
          y := s.operand o, p := { s.p with n := (s.operand o).getLsbD 7, z := s.operand o == 0 } })
    ∧ (∀ m, ∃ t, exec (.lax m) s = .next t ∧ StoresOnly [] s t ∧ Takes (s.readCycles m) s t
      ∧ t.cpu = { s.cpu with
          a := s.operand (.mem m), x := s.operand (.mem m),
          p := { s.p with n := (s.operand (.mem m)).getLsbD 7, z := s.operand (.mem m) == 0 } })

/-- 41 R253-R255, R263, 46 R411: the store value at the effective address, and no register or flag changed. Whatever stands at
that address, a device register too, is written once, in the last cycle, and not read. -/
def Obligations.StoresWriteTheRegisterOnly : Prop :=
  ∀ (s : State) (m : MemMode),
    (∃ t, exec (.sta m) s = .next t ∧ t.cpu = s.cpu ∧ StoresOnly [(s.locate m).1] s t ∧ Takes (writeCycles m) s t
      ∧ (s.writable (s.locate m).1 = true → t.memByte (s.locate m).1 = some s.a))
    ∧ (∃ t, exec (.stx m) s = .next t ∧ t.cpu = s.cpu ∧ StoresOnly [(s.locate m).1] s t ∧ Takes (writeCycles m) s t
      ∧ (s.writable (s.locate m).1 = true → t.memByte (s.locate m).1 = some s.x))
    ∧ (∃ t, exec (.sty m) s = .next t ∧ t.cpu = s.cpu ∧ StoresOnly [(s.locate m).1] s t ∧ Takes (writeCycles m) s t
      ∧ (s.writable (s.locate m).1 = true → t.memByte (s.locate m).1 = some s.y))
    ∧ (∃ t, exec (.sax m) s = .next t ∧ t.cpu = s.cpu ∧ StoresOnly [(s.locate m).1] s t ∧ Takes (writeCycles m) s t
      ∧ (s.writable (s.locate m).1 = true → t.memByte (s.locate m).1 = some (s.a &&& s.x)))
    ∧ (∀ i v, (i, v) ∈ [(Instr.sta m, s.a), (.stx m, s.x), (.sty m, s.y), (.sax m, s.a &&& s.x)] →
        exec i s = .next (((s.locate m).2.busWrite (s.locate m).1 v).latch v).tick)

/-- 41 R256-R261: TXS alone sets no flag. -/
def Obligations.TransfersCopyARegister : Prop :=
  ∀ s : State,
    (∃ t, exec .tax s = .next t ∧ StoresOnly [] s t ∧ Takes 1 s t
      ∧ t.cpu = { s.cpu with x := s.a, p := { s.p with n := s.a.getLsbD 7, z := s.a == 0 } })
    ∧ (∃ t, exec .tay s = .next t ∧ StoresOnly [] s t ∧ Takes 1 s t
      ∧ t.cpu = { s.cpu with y := s.a, p := { s.p with n := s.a.getLsbD 7, z := s.a == 0 } })
    ∧ (∃ t, exec .txa s = .next t ∧ StoresOnly [] s t ∧ Takes 1 s t
      ∧ t.cpu = { s.cpu with a := s.x, p := { s.p with n := s.x.getLsbD 7, z := s.x == 0 } })
    ∧ (∃ t, exec .tya s = .next t ∧ StoresOnly [] s t ∧ Takes 1 s t
      ∧ t.cpu = { s.cpu with a := s.y, p := { s.p with n := s.y.getLsbD 7, z := s.y == 0 } })
    ∧ (∃ t, exec .tsx s = .next t ∧ StoresOnly [] s t ∧ Takes 1 s t
      ∧ t.cpu = { s.cpu with x := s.sp, p := { s.p with n := s.sp.getLsbD 7, z := s.sp == 0 } })
    ∧ (∃ t, exec .txs s = .next t ∧ StoresOnly [] s t ∧ Takes 1 s t ∧ t.cpu = { s.cpu with sp := s.x })

/-! ### Arithmetic, logic and compares (42) -/

/-- 42 R280, R282: the 9-bit sum of A, M and C; V exactly when A and M have one sign and the result the other. D has no effect. -/
def Obligations.AdcAddsWithCarry : Prop :=
  ∀ (s : State) (o : ReadOperand), ∃ t, exec (.adc o) s = .next t ∧ StoresOnly [] s t ∧ Takes (s.operandCycles o) s t
    ∧ t.a.toNat = (s.a.toNat + (s.operand o).toNat + s.p.c.toNat) % 256
    ∧ t.cpu = { s.cpu with
        a := t.a
        p := { s.p with
          n := t.a.getLsbD 7
          v := s.a.getLsbD 7 == (s.operand o).getLsbD 7 && t.a.getLsbD 7 != s.a.getLsbD 7
          z := t.a == 0
          c := decide (255 < s.a.toNat + (s.operand o).toNat + s.p.c.toNat) } }

/-- 42 R283, 46 R412: `A - M - (1 - C)`; C is 1 when no borrow occurred; V when A and M have different signs and the result's
differs from A's. Opcode $EB is the same instruction. -/
def Obligations.SbcSubtractsWithBorrow : Prop :=
  ∀ (s : State) (o : ReadOperand), ∃ t, exec (.sbc o) s = .next t ∧ StoresOnly [] s t ∧ Takes (s.operandCycles o) s t
    ∧ t.cpu = { s.cpu with
        a := s.a - s.operand o - (if s.p.c then 0 else 1)
        p := { s.p with
          n := t.a.getLsbD 7
          v := s.a.getLsbD 7 != (s.operand o).getLsbD 7 && t.a.getLsbD 7 != s.a.getLsbD 7
          z := t.a == 0
          c := decide ((s.operand o).toNat + (!s.p.c).toNat ≤ s.a.toNat) } }
    ∧ ∀ i, o = .imm i → exec (.sbcEB i) s = .next t

/-- 42 R284-R286. -/
def Obligations.LogicOpsCombineIntoA : Prop :=
  ∀ (s : State) (o : ReadOperand),
    (∃ t, exec (.and o) s = .next t ∧ StoresOnly [] s t ∧ Takes (s.operandCycles o) s t
      ∧ t.cpu = { s.cpu with a := s.a &&& s.operand o, p := { s.p with n := t.a.getLsbD 7, z := t.a == 0 } })
    ∧ (∃ t, exec (.ora o) s = .next t ∧ StoresOnly [] s t ∧ Takes (s.operandCycles o) s t
      ∧ t.cpu = { s.cpu with a := s.a ||| s.operand o, p := { s.p with n := t.a.getLsbD 7, z := t.a == 0 } })
    ∧ (∃ t, exec (.eor o) s = .next t ∧ StoresOnly [] s t ∧ Takes (s.operandCycles o) s t
      ∧ t.cpu = { s.cpu with a := s.a ^^^ s.operand o, p := { s.p with n := t.a.getLsbD 7, z := t.a == 0 } })

/-- 42 R281, R287-R289: N and Z of the difference, C when the register is at least the operand (unsigned), nothing else. -/
def Obligations.ComparesSetNZC : Prop :=
  ∀ (s : State) (o : ReadOperand),
    (∃ t, exec (.cmp o) s = .next t ∧ StoresOnly [] s t ∧ Takes (s.operandCycles o) s t
      ∧ t.cpu = { s.cpu with
          p := { s.p with
            n := (s.a - s.operand o).getLsbD 7, z := s.a == s.operand o
            c := decide ((s.operand o).toNat ≤ s.a.toNat) } })
    ∧ (∃ t, exec (.cpx o) s = .next t ∧ StoresOnly [] s t ∧ Takes (s.operandCycles o) s t
      ∧ t.cpu = { s.cpu with
          p := { s.p with
            n := (s.x - s.operand o).getLsbD 7, z := s.x == s.operand o
            c := decide ((s.operand o).toNat ≤ s.x.toNat) } })
    ∧ (∃ t, exec (.cpy o) s = .next t ∧ StoresOnly [] s t ∧ Takes (s.operandCycles o) s t
      ∧ t.cpu = { s.cpu with
          p := { s.p with
            n := (s.y - s.operand o).getLsbD 7, z := s.y == s.operand o
            c := decide ((s.operand o).toNat ≤ s.y.toNat) } })

/-- 42 R290: N and V from the operand's bits 7 and 6, Z from `A & M`. -/
def Obligations.BitTestsTheOperand : Prop :=
  ∀ (s : State) (o : ReadOperand), ∃ t, exec (.bit o) s = .next t ∧ StoresOnly [] s t ∧ Takes (s.operandCycles o) s t
    ∧ t.cpu = { s.cpu with
        p := { s.p with n := (s.operand o).getLsbD 7, v := (s.operand o).getLsbD 6, z := s.a &&& s.operand o == 0 } }

/-! ### Shifts, rotates, increments and decrements (43) -/

/-- 43 R310-R315, 40 R220: the memory forms; the byte read is written back, transformed, written again, and decides the flags. -/
def Obligations.MemoryShiftsAndIncrements : Prop :=
  ∀ (s : State) (m : MemMode),
    (∃ t r, exec (.asl (.mem m)) s = .next t ∧ r = s.rmwByte m <<< 1 ∧ StoresOnly [(s.locate m).1] s t
      ∧ WritesTwice s m r t ∧ Takes (writeCycles m + 2) s t
      ∧ (s.writable (s.locate m).1 = true → t.memByte (s.locate m).1 = some r)
      ∧ t.cpu = { s.cpu with p := { s.p with n := r.getLsbD 7, z := r == 0, c := (s.rmwByte m).getLsbD 7 } })
    ∧ (∃ t r, exec (.lsr (.mem m)) s = .next t ∧ r = s.rmwByte m >>> 1 ∧ StoresOnly [(s.locate m).1] s t
      ∧ WritesTwice s m r t ∧ Takes (writeCycles m + 2) s t
      ∧ (s.writable (s.locate m).1 = true → t.memByte (s.locate m).1 = some r)
      ∧ t.cpu = { s.cpu with p := { s.p with n := false, z := r == 0, c := (s.rmwByte m).getLsbD 0 } })
    ∧ (∃ t r, exec (.rol (.mem m)) s = .next t ∧ r = (s.rmwByte m <<< 1 ||| if s.p.c then 1 else 0)
      ∧ StoresOnly [(s.locate m).1] s t
      ∧ WritesTwice s m r t ∧ Takes (writeCycles m + 2) s t
      ∧ (s.writable (s.locate m).1 = true → t.memByte (s.locate m).1 = some r)
      ∧ t.cpu = { s.cpu with p := { s.p with n := r.getLsbD 7, z := r == 0, c := (s.rmwByte m).getLsbD 7 } })
    ∧ (∃ t r, exec (.ror (.mem m)) s = .next t ∧ r = (s.rmwByte m >>> 1 ||| if s.p.c then 0x80 else 0)
      ∧ StoresOnly [(s.locate m).1] s t
      ∧ WritesTwice s m r t ∧ Takes (writeCycles m + 2) s t
      ∧ (s.writable (s.locate m).1 = true → t.memByte (s.locate m).1 = some r)
      ∧ t.cpu = { s.cpu with p := { s.p with n := s.p.c, z := r == 0, c := (s.rmwByte m).getLsbD 0 } })
    ∧ (∃ t r, exec (.inc m) s = .next t ∧ r = s.rmwByte m + 1 ∧ StoresOnly [(s.locate m).1] s t
      ∧ WritesTwice s m r t ∧ Takes (writeCycles m + 2) s t
      ∧ (s.writable (s.locate m).1 = true → t.memByte (s.locate m).1 = some r)
      ∧ t.cpu = { s.cpu with p := { s.p with n := r.getLsbD 7, z := r == 0 } })
    ∧ (∃ t r, exec (.dec m) s = .next t ∧ r = s.rmwByte m - 1 ∧ StoresOnly [(s.locate m).1] s t
      ∧ WritesTwice s m r t ∧ Takes (writeCycles m + 2) s t
      ∧ (s.writable (s.locate m).1 = true → t.memByte (s.locate m).1 = some r)
      ∧ t.cpu = { s.cpu with p := { s.p with n := r.getLsbD 7, z := r == 0 } })

/-- 43 R310-R313, 40 R202: the accumulator forms. -/
def Obligations.AccumulatorShifts : Prop :=
  ∀ s : State,
    (∃ t, exec (.asl .acc) s = .next t ∧ StoresOnly [] s t ∧ Takes 1 s t
      ∧ t.cpu = { s.cpu with
          a := s.a <<< 1, p := { s.p with n := t.a.getLsbD 7, z := t.a == 0, c := s.a.getLsbD 7 } })
    ∧ (∃ t, exec (.lsr .acc) s = .next t ∧ StoresOnly [] s t ∧ Takes 1 s t
      ∧ t.cpu = { s.cpu with a := s.a >>> 1, p := { s.p with n := false, z := t.a == 0, c := s.a.getLsbD 0 } })
    ∧ (∃ t, exec (.rol .acc) s = .next t ∧ StoresOnly [] s t ∧ Takes 1 s t
      ∧ t.cpu = { s.cpu with
          a := s.a <<< 1 ||| (if s.p.c then 1 else 0)
          p := { s.p with n := t.a.getLsbD 7, z := t.a == 0, c := s.a.getLsbD 7 } })
    ∧ (∃ t, exec (.ror .acc) s = .next t ∧ StoresOnly [] s t ∧ Takes 1 s t
      ∧ t.cpu = { s.cpu with
          a := s.a >>> 1 ||| (if s.p.c then 0x80 else 0)
          p := { s.p with n := s.p.c, z := t.a == 0, c := s.a.getLsbD 0 } })

/-- 43 R316-R319: modulo 256, C and V unchanged. -/
def Obligations.RegisterIncrementsAndDecrements : Prop :=
  ∀ s : State,
    (∃ t, exec .inx s = .next t ∧ StoresOnly [] s t ∧ Takes 1 s t
      ∧ t.cpu = { s.cpu with x := s.x + 1, p := { s.p with n := t.x.getLsbD 7, z := s.x == 0xFF } })
    ∧ (∃ t, exec .iny s = .next t ∧ StoresOnly [] s t ∧ Takes 1 s t
      ∧ t.cpu = { s.cpu with y := s.y + 1, p := { s.p with n := t.y.getLsbD 7, z := s.y == 0xFF } })
    ∧ (∃ t, exec .dex s = .next t ∧ StoresOnly [] s t ∧ Takes 1 s t
      ∧ t.cpu = { s.cpu with x := s.x - 1, p := { s.p with n := t.x.getLsbD 7, z := s.x == 1 } })
    ∧ (∃ t, exec .dey s = .next t ∧ StoresOnly [] s t ∧ Takes 1 s t
      ∧ t.cpu = { s.cpu with y := s.y - 1, p := { s.p with n := t.y.getLsbD 7, z := s.y == 1 } })

/-! ### Control flow (44) -/

/-- 44 R340-R348, 40 R213: each branch tests its flag; PC is the target or stays past the branch; no flag is written; and,
where no DMA steals a cycle, a taken branch takes one cycle more, or two into another page. -/
def Obligations.BranchesTestOneFlag : Prop :=
  ∀ (s : State) (r : Byte) (i : Instr) (taken : Bool),
    (i, taken) ∈ [(Instr.bpl r, !s.p.n), (.bmi r, s.p.n), (.bvc r, !s.p.v), (.bvs r, s.p.v), (.bcc r, !s.p.c),
      (.bcs r, s.p.c), (.bne r, !s.p.z), (.beq r, s.p.z)] →
    ∃ t, exec i s = .next t ∧ StoresOnly [] s t
      ∧ t.cpu = { s.cpu with pc := if taken then s.pc + r.signExtend 16 else s.pc }
      ∧ Takes (if taken then (if (s.pc + r.signExtend 16).toNat / 256 = s.pc.toNat / 256 then 1 else 2) else 0) s t

/-- 44 R349, R350: JMP, and JMP indirect, whose pointer's second byte is read from the page of the first. -/
def Obligations.JumpsSetPc : Prop :=
  ∀ (s : State) (a : Addr),
    (∃ t, exec (.jmp a) s = .next t ∧ StoresOnly [] s t ∧ Takes 0 s t ∧ t.cpu = { s.cpu with pc := a })
    ∧ ∃ t l h, exec (.jmpInd a) s = .next t ∧ StoresOnly [] s t ∧ Takes 2 s t ∧ t.cpu = { s.cpu with pc := joinBytes h l }
        ∧ (∀ b, s.memByte a = some b → l = b)
        ∧ (∀ b, s.memByte (joinBytes (highByte a) (lowByte a + 1)) = some b → h = b)

/-- 44 R351, R352: JSR pushes the address of its own last byte, high byte first, and RTS pulls it and adds one. -/
def Obligations.SubroutineCallAndReturn : Prop :=
  ∀ s : State,
    (∀ a, ∃ t, exec (.jsr a) s = .next t ∧ t.cpu = { s.cpu with pc := a, sp := s.sp - 2 }
      ∧ t.memByte (stackAddr s.sp) = some (highByte s.pc) ∧ t.memByte (stackAddr (s.sp - 1)) = some (lowByte s.pc)
      ∧ StoresOnly [stackAddr s.sp, stackAddr (s.sp - 1)] s t ∧ Takes 4 s t)
    ∧ ∃ t, exec .rts s = .next t ∧ StoresOnly [] s t ∧ Takes 5 s t
        ∧ t.cpu = { s.cpu with
            sp := s.sp + 2
            pc := joinBytes (s.ramByte (stackAddr (s.sp + 2))) (s.ramByte (stackAddr (s.sp + 1))) + 1 }

/-- 44 R353: RTI pulls P, bits 5 and 4 discarded, then PC, low byte first. -/
def Obligations.RtiPullsStatusAndPc : Prop :=
  ∀ s : State, ∃ t b, exec .rti s = .next t ∧ StoresOnly [] s t ∧ Takes 5 s t
    ∧ b = s.ramByte (stackAddr (s.sp + 1))
    ∧ t.cpu = { s.cpu with
        sp := s.sp + 3
        pc := joinBytes (s.ramByte (stackAddr (s.sp + 3))) (s.ramByte (stackAddr (s.sp + 2)))
        p := { n := b.getLsbD 7, v := b.getLsbD 6, d := b.getLsbD 3, i := b.getLsbD 2, z := b.getLsbD 1,
               c := b.getLsbD 0 } }

/-- 44 R354, 60 R463: BRK pushes the address two past its opcode and P with B and bit 5 set, sets I, whatever I was, and goes
through the IRQ vector. -/
def Obligations.BrkPushesAndVectors : Prop :=
  ∀ s : State, ∃ t l h,
    exec .brk s = .next t
      ∧ t.cpu = { s.cpu with sp := s.sp - 3, p := { s.p with i := true }, pc := joinBytes h l }
      ∧ (∀ b, s.memByte 0xFFFE = some b → l = b) ∧ (∀ b, s.memByte 0xFFFF = some b → h = b)
      ∧ t.memByte (stackAddr s.sp) = some (highByte (s.pc + 1))
      ∧ t.memByte (stackAddr (s.sp - 1)) = some (lowByte (s.pc + 1))
      ∧ t.memByte (stackAddr (s.sp - 2)) = some (s.p.byte ||| 0x30)
      ∧ StoresOnly [stackAddr s.sp, stackAddr (s.sp - 1), stackAddr (s.sp - 2)] s t ∧ Takes 6 s t

/-! ### Stack, flags and NOP (45), KIL (46) -/

/-- 45 R370-R373, R382, 00 R18: a push writes `$0100 + S` and decrements S; a pull increments S and reads `$0100 + S`; S wraps
modulo 256. -/
def Obligations.StackInstructionsUseTheStackPage : Prop :=
  ∀ s : State,
    (∃ t, exec .pha s = .next t ∧ t.cpu = { s.cpu with sp := s.sp - 1 }
      ∧ t.memByte (stackAddr s.sp) = some s.a ∧ StoresOnly [stackAddr s.sp] s t ∧ Takes 2 s t)
    ∧ (∃ t b, exec .php s = .next t ∧ t.cpu = { s.cpu with sp := s.sp - 1 }
      ∧ t.memByte (stackAddr s.sp) = some b ∧ StoresOnly [stackAddr s.sp] s t ∧ Takes 2 s t
      ∧ b.getLsbD 7 = s.p.n ∧ b.getLsbD 6 = s.p.v ∧ b.getLsbD 5 = true ∧ b.getLsbD 4 = true ∧ b.getLsbD 3 = s.p.d
      ∧ b.getLsbD 2 = s.p.i ∧ b.getLsbD 1 = s.p.z ∧ b.getLsbD 0 = s.p.c)
    ∧ ∃ b, b = s.ramByte (stackAddr (s.sp + 1))
      ∧ (∃ t, exec .pla s = .next t ∧ StoresOnly [] s t ∧ Takes 3 s t
        ∧ t.cpu = { s.cpu with sp := s.sp + 1, a := b, p := { s.p with n := b.getLsbD 7, z := b == 0 } })
      ∧ (∃ t, exec .plp s = .next t ∧ StoresOnly [] s t ∧ Takes 3 s t
        ∧ t.cpu = { s.cpu with
            sp := s.sp + 1
            p := { n := b.getLsbD 7, v := b.getLsbD 6, d := b.getLsbD 3, i := b.getLsbD 2, z := b.getLsbD 1,
                   c := b.getLsbD 0 } })

/-- 45 R374-R380: one flag each. -/
def Obligations.FlagInstructionsWriteOneFlag : Prop :=
  ∀ (s : State) (i : Instr) (p : Flags),
    (i, p) ∈ [(Instr.clc, { s.p with c := false }), (.sec, { s.p with c := true }), (.cli, { s.p with i := false }),
      (.sei, { s.p with i := true }), (.cld, { s.p with d := false }), (.sed, { s.p with d := true }),
      (.clv, { s.p with v := false })] →
    ∃ t, exec i s = .next t ∧ StoresOnly [] s t ∧ Takes 1 s t ∧ t.cpu = { s.cpu with p := p }

/-- 45 R381, 46 R400-R406: no NOP writes a register, a flag or memory; its cycles are those of its template. -/
def Obligations.NopsChangeNothing : Prop :=
  ∀ (s : State) (op : Byte) (o : NopOperand), ∃ t, exec (.nop op o) s = .next t ∧ StoresOnly [] s t ∧ t.cpu = s.cpu
    ∧ Takes (match o with | .implied => 1 | .read r => s.operandCycles r) s t

/-- 46 R427: KIL jams the CPU, and changes no register; PC stays past the opcode. A jammed CPU fetches nothing and changes no
register and no memory, while time passes, until a reset. -/
def Obligations.KilJamsTheCpuUntilReset : Prop :=
  ∀ s : State,
    (∀ op, ∃ t, exec (.kil op) s = .next t ∧ StoresOnly [] s t ∧ t.cpu = { s.cpu with jammed := true } ∧ Takes 1 s t)
    ∧ (s.jammed = true → s.resetPending = false →
        ∃ t, step s = .next t ∧ t.cpu = s.cpu ∧ StoresOnly [] s t ∧ s.cycles < t.cycles ∧ Takes 1 s t)

/-! ### The undocumented instructions (46) -/

/-- 46 R413-R415, 40 R220: shift or rotate memory, then combine with A. -/
def Obligations.ShiftAndCombine : Prop :=
  ∀ (s : State) (m : MemMode),
    (∃ t r, exec (.slo m) s = .next t ∧ r = s.rmwByte m <<< 1 ∧ StoresOnly [(s.locate m).1] s t
      ∧ WritesTwice s m r t ∧ Takes (writeCycles m + 2) s t
      ∧ (s.writable (s.locate m).1 = true → t.memByte (s.locate m).1 = some r)
      ∧ t.cpu = { s.cpu with
          a := s.a ||| r, p := { s.p with n := t.a.getLsbD 7, z := t.a == 0, c := (s.rmwByte m).getLsbD 7 } })
    ∧ (∃ t r, exec (.rla m) s = .next t ∧ r = (s.rmwByte m <<< 1 ||| if s.p.c then 1 else 0)
      ∧ StoresOnly [(s.locate m).1] s t
      ∧ WritesTwice s m r t ∧ Takes (writeCycles m + 2) s t
      ∧ (s.writable (s.locate m).1 = true → t.memByte (s.locate m).1 = some r)
      ∧ t.cpu = { s.cpu with
          a := s.a &&& r, p := { s.p with n := t.a.getLsbD 7, z := t.a == 0, c := (s.rmwByte m).getLsbD 7 } })
    ∧ (∃ t r, exec (.sre m) s = .next t ∧ r = s.rmwByte m >>> 1 ∧ StoresOnly [(s.locate m).1] s t
      ∧ WritesTwice s m r t ∧ Takes (writeCycles m + 2) s t
      ∧ (s.writable (s.locate m).1 = true → t.memByte (s.locate m).1 = some r)
      ∧ t.cpu = { s.cpu with
          a := s.a ^^^ r, p := { s.p with n := t.a.getLsbD 7, z := t.a == 0, c := (s.rmwByte m).getLsbD 0 } })

/-- 46 R416-R418: rotate right then add with the carry just shifted out; decrement then compare; increment then subtract. -/
def Obligations.ModifyAndCompute : Prop :=
  ∀ (s : State) (m : MemMode),
    (∃ t r, exec (.rra m) s = .next t ∧ r = (s.rmwByte m >>> 1 ||| if s.p.c then 0x80 else 0)
      ∧ StoresOnly [(s.locate m).1] s t
      ∧ WritesTwice s m r t ∧ Takes (writeCycles m + 2) s t
      ∧ (s.writable (s.locate m).1 = true → t.memByte (s.locate m).1 = some r)
      ∧ t.a.toNat = (s.a.toNat + r.toNat + ((s.rmwByte m).getLsbD 0).toNat) % 256
      ∧ t.cpu = { s.cpu with
          a := t.a
          p := { s.p with
            n := t.a.getLsbD 7
            v := s.a.getLsbD 7 == r.getLsbD 7 && t.a.getLsbD 7 != s.a.getLsbD 7
            z := t.a == 0
            c := decide (255 < s.a.toNat + r.toNat + ((s.rmwByte m).getLsbD 0).toNat) } })
    ∧ (∃ t r, exec (.dcp m) s = .next t ∧ r = s.rmwByte m - 1 ∧ StoresOnly [(s.locate m).1] s t
      ∧ WritesTwice s m r t ∧ Takes (writeCycles m + 2) s t
      ∧ (s.writable (s.locate m).1 = true → t.memByte (s.locate m).1 = some r)
      ∧ t.cpu = { s.cpu with
          p := { s.p with n := (s.a - r).getLsbD 7, z := s.a == r, c := decide (r.toNat ≤ s.a.toNat) } })
    ∧ (∃ t r, exec (.isb m) s = .next t ∧ r = s.rmwByte m + 1 ∧ StoresOnly [(s.locate m).1] s t
      ∧ WritesTwice s m r t ∧ Takes (writeCycles m + 2) s t
      ∧ (s.writable (s.locate m).1 = true → t.memByte (s.locate m).1 = some r)
      ∧ t.cpu = { s.cpu with
          a := s.a - r - (if s.p.c then 0 else 1)
          p := { s.p with
            n := t.a.getLsbD 7
            v := s.a.getLsbD 7 != r.getLsbD 7 && t.a.getLsbD 7 != s.a.getLsbD 7
            z := t.a == 0
            c := decide (r.toNat + (!s.p.c).toNat ≤ s.a.toNat) } })

/-- 46 R429-R436 under the policy `nmos`: the immediate forms and LAS. XAA and LXA hold whatever the free constant (log 9). That
LXA writes X, ARR V, and ANC, ALR, ARR and AXS C, which the lists of 10 R50, R52, R59 and R63 omit, is the model's choice (log 29). -/
def Obligations.OtherReadInstructionsUnderNmos : Prop :=
  ∀ (s : State) (i : Byte), s.undocPolicy = .nmos →
    (∀ op, ∃ t, exec (.anc op i) s = .next t ∧ StoresOnly [] s t ∧ Takes 0 s t
      ∧ t.cpu = { s.cpu with
          a := s.a &&& i, p := { s.p with n := t.a.getLsbD 7, z := t.a == 0, c := t.a.getLsbD 7 } })
    ∧ (∃ t, exec (.alr i) s = .next t ∧ StoresOnly [] s t ∧ Takes 0 s t
      ∧ t.cpu = { s.cpu with
          a := (s.a &&& i) >>> 1, p := { s.p with n := false, z := t.a == 0, c := (s.a &&& i).getLsbD 0 } })
    ∧ (∃ t, exec (.arr i) s = .next t ∧ StoresOnly [] s t ∧ Takes 0 s t
      ∧ t.cpu = { s.cpu with
          a := (s.a &&& i) >>> 1 ||| (if s.p.c then 0x80 else 0)
          p := { s.p with n := s.p.c, z := t.a == 0, c := t.a.getLsbD 6, v := t.a.getLsbD 6 != t.a.getLsbD 5 } })
    ∧ (∃ t, exec (.axs i) s = .next t ∧ StoresOnly [] s t ∧ Takes 0 s t
      ∧ t.cpu = { s.cpu with
          x := (s.a &&& s.x) - i
          p := { s.p with n := t.x.getLsbD 7, z := s.a &&& s.x == i, c := decide (i.toNat ≤ (s.a &&& s.x).toNat) } })
    ∧ (∃ t, exec (.xaa i) s = .next t ∧ StoresOnly [] s t ∧ Takes 0 s t
      ∧ t.cpu = { s.cpu with
          a := (s.a ||| Config.xaaMagic) &&& s.x &&& i, p := { s.p with n := t.a.getLsbD 7, z := t.a == 0 } })
    ∧ (∃ t, exec (.lxa i) s = .next t ∧ StoresOnly [] s t ∧ Takes 0 s t
      ∧ t.cpu = { s.cpu with
          a := (s.a ||| Config.xaaMagic) &&& i, x := t.a, p := { s.p with n := t.a.getLsbD 7, z := t.a == 0 } })
    ∧ (∀ b, ∃ t, exec (.las b) s = .next t ∧ StoresOnly [] s t ∧ Takes (s.readCycles (.absY b)) s t
      ∧ t.cpu = { s.cpu with
          a := s.operand (.mem (.absY b)) &&& s.sp, x := t.a, sp := t.a
          p := { s.p with n := t.a.getLsbD 7, z := t.a == 0 } })

/-- 46 R437-R441 under the policy `nmos`: the store value is the register and the base's high byte plus one, and on a page
cross it is also the high byte of the address written (log 10). -/
def Obligations.HighByteStoresUnderNmos : Prop :=
  ∀ (s : State) (i : Instr) (base : Addr) (idx reg sp' : Byte), s.undocPolicy = .nmos →
    (i, base, idx, reg, sp') ∈ [(Instr.sha (.absY base), base, s.y, s.a &&& s.x, s.sp),
      (.shx base, base, s.y, s.x, s.sp), (.shy base, base, s.x, s.y, s.sp),
      (.tas base, base, s.y, s.a &&& s.x, s.a &&& s.x)]
      ∨ (∃ z, i = .sha (.indY z) ∧ base = s.pointer z ∧ idx = s.y ∧ reg = s.a &&& s.x ∧ sp' = s.sp) →
    ∃ t v ea, exec i s = .next t ∧ v = reg &&& (highByte base + 1)
      ∧ ea = (if 256 ≤ (lowByte base).toNat + idx.toNat then joinBytes v (lowByte base + idx)
          else base + idx.setWidth 16)
      ∧ StoresOnly [ea] s t ∧ (s.writable ea = true → t.memByte ea = some v) ∧ t.cpu = { s.cpu with sp := sp' }
      ∧ Takes (match i with | .sha (.indY _) => 4 | _ => 2) s t

/-- 46 R429, R442: the thirteen others under the policies `nop1` and `refuse`. -/
def Obligations.OtherInstructionsUnderNop1AndRefuse : Prop :=
  ∀ (s : State) (i : Instr) (op : Byte),
    (∃ x : Byte, (i, op) ∈ [(Instr.anc 0x0B x, 0x0B), (.anc 0x2B x, 0x2B), (.alr x, 0x4B), (.arr x, 0x6B), (.axs x, 0xCB),
      (.xaa x, 0x8B), (.lxa x, 0xAB), (.sha (.indY x), 0x93)])
      ∨ (∃ a : Addr, (i, op) ∈ [(Instr.las a, (0xBB : Byte)), (.shx a, 0x9E), (.shy a, 0x9C), (.tas a, 0x9B),
        (.sha (.absY a), 0x9F)]) →
    (s.undocPolicy = .nop1 → ∃ t, exec i s = .next t ∧ StoresOnly [] s t ∧ t.cpu = s.cpu ∧ Takes 1 s t)
      ∧ (s.undocPolicy = .refuse → exec i s = .refused (.undocRefused op))

/-! ### Memory, DMA and devices -/

/-- 20 R103: a write cycle to internal RAM is seen by a later read cycle of any of the four names of the byte, and by no
other byte of plain memory; the PPU's eight registers repeat every eight bytes through $3FFF. -/
def Obligations.RamAndPpuRegistersAreMirrored : Prop :=
  ∀ (s : State) (a b : Addr) (v : Byte),
    (a.toNat < 0x2000 →
        (b.toNat < 0x2000 → b.toNat % 0x800 = a.toNat % 0x800 → ((s.memWrite a v).memRead b).1 = v)
          ∧ ((0x2000 ≤ b.toNat ∨ b.toNat % 0x800 ≠ a.toNat % 0x800) → (s.memWrite a v).memByte b = s.memByte b))
      ∧ (0x2000 ≤ a.toNat → a.toNat < 0x4000 → 0x2000 ≤ b.toNat → b.toNat < 0x4000 → b.toNat % 8 = a.toNat % 8 →
          s.busRead b = s.busRead a ∧ s.busWrite b v = s.busWrite a v)

/-- 20 R104: the reads that no device drives return the last byte on the data bus. -/
def Obligations.UndrivenReadsReturnTheBusLatch : Prop :=
  ∀ (s : State) (a : Addr),
    (0x4000 ≤ a.toNat ∧ a.toNat ≤ 0x4014 ∨ 0x4018 ≤ a.toNat ∧ a.toNat ≤ 0x401F
      ∨ 0x4020 ≤ a.toNat ∧ (s.cart.cpuRead a).1 = none) →
    (s.busRead a).1 = s.busLatch

/-- 63 R660, R661, R663: a $4014 write requests it; an OAM DMA takes 513 cycles, one more when its first cycle is odd; from a
page of internal RAM, with rendering off, it copies the page's 256 bytes to OAM from OAMADDR on, wrapping, and leaves OAMADDR
where it was. -/
def Obligations.OamDmaTakes513CyclesAndCopiesAPage : Prop :=
  ∀ s : State,
    (∀ v, s.busWrite 0x4014 v = { s with dma := { s.dma with oamPending := true, oamPage := v } })
      ∧ s.serveOam.cycles = s.cycles + (if s.cycles % 2 = 1 then 514 else 513)
      ∧ s.serveOam.cpu = s.cpu ∧ s.serveOam.ram = s.ram
      ∧ (s.ppu.rendering = false → s.dma.oamPage.toNat < 0x20 →
        (∀ k, k < 256 →
            memGet s.serveOam.ppu.oam ((s.ppu.oamAddr.toNat + k) % 256)
              = s.ramByte (joinBytes s.dma.oamPage (BitVec.ofNat 8 k)))
          ∧ s.serveOam.ppu.oamAddr = s.ppu.oamAddr)

/-- 63 R665, 62 R621, R630, R631: a DMC DMA takes four cycles, puts the byte at `cur_addr` in the buffer, steps the address,
from $FFFF to $8000, and the byte count, and changes no register; the last byte of a sample restarts it, raises the DMC IRQ, or
neither. Two of its clauses are the model's choice: that the request ends only then, with one fetch for one empty buffer (log 11),
and that the count steps from 0 to 4095 (log 12; 00 R14). -/
def Obligations.DmcDmaFetchesOneByte : Prop :=
  ∀ (s : State) (b : Byte), s.memByte s.apu.dmc.curAddr = some b →
    ∃ d e : Dmc, d = s.apu.dmc ∧ e = s.serveDmc.apu.dmc
      ∧ s.serveDmc.cycles = s.cycles + 4 ∧ e.buffer = b ∧ e.bufferFull = true
      ∧ s.serveDmc.dma = { s.dma with dmcPending := false } ∧ s.serveDmc.cpu = s.cpu ∧ s.serveDmc.ram = s.ram
      ∧ (d.bytesRemaining ≠ 1 ∨ d.loop = false →
          e.curAddr = (if d.curAddr = 0xFFFF then 0x8000 else d.curAddr + 1) ∧ e.bytesRemaining = d.bytesRemaining - 1)
      ∧ (d.bytesRemaining = 1 → d.loop = true → e.curAddr = d.sampleAddr ∧ e.bytesRemaining = d.sampleLen)
      ∧ e.dmcIrq = (d.dmcIrq || (d.bytesRemaining == 1 && !d.loop && d.irqEnable))

/-- 63 R662, 20 R111: DMA is served before a read cycle, never before a write cycle; the DMC goes first, a DMC request raised
during an OAM DMA is served after it, and the read follows when neither is pending (log 26). -/
def Obligations.DmaIsServedBeforeReadsDmcFirst : Prop :=
  ∀ (s : State) (a : Addr) (v : Byte),
    s.memWrite a v = ((s.busWrite a v).latch v).tick
      ∧ s.memRead a = s.serviceDma.readAndTick a
      ∧ s.serviceDma.dma.dmcPending = false ∧ s.serviceDma.dma.oamPending = false
      ∧ (s.dma.dmcPending = true → s.serviceDma = s.serveDmc.serviceDma)
      ∧ (s.dma.dmcPending = false → s.dma.oamPending = true → s.serviceDma = s.serveOam.serviceDma)
      ∧ (s.dma.dmcPending = false → s.dma.oamPending = false → s.serviceDma = s)

/-- 61 R513: a PPUSTATUS read, at any of its addresses; at the position of the VBL race it returns VBL 0 and suppresses the
VBL dot (R549). That it returns VBL 0 there also in a state whose VBL is still set is the model's choice (log 21). -/
def Obligations.StatusReadClearsVblAndToggle : Prop :=
  ∀ (s : State) (a : Addr), 0x2000 ≤ a.toNat → a.toNat < 0x4000 → a.toNat % 8 = 2 →
    ∃ r p, s.busRead a = (r, { s with ppu := p })
      ∧ (¬(s.ppu.scanline = 241 ∧ s.ppu.dot = 1) → r.getLsbD 7 = s.ppu.vbl
          ∧ p = { s.ppu with vbl := false, w := false, openBus := r })
      ∧ (s.ppu.scanline = 241 → s.ppu.dot = 1 → r.getLsbD 7 = false
          ∧ p = { s.ppu with vbl := false, w := false, openBus := r, suppressVbl := true })
      ∧ r.getLsbD 6 = s.ppu.sprite0Hit ∧ r.getLsbD 5 = s.ppu.spriteOverflow
      ∧ r.setWidth 5 = s.ppu.openBus.setWidth 5

/-- 61 R517, R518, R508: each of the two writes of PPUSCROLL and of PPUADDR writes its fields of `t` and, beside the open-bus
byte, `fineX`, `v` and `w` as its rule says, and nothing else. -/
def Obligations.ScrollAndAddressWritesSetTheirFields : Prop :=
  ∀ (p : Ppu) (c : Cart) (val : Byte),
    (∃ q, ppuRegWrite p c 5 val = (q, c)
      ∧ (p.w = false → q.t.extractLsb' 0 5 = val.extractLsb' 3 5 ∧ q.t.extractLsb' 5 10 = p.t.extractLsb' 5 10
          ∧ q = { p with openBus := val, t := q.t, fineX := val.extractLsb' 0 3, w := true })
      ∧ (p.w = true → q.t.extractLsb' 12 3 = val.extractLsb' 0 3 ∧ q.t.extractLsb' 5 5 = val.extractLsb' 3 5
          ∧ q.t.extractLsb' 0 5 = p.t.extractLsb' 0 5 ∧ q.t.extractLsb' 10 2 = p.t.extractLsb' 10 2
          ∧ q = { p with openBus := val, t := q.t, w := false }))
    ∧ (∃ q, ppuRegWrite p c 6 val = (q, c)
      ∧ (p.w = false → q.t.extractLsb' 8 6 = val.extractLsb' 0 6 ∧ q.t.getLsbD 14 = false
          ∧ q.t.extractLsb' 0 8 = p.t.extractLsb' 0 8 ∧ q = { p with openBus := val, t := q.t, w := true })
      ∧ (p.w = true → q.t.extractLsb' 0 8 = val ∧ q.t.extractLsb' 8 7 = p.t.extractLsb' 8 7
          ∧ q = { p with openBus := val, t := q.t, v := q.t, w := false }))

/-- 61 R518-R520, 20 R113-R115: a byte written to video memory through PPUADDR and PPUDATA is read back there: below the
palette a read puts it in the buffer, which is what the next read below the palette returns; in the palette at once, where $3F10
names the byte of $3F00. Every access steps `v` by 1, or by 32 where PPUCTRL bit 2 is set. -/
def Obligations.VideoMemoryIsReadBack : Prop :=
  ∀ (p : Ppu) (n : Nrom) (hi lo v : Byte), p.w = false → n.mirroring ≠ .fourScreen → 0x20 ≤ (hi &&& 0x3F).toNat →
    let c := Cart.nrom n
    let a := (hi &&& 0x3F).toNat * 256 + lo.toNat
    let q := (ppuRegWrite ((p.writeAddr hi).writeAddr lo) c 7 v).1
    let r := (q.writeAddr hi).writeAddr lo
    (a < 0x3F00 → (readData r c).2.1.readBuffer = v)
      ∧ (∀ u : Ppu, u.dataAddr.toNat < 0x3F00 → (readData u c).1 = u.readBuffer)
      ∧ (0x3F00 ≤ a → (readData r c).1 = ((r.openBus &&& 0xC0) ||| (v &&& 0x3F)))
      ∧ (a = 0x3F10 → q.paletteRead 0x3F00 = v.setWidth 6)
      ∧ (∀ (u : Ppu) (k : Cart) (x : Byte), (ppuRegWrite u k 7 x).1.v = u.v + (if u.ctrl.getLsbD 2 then 32 else 1)
          ∧ (ppuRegRead u k 7).2.1.v = u.v + (if u.ctrl.getLsbD 2 then 32 else 1))

/-- 20 R114: the page of nametable RAM behind each nametable, by the cartridge's mirroring, for reads and writes; under
FOUR_SCREEN the upper two are the cartridge's own memory (2 KiB of the reference cartridge, log 7). -/
def Obligations.NametablesFollowTheMirroring : Prop :=
  ∀ (p : Ppu) (n : Nrom) (a : BitVec 14) (v : Byte) (k o : Nat), 0x2000 ≤ a.toNat → a.toNat < 0x3F00 →
    k = a.toNat / 0x400 % 4 → o = a.toNat % 0x400 →
    (∀ g, (n.mirroring, g) ∈ [(Mirroring.horizontal, k / 2), (.vertical, k % 2), (.oneScreenLo, 0), (.oneScreenHi, 1)]
          ∨ (n.mirroring = .fourScreen ∧ k < 2 ∧ g = k) →
        ppuBusRead p (.nrom n) a = (memGet p.ciram (g * 0x400 + o), .nrom n)
          ∧ ppuBusWrite p (.nrom n) a v = ({ p with ciram := memSet p.ciram (g * 0x400 + o) v }, .nrom n))
      ∧ (n.mirroring = .fourScreen → 2 ≤ k →
        ppuBusRead p (.nrom n) a = (memGet n.ntRam ((k - 2) * 0x400 + o), .nrom n)
          ∧ ppuBusWrite p (.nrom n) a v = (p, .nrom { n with ntRam := memSet n.ntRam ((k - 2) * 0x400 + o) v }))

/-- 61 R515, R516: OAMDATA writes go to OAM and step OAMADDR unless rendering on a render line; reads leave it and return no
bits 4-2 of an attribute byte. -/
def Obligations.OamDataPortReadsAndWrites : Prop :=
  ∀ (p : Ppu) (c : Cart) (v : Byte),
    (p.rendering = true → -1 ≤ p.scanline → p.scanline ≤ 239 →
        (ppuRegWrite p c 4 v).1 = { p with openBus := v })
      ∧ ((p.rendering = false ∨ p.scanline < -1 ∨ 239 < p.scanline) →
        (ppuRegWrite p c 4 v).1 =
          { p with oam := memSet p.oam p.oamAddr.toNat v, oamAddr := p.oamAddr + 1, openBus := v })
      ∧ ∃ r, ppuRegRead p c 4 = (r, { p with openBus := r }, c)
        ∧ (p.oamAddr.toNat % 4 = 2 → r = memGet p.oam p.oamAddr.toNat &&& 0xE3)
        ∧ (p.oamAddr.toNat % 4 ≠ 2 → r = memGet p.oam p.oamAddr.toNat)

/-- 62 R592: a $4015 read. -/
def Obligations.ApuStatusReadReportsAndAcknowledges : Prop :=
  ∀ s : State, ∃ r, s.busRead 0x4015 = (r, { s with apu := { s.apu with frameIrq := false } })
    ∧ r.getLsbD 0 = (s.apu.pulse1.length != 0) ∧ r.getLsbD 1 = (s.apu.pulse2.length != 0)
    ∧ r.getLsbD 2 = (s.apu.tri.length != 0) ∧ r.getLsbD 3 = (s.apu.noise.length != 0)
    ∧ r.getLsbD 4 = (s.apu.dmc.bytesRemaining != 0) ∧ r.getLsbD 5 = s.busLatch.getLsbD 5
    ∧ r.getLsbD 6 = s.apu.frameIrq ∧ r.getLsbD 7 = s.apu.dmc.dmcIrq

/-- 62 R591: a $4015 write enables channels, silences those it disables, starts or stops the DMC, clears the DMC IRQ, and
changes nothing else. -/
def Obligations.ApuStatusWriteEnablesAndSilences : Prop :=
  ∀ (s : State) (v : Byte), ∃ w d u, u = s.apu ∧ s.busWrite 0x4015 v = { s with apu := w }
    ∧ w = { u with
        pulse1 := { u.pulse1 with enabled := v.getLsbD 0, length := if v.getLsbD 0 then u.pulse1.length else 0 }
        pulse2 := { u.pulse2 with enabled := v.getLsbD 1, length := if v.getLsbD 1 then u.pulse2.length else 0 }
        tri := { u.tri with enabled := v.getLsbD 2, length := if v.getLsbD 2 then u.tri.length else 0 }
        noise := { u.noise with enabled := v.getLsbD 3, length := if v.getLsbD 3 then u.noise.length else 0 }
        dmc := d }
    ∧ (v.getLsbD 4 = false → d = { u.dmc with bytesRemaining := 0, dmcIrq := false })
    ∧ (v.getLsbD 4 = true → u.dmc.bytesRemaining ≠ 0 → d = { u.dmc with dmcIrq := false })
    ∧ (v.getLsbD 4 = true → u.dmc.bytesRemaining = 0 →
        d = { u.dmc with curAddr := u.dmc.sampleAddr, bytesRemaining := u.dmc.sampleLen, dmcIrq := false })

/-- 62 R590: a $4017 write sets mode and inhibit, drops the frame IRQ if bit 6 is set, clocks a quarter and a half frame
at once if bit 7 is set, and restarts the sequence after 3 or 4 cycles. -/
def Obligations.FrameCounterWriteRestartsTheSequence : Prop :=
  ∀ (s : State) (v : Byte), ∃ w u, u = s.apu ∧ s.busWrite 0x4017 v = { s with apu := w }
    ∧ w.fcMode = v.getLsbD 7 ∧ w.fcInhibit = v.getLsbD 6 ∧ w.frameIrq = (u.frameIrq && !v.getLsbD 6)
    ∧ w.fcDelay = (if s.cycles % 2 = 1 then 3 else 4) ∧ w.fc = u.fc ∧ w.dmc = u.dmc
    ∧ (v.getLsbD 7 = false → w.pulse1 = u.pulse1 ∧ w.pulse2 = u.pulse2 ∧ w.tri = u.tri ∧ w.noise = u.noise)
    ∧ (v.getLsbD 7 = true →
        w.pulse1 = u.pulse1.quarter.half true ∧ w.pulse2 = u.pulse2.quarter.half false ∧ w.tri = u.tri.quarter.half
          ∧ w.noise = u.noise.quarter.half)
    ∧ (w.frameSteps w.fcDelay).fc = 0

/-- 62 R600: in the four-step mode without inhibit the frame IRQ is set at count 29829, and in no earlier cycle. -/
def Obligations.FrameIrqComesAtCount29829 : Prop :=
  ∀ u : Apu, u.fcMode = false → u.fcDelay = 0 → u.fcInhibit = false → u.frameIrq = false → u.fc < 29829 →
    (u.frameSteps (29829 - u.fc)).frameIrq = true
      ∧ ∀ k, k < 29829 - u.fc → (u.frameSteps k).frameIrq = false

/-- 63 R671, R672: after a strobe high to low, the n-th read of a port returns button n in bit 0, the ninth and later 1, with
bits 7-5 from the data bus and the rest 0. -/
def Obligations.ControllerReadsReturnTheButtonsInOrder : Prop :=
  ∀ (k : Pads) (up down latch : Byte) (port1 : Bool) (n : Nat), up.getLsbD 0 = true → down.getLsbD 0 = false →
    ((((k.strobeWrite up).strobeWrite down).afterReads port1 latch n).read port1 latch).1
      = ((latch &&& 0xE0) |||
          (if 8 ≤ n then 1
            else if (if port1 then k.buttons1 else k.buttons0).getLsbD n then 1 else 0))
end

