-- ==== Sys2Proof/Laws/Apu.lean ====
section
/-!
SUPPORT. Laws of the APU: what a cycle leaves as it was, and that it stays sound.
-/

namespace Sys2Proof.Machine

/-! ### What the clock does not change -/

@[simp] theorem Pulse.settings_quarter (p : Pulse) : p.quarter.settings = p.settings := rfl

@[simp] theorem Pulse.settings_half (p : Pulse) (ones : Bool) : (p.half ones).settings = p.settings := by
  unfold Pulse.half Pulse.sweepClock
  dsimp only
  split <;> rfl

@[simp] theorem Pulse.settings_timerStep (p : Pulse) : p.timerStep.settings = p.settings := by
  unfold Pulse.timerStep
  split <;> rfl

@[simp] theorem Triangle.settings_quarter (t : Triangle) : t.quarter.settings = t.settings := rfl

@[simp] theorem Triangle.settings_half (t : Triangle) : t.half.settings = t.settings := rfl

@[simp] theorem Triangle.settings_timerStep (t : Triangle) : t.timerStep.settings = t.settings := by
  unfold Triangle.timerStep
  split <;> rfl

@[simp] theorem Noise.settings_quarter (n : Noise) : n.quarter.settings = n.settings := rfl

@[simp] theorem Noise.settings_half (n : Noise) : n.half.settings = n.settings := rfl

@[simp] theorem Noise.settings_timerStep (n : Noise) : n.timerStep.settings = n.settings := by
  unfold Noise.timerStep
  split <;> rfl

@[simp] theorem Dmc.settings_timerStep (d : Dmc) : d.timerStep.settings = d.settings := by
  unfold Dmc.timerStep Dmc.outputClock Dmc.reloadShift
  dsimp only
  repeat' split
  all_goals rfl

@[simp] theorem Dmc.settings_deliver (d : Dmc) (b : Byte) : (d.deliver b).settings = d.settings := by
  unfold Dmc.deliver Dmc.sampleEnd
  dsimp only
  repeat' split
  all_goals rfl

@[simp] theorem Apu.settings_quarter (u : Apu) : u.quarter.settings = u.settings := by
  simp [Apu.settings, Apu.quarter]

@[simp] theorem Apu.settings_half (u : Apu) : u.half.settings = u.settings := by
  simp [Apu.settings, Apu.half]

@[simp] theorem Apu.settings_frameCounterStep (u : Apu) : u.frameCounterStep.settings = u.settings := by
  have hq : ∀ n, ({ u with fc := n } : Apu).settings = u.settings := fun _ => rfl
  have h4 : ∀ w : Apu, w.fourStep.settings = w.settings := fun w => by
    have hz : ({ w with fc := 0 } : Apu).settings = w.settings := rfl
    have hi : ∀ b, ({ w.quarter.half with frameIrq := b } : Apu).settings = w.quarter.half.settings := fun _ => rfl
    unfold Apu.fourStep
    repeat' split
    all_goals simp [hz, hi]
  have h5 : ∀ w : Apu, w.fiveStep.settings = w.settings := fun w => by
    have hz : ({ w with fc := 0 } : Apu).settings = w.settings := rfl
    unfold Apu.fiveStep
    repeat' split
    all_goals simp [hz]
  have hs : ∀ w : Apu, w.sequence.settings = w.settings := fun w => by
    have hz : ({ w with fc := w.fc + 1 } : Apu).settings = w.settings := rfl
    unfold Apu.sequence
    dsimp only
    split
    · rw [h5, hz]
    · rw [h4, hz]
  unfold Apu.frameCounterStep
  split
  · exact hs u
  · split
    · rfl
    · rw [hs]; rfl

@[simp] theorem Apu.settings_timers (u : Apu) (b : Bool) : (u.timers b).settings = u.settings := by
  cases b <;> simp [Apu.settings, Apu.timers]

/-- A cycle of the APU changes none of its settings. -/
@[simp] theorem Apu.settings_step (u : Apu) (cycles : Nat) : (u.step cycles).settings = u.settings := by
  simp [Apu.step]

@[simp] theorem Apu.settings_afterStatusRead (u : Apu) : u.afterStatusRead.settings = u.settings := rfl

/-! ### The DMC: bytes remaining -/

@[simp] theorem Dmc.bytesRemaining_timerStep (d : Dmc) : d.timerStep.bytesRemaining = d.bytesRemaining := by
  unfold Dmc.timerStep Dmc.outputClock Dmc.reloadShift
  dsimp only
  repeat' split
  all_goals rfl

@[simp] theorem Apu.dmc_frameCounterStep (u : Apu) : u.frameCounterStep.dmc = u.dmc := by
  unfold Apu.frameCounterStep Apu.sequence Apu.fourStep Apu.fiveStep
  dsimp only
  repeat' split
  all_goals rfl

@[simp] theorem Apu.dmc_step (u : Apu) (cycles : Nat) : (u.step cycles).dmc = u.dmc.timerStep := by
  simp [Apu.step, Apu.timers]

/-! ### Soundness -/

theorem Dmc.sound_iff (d : Dmc) (pending : Bool) :
    d.sound pending = true ↔
      (1 ≤ d.bitsRemaining ∧ d.bitsRemaining ≤ 8) ∧ (0xC000 ≤ d.sampleAddr.toNat ∧ d.sampleLen ≠ 0)
        ∧ (0x8000 ≤ d.curAddr.toNat ∨ (d.bytesRemaining = 0 ∧ pending = false)) := by
  simp [Dmc.sound, and_assoc]

theorem Apu.sound_iff (u : Apu) (pending : Bool) :
    u.sound pending = true ↔ u.dmc.sound pending = true ∧ u.noise.lfsr ≠ 0 ∧ u.fcDelay ≤ 4 := by
  simp [Apu.sound, and_assoc]

/-- The noise register never becomes 0 (62 R617). -/
theorem lfsrClock_ne_zero (mode : Bool) {l : BitVec 15} (h : l ≠ 0) : lfsrClock mode l ≠ 0 := by
  intro hz
  have hbit : ∀ k < 15, (lfsrClock mode l).getLsbD k = false := by
    intro k _
    rw [hz]
    simp
  have hrest : ∀ k, 1 ≤ k → k < 15 → l.getLsbD k = false := by
    intro k hk hk'
    have := hbit (k - 1) (by omega)
    unfold lfsrClock at this
    simp only [BitVec.getLsbD_or, BitVec.getLsbD_ushiftRight, Bool.or_eq_false_iff] at this
    have h1 := this.1
    rwa [show 1 + (k - 1) = k by omega] at h1
  have h0 : l.getLsbD 0 = false := by
    have h14 := hbit 14 (by omega)
    unfold lfsrClock at h14
    simp only [BitVec.getLsbD_or, BitVec.getLsbD_ushiftRight, Bool.or_eq_false_iff] at h14
    have h2 := h14.2
    rw [hrest 6 (by omega) (by omega), hrest 1 (by omega) (by omega)] at h2
    cases hl : l.getLsbD 0 with
    | false => rfl
    | true =>
      rw [hl] at h2
      cases mode <;> simp at h2
  apply h
  apply BitVec.eq_of_getLsbD_eq
  intro k hk
  rcases Nat.eq_zero_or_pos k with rfl | hp
  · simpa using h0
  · simpa using hrest k hp hk

theorem Dmc.sound_timerStep {d : Dmc} {pending : Bool} (h : d.sound pending = true) :
    d.timerStep.sound pending = true := by
  rw [Dmc.sound_iff] at h ⊢
  unfold Dmc.timerStep Dmc.outputClock Dmc.reloadShift
  dsimp only
  split
  · split
    · split
      · exact ⟨⟨(by decide : 1 ≤ 8), Nat.le_refl 8⟩, h.2⟩
      · exact ⟨⟨(by decide : 1 ≤ 8), Nat.le_refl 8⟩, h.2⟩
    · next hb => exact ⟨⟨Nat.pos_of_ne_zero hb, by show d.bitsRemaining - 1 ≤ 8; omega⟩, h.2⟩
  · exact h

/-- A request keeps the DMC sound: it is made only while a byte remains. -/
theorem Dmc.sound_request {d : Dmc} {pending : Bool} (h : d.sound pending = true) :
    d.sound (pending || d.needsByte) = true := by
  rw [Dmc.sound_iff] at h ⊢
  refine ⟨h.1, h.2.1, ?_⟩
  rcases h.2.2 with hc | ⟨hb, hp⟩
  · exact Or.inl hc
  · exact Or.inr ⟨hb, by simp [hp, Dmc.needsByte, hb]⟩

theorem Dmc.sound_restart {d : Dmc} {pending pending' : Bool} (h : d.sound pending = true) :
    d.restart.sound pending' = true := by
  rw [Dmc.sound_iff] at h ⊢
  exact ⟨h.1, h.2.1, Or.inl (by show 0x8000 ≤ d.sampleAddr.toNat; omega)⟩

theorem Dmc.sound_deliver {d : Dmc} (b : Byte) {pending : Bool} (h : d.sound pending = true)
    (hc : 0x8000 ≤ d.curAddr.toNat) : (d.deliver b).sound false = true := by
  have hq : ∀ r f, ({ d with
      buffer := b, bufferFull := f, curAddr := if d.curAddr = 0xFFFF then 0x8000 else d.curAddr + 1,
      bytesRemaining := r } : Dmc).sound false = true := by
    intro r f
    rw [Dmc.sound_iff] at h ⊢
    refine ⟨h.1, h.2.1, Or.inl ?_⟩
    show 0x8000 ≤ (if d.curAddr = 0xFFFF then (0x8000 : Addr) else d.curAddr + 1).toNat
    split
    · decide
    · next hne =>
      have hlt := d.curAddr.isLt
      have : d.curAddr.toNat ≠ 0xFFFF := fun e => hne (BitVec.eq_of_toNat_eq (by rw [e]; rfl))
      rw [BitVec.toNat_add]
      have h1 : (1 : BitVec 16).toNat = 1 := rfl
      omega
  unfold Dmc.deliver Dmc.sampleEnd
  dsimp only
  split
  · split
    · exact Dmc.sound_restart (hq (d.bytesRemaining - 1) true)
    · split
      · exact hq (d.bytesRemaining - 1) true
      · exact hq (d.bytesRemaining - 1) true
  · exact hq (d.bytesRemaining - 1) true

@[simp] theorem Apu.fcDelay_quarter (u : Apu) : u.quarter.fcDelay = u.fcDelay := rfl

@[simp] theorem Apu.noise_lfsr_frameCounterStep (u : Apu) : u.frameCounterStep.noise.lfsr = u.noise.lfsr := by
  unfold Apu.frameCounterStep Apu.sequence Apu.fourStep Apu.fiveStep
  dsimp only
  repeat' split
  all_goals rfl

theorem Apu.fcDelay_frameCounterStep_le (u : Apu) : u.frameCounterStep.fcDelay ≤ u.fcDelay := by
  unfold Apu.frameCounterStep Apu.sequence Apu.fourStep Apu.fiveStep
  dsimp only
  repeat' split
  all_goals first | exact Nat.le_refl _ | exact Nat.sub_le _ _ | exact Nat.zero_le _

theorem Noise.lfsr_timerStep_ne_zero {n : Noise} (h : n.lfsr ≠ 0) : n.timerStep.lfsr ≠ 0 := by
  unfold Noise.timerStep
  split
  · exact lfsrClock_ne_zero _ h
  · exact h

/-- A cycle keeps the APU sound. -/
theorem Apu.sound_step {u : Apu} (cycles : Nat) {pending : Bool} (h : u.sound pending = true) :
    (u.step cycles).sound pending = true := by
  rw [Apu.sound_iff] at h ⊢
  refine ⟨?_, ?_, ?_⟩
  · rw [Apu.dmc_step]; exact Dmc.sound_timerStep h.1
  · exact Noise.lfsr_timerStep_ne_zero (by rw [Apu.noise_lfsr_frameCounterStep]; exact h.2.1)
  · exact Nat.le_trans (Apu.fcDelay_frameCounterStep_le u) h.2.2

theorem Dmc.sound_enable {d : Dmc} (on : Bool) {pending : Bool} (h : d.sound pending = true) :
    (d.enable on).sound pending = true := by
  unfold Dmc.enable
  dsimp only
  split
  · split
    · exact Dmc.sound_restart h
    · exact h
  · rw [Dmc.sound_iff] at h ⊢
    refine ⟨h.1, h.2.1, ?_⟩
    rcases h.2.2 with hc | ⟨_, hp⟩
    · exact Or.inl hc
    · exact Or.inr ⟨rfl, hp⟩

theorem Apu.sound_statusWrite {u : Apu} (v : Byte) {pending : Bool} (h : u.sound pending = true) :
    (u.statusWrite v).sound pending = true := by
  rw [Apu.sound_iff] at h ⊢
  exact ⟨Dmc.sound_enable _ h.1, h.2⟩

theorem Dmc.sound_write {d : Dmc} (reg : Nat) (v : Byte) {pending : Bool} (h : d.sound pending = true) :
    (d.write reg v).sound pending = true := by
  rw [Dmc.sound_iff] at h ⊢
  unfold Dmc.write
  split
  · exact h
  · exact h
  · refine ⟨h.1, ⟨?_, h.2.1.2⟩, h.2.2⟩
    show 0xC000 ≤ (0xC000 + v.setWidth 16 * 64 : BitVec 16).toNat
    have hv := v.isLt
    have e1 : (0xC000 : BitVec 16).toNat = 0xC000 := rfl
    have e2 : (64 : BitVec 16).toNat = 64 := rfl
    rw [BitVec.toNat_add, BitVec.toNat_mul, BitVec.toNat_setWidth, e1, e2]
    omega
  · refine ⟨h.1, ⟨h.2.1.1, ?_⟩, h.2.2⟩
    show (v.setWidth 12 * 16 + 1 : BitVec 12) ≠ 0
    intro hz
    have hz' := congrArg BitVec.toNat hz
    have hv := v.isLt
    have e0 : (0 : BitVec 12).toNat = 0 := rfl
    have e1 : (1 : BitVec 12).toNat = 1 := rfl
    have e2 : (16 : BitVec 12).toNat = 16 := rfl
    rw [BitVec.toNat_add, BitVec.toNat_mul, BitVec.toNat_setWidth, e0, e1, e2] at hz'
    omega

theorem Apu.sound_regWrite {u : Apu} (off : Nat) (v : Byte) {pending : Bool} (h : u.sound pending = true) :
    (u.regWrite off v).sound pending = true := by
  have hn : ∀ r, (u.noise.write r v).lfsr = u.noise.lfsr := fun r => by unfold Noise.write; split <;> rfl
  rw [Apu.sound_iff] at h ⊢
  unfold Apu.regWrite
  split
  · exact h
  · exact h
  · exact h
  · exact ⟨h.1, by show (u.noise.write _ v).lfsr ≠ 0; rw [hn]; exact h.2.1, h.2.2⟩
  · exact ⟨Dmc.sound_write _ v h.1, h.2⟩

theorem Apu.sound_frameCounterWrite {u : Apu} (cycles : Nat) (v : Byte) {pending : Bool} (h : u.sound pending = true) :
    (u.frameCounterWrite cycles v).sound pending = true := by
  rw [Apu.sound_iff] at h ⊢
  have hd : frameResetDelay cycles ≤ 4 := by unfold frameResetDelay; split <;> decide
  unfold Apu.frameCounterWrite
  dsimp only
  split
  · exact ⟨h.1, h.2.1, hd⟩
  · exact ⟨h.1, h.2.1, hd⟩

end Sys2Proof.Machine
end

