-- ==== Sys2Proof/Laws/Memory.lean ====
section
/-!
SUPPORT. Laws of the memories: a read after a write, and that every memory operation keeps the canonical form.
-/

namespace Sys2Proof.Machine

variable {α : Type}

@[simp] theorem cellGet_nil (d : α) (a : Nat) : cellGet d [] a = d := rfl

theorem cellGet_cellErase_same (d : α) (m : List (Nat × α)) (a : Nat) : cellGet d (cellErase m a) a = d := by
  induction m with
  | nil => rfl
  | cons c m ih =>
    obtain ⟨k, v⟩ := c
    simp only [cellErase]
    split
    · exact ih
    · next h => simp only [cellGet, if_neg h, ih]

theorem cellGet_cellErase_other (d : α) (m : List (Nat × α)) {a b : Nat} (h : b ≠ a) :
    cellGet d (cellErase m a) b = cellGet d m b := by
  induction m with
  | nil => rfl
  | cons c m ih =>
    obtain ⟨k, v⟩ := c
    simp only [cellErase]
    split
    · next hk =>
      subst hk
      simp only [cellGet, if_neg (Ne.symm h), ih]
    · simp only [cellGet, ih]

theorem cellGet_cellInsert_other (d : α) (m : List (Nat × α)) {a b : Nat} (v : α) (h : b ≠ a) :
    cellGet d (cellInsert m a v) b = cellGet d m b := by
  induction m with
  | nil => simp only [cellInsert, cellGet, if_neg (Ne.symm h)]
  | cons c m ih =>
    obtain ⟨k, w⟩ := c
    simp only [cellInsert]
    split
    · simp only [cellGet, if_neg (Ne.symm h)]
    · simp only [cellGet, ih]

/-- An insertion is read back where the address was not listed. -/
theorem cellGet_cellInsert_same (d : α) (m : List (Nat × α)) (a : Nat) (v : α) (h : ∀ c ∈ m, c.1 ≠ a) :
    cellGet d (cellInsert m a v) a = v := by
  induction m with
  | nil => simp only [cellInsert, cellGet, if_true]
  | cons c m ih =>
    obtain ⟨k, w⟩ := c
    have hk : k ≠ a := h (k, w) (List.mem_cons_self ..)
    simp only [cellInsert]
    split
    · simp only [cellGet, if_true]
    · simp only [cellGet, if_neg hk]
      exact ih fun c hc => h c (List.mem_cons_of_mem _ hc)

theorem not_mem_cellErase (m : List (Nat × α)) (a : Nat) : ∀ c ∈ cellErase m a, c.1 ≠ a := by
  induction m with
  | nil => simp [cellErase]
  | cons c m ih =>
    obtain ⟨k, w⟩ := c
    simp only [cellErase]
    split
    · exact ih
    · next h =>
      intro c hc
      rcases List.mem_cons.1 hc with rfl | hc
      · exact h
      · exact ih c hc

/-- A read after a write: the value written at its address, the old value anywhere else. -/
theorem cellGet_cellSet [DecidableEq α] (d : α) (m : List (Nat × α)) (a b : Nat) (v : α) :
    cellGet d (cellSet d m a v) b = if b = a then v else cellGet d m b := by
  unfold cellSet
  by_cases hb : b = a
  · subst hb
    split
    · next h => simp [cellGet_cellErase_same, h]
    · simp [cellGet_cellInsert_same d _ b v (not_mem_cellErase m b)]
  · split
    · simp [cellGet_cellErase_other d m hb]
    · simp [cellGet_cellInsert_other d _ v hb, cellGet_cellErase_other d m hb]

/-- A read after a write of a byte memory. -/
theorem memGet_memSet (m : Mem) (a b : Nat) (v : Byte) : memGet (memSet m a v) b = if b = a then v else memGet m b :=
  cellGet_cellSet 0 m a b v

@[simp] theorem memGet_memSet_same (m : Mem) (a : Nat) (v : Byte) : memGet (memSet m a v) a = v := by
  simp [memGet_memSet]

/-! ### The canonical form -/

section Wf

variable [DecidableEq α] {d : α} {ok : α → Bool}

theorem cellsWf_cons {lo hi k : Nat} {v : α} {m : List (Nat × α)} :
    cellsWf d ok lo hi ((k, v) :: m) = true ↔
      (lo ≤ k ∧ k < hi ∧ v ≠ d ∧ ok v = true) ∧ cellsWf d ok (k + 1) hi m = true := by
  simp only [cellsWf, Bool.and_eq_true, decide_eq_true_eq, and_assoc]

theorem cellsWf_mono {lo lo' hi : Nat} {m : List (Nat × α)} (h : lo' ≤ lo) (hm : cellsWf d ok lo hi m = true) :
    cellsWf d ok lo' hi m = true := by
  cases m with
  | nil => rfl
  | cons c m =>
    obtain ⟨k, v⟩ := c
    rw [cellsWf_cons] at hm ⊢
    exact ⟨⟨Nat.le_trans h hm.1.1, hm.1.2⟩, hm.2⟩

theorem cellsWf_cellErase {lo hi : Nat} {m : List (Nat × α)} (a : Nat) (hm : cellsWf d ok lo hi m = true) :
    cellsWf d ok lo hi (cellErase m a) = true := by
  induction m generalizing lo with
  | nil => rfl
  | cons c m ih =>
    obtain ⟨k, v⟩ := c
    rw [cellsWf_cons] at hm
    simp only [cellErase]
    split
    · exact cellsWf_mono (by omega) (ih hm.2)
    · rw [cellsWf_cons]
      exact ⟨hm.1, ih hm.2⟩

theorem cellsWf_cellInsert {lo hi a : Nat} {v : α} {m : List (Nat × α)} (hlo : lo ≤ a) (hhi : a < hi) (hv : v ≠ d)
    (hok : ok v = true) (hm : cellsWf d ok lo hi m = true) (hne : ∀ c ∈ m, c.1 ≠ a) :
    cellsWf d ok lo hi (cellInsert m a v) = true := by
  induction m generalizing lo with
  | nil =>
    simp only [cellInsert]
    rw [cellsWf_cons]
    exact ⟨⟨hlo, hhi, hv, hok⟩, rfl⟩
  | cons c m ih =>
    obtain ⟨k, w⟩ := c
    rw [cellsWf_cons] at hm
    have hk : k ≠ a := hne (k, w) (List.mem_cons_self ..)
    simp only [cellInsert]
    split
    · next h =>
      rw [cellsWf_cons, cellsWf_cons]
      exact ⟨⟨hlo, hhi, hv, hok⟩, ⟨h, hm.1.2⟩, hm.2⟩
    · next h =>
      rw [cellsWf_cons]
      exact ⟨hm.1, ih (by omega) hm.2 fun c hc => hne c (List.mem_cons_of_mem _ hc)⟩

/-- A write keeps the canonical form. -/
theorem cellsWf_cellSet {hi a : Nat} {v : α} {m : List (Nat × α)} (hhi : a < hi) (hok : v ≠ d → ok v = true)
    (hm : cellsWf d ok 0 hi m = true) : cellsWf d ok 0 hi (cellSet d m a v) = true := by
  unfold cellSet
  split
  · exact cellsWf_cellErase a hm
  · next h => exact cellsWf_cellInsert (Nat.zero_le _) hhi h (hok h) (cellsWf_cellErase a hm) (not_mem_cellErase m a)

end Wf

theorem Memory.wf_memSet {n a : Nat} {m : Mem} (v : Byte) (ha : a < n) (hm : Memory.wf n m = true) :
    Memory.wf n (memSet m a v) = true :=
  cellsWf_cellSet ha (fun _ => rfl) hm

theorem paletteWf_cellSet {a : Nat} {m : List (Nat × BitVec 6)} (v : BitVec 6) (ha : a < 32) (hm : paletteWf m = true) :
    paletteWf (cellSet 0 m a v) = true :=
  cellsWf_cellSet ha (fun _ => rfl) hm

/-- A listed value of a canonical memory passes its check. -/
theorem cellsWf_cellGet {α : Type} [DecidableEq α] {d : α} {ok : α → Bool} {lo hi a : Nat} {m : List (Nat × α)}
    (hd : ok d = true) (hm : cellsWf d ok lo hi m = true) : ok (cellGet d m a) = true := by
  induction m generalizing lo with
  | nil => exact hd
  | cons c m ih =>
    obtain ⟨k, v⟩ := c
    rw [cellsWf_cons] at hm
    simp only [cellGet]
    split
    · exact hm.1.2.2.2
    · exact ih hm.2

theorem pictureWf_setPixel {pic : Picture} {x y : Nat} (c : BitVec 9) (hx : x < 256) (hy : y < 240)
    (h : pictureWf pic = true) : pictureWf (setPixel pic x y c) = true := by
  refine cellsWf_cellSet hy (fun _ => ?_) h
  exact cellsWf_cellSet hx (fun _ => rfl) (cellsWf_cellGet (α := PixelRow) rfl h)

/-- Reading a pixel of a picture after writing one. -/
theorem pixelAt_setPixel (pic : Picture) (x y x' y' : Nat) (c : BitVec 9) :
    pixelAt (setPixel pic x y c) x' y' = if x' = x ∧ y' = y then c else pixelAt pic x' y' := by
  unfold pixelAt setPixel
  rw [cellGet_cellSet]
  split
  · next h => subst h; rw [cellGet_cellSet]; simp
  · next h => simp [h]

theorem ramIndex_lt (a : Addr) : ramIndex a < 0x800 := by
  unfold ramIndex
  have : (a &&& 0x07FF).toNat ≤ (0x07FF : BitVec 16).toNat := by
    rw [BitVec.toNat_and]; exact Nat.and_le_right
  have h : (0x07FF : BitVec 16).toNat = 0x7FF := rfl
  omega

end Sys2Proof.Machine
end

