-- ==== Sys2Proof/Laws/Ppu.lean ====
section
/-!
SUPPORT. Laws of the cartridge and the PPU: what a bus read and a dot leave as it was.
-/

namespace Sys2Proof.Machine

/-! ### The cartridge: reads change nothing the model knows -/

@[simp] theorem Cart.known_ppuRead (c : Cart) (a : BitVec 14) : (c.ppuRead a).2.known = c.known := by
  cases c <;> rfl

@[simp] theorem Cart.known_cpuRead (c : Cart) (a : Addr) : (c.cpuRead a).2.known = c.known := by
  cases c <;> rfl

/-- What the CPU sees of a cartridge is a function of what the model knows of it. -/
theorem Cart.memByte_eq (c : Cart) (a : Addr) : c.memByte a = c.known.bind fun n => n.cpuRead a := by
  cases c <;> rfl

theorem Cart.memByte_congr {c d : Cart} (h : c.known = d.known) (a : Addr) : c.memByte a = d.memByte a := by
  rw [Cart.memByte_eq, Cart.memByte_eq, h]

theorem Cart.settings_congr {c d : Cart} (h : c.known = d.known) : c.settings = d.settings := by
  unfold Cart.settings
  rw [h]

@[simp] theorem known_nametableRead (p : Ppu) (c : Cart) (a : BitVec 14) : (nametableRead p c a).2.known = c.known := by
  unfold nametableRead
  split <;> simp

@[simp] theorem known_ppuBusRead (p : Ppu) (c : Cart) (a : BitVec 14) : (ppuBusRead p c a).2.known = c.known := by
  unfold ppuBusRead
  split
  · simp
  · split <;> simp

/-! ### The dot -/

@[simp] theorem Ppu.settings_flagDot (p : Ppu) : p.flagDot.settings = p.settings := by
  unfold Ppu.flagDot
  repeat' split
  all_goals rfl

@[simp] theorem Ppu.oam_flagDot (p : Ppu) : p.flagDot.oam = p.oam := by
  unfold Ppu.flagDot
  repeat' split
  all_goals rfl

@[simp] theorem Ppu.settings_bgShiftAndReload (p : Ppu) : p.bgShiftAndReload.settings = p.settings := by
  unfold Ppu.bgShiftAndReload
  dsimp only
  repeat' split
  all_goals rfl

@[simp] theorem Ppu.oam_bgShiftAndReload (p : Ppu) : p.bgShiftAndReload.oam = p.oam := by
  unfold Ppu.bgShiftAndReload
  dsimp only
  repeat' split
  all_goals rfl

@[simp] theorem settings_bgFetchTile (p : Ppu) (c : Cart) : (bgFetchTile p c).1.settings = p.settings := by
  unfold bgFetchTile
  repeat' split
  all_goals rfl

@[simp] theorem oam_bgFetchTile (p : Ppu) (c : Cart) : (bgFetchTile p c).1.oam = p.oam := by
  unfold bgFetchTile
  repeat' split
  all_goals rfl

@[simp] theorem known_bgFetchTile (p : Ppu) (c : Cart) : (bgFetchTile p c).2.known = c.known := by
  unfold bgFetchTile
  repeat' split
  all_goals first | rfl | exact known_ppuBusRead ..

@[simp] theorem Ppu.settings_updateV (p : Ppu) : p.updateV.settings = p.settings := by
  unfold Ppu.updateV
  repeat' split
  all_goals rfl

@[simp] theorem Ppu.oam_updateV (p : Ppu) : p.updateV.oam = p.oam := by
  unfold Ppu.updateV
  repeat' split
  all_goals rfl

@[simp] theorem settings_bgFetch (p : Ppu) (c : Cart) : (bgFetch p c).1.settings = p.settings := by simp [bgFetch]

@[simp] theorem oam_bgFetch (p : Ppu) (c : Cart) : (bgFetch p c).1.oam = p.oam := by simp [bgFetch]

@[simp] theorem known_bgFetch (p : Ppu) (c : Cart) : (bgFetch p c).2.known = c.known := by simp [bgFetch]

@[simp] theorem Ppu.settings_spriteEvaluate (p : Ppu) : p.spriteEvaluate.settings = p.settings := by
  unfold Ppu.spriteEvaluate Ppu.examineSprite
  repeat' split
  all_goals rfl

@[simp] theorem Ppu.oam_spriteEvaluate (p : Ppu) : p.spriteEvaluate.oam = p.oam := by
  unfold Ppu.spriteEvaluate Ppu.examineSprite
  repeat' split
  all_goals rfl

@[simp] theorem settings_loadUnit (p : Ppu) (c : Cart) (i : Nat) : (loadUnit p c i).1.settings = p.settings := by
  unfold loadUnit
  split <;> rfl

@[simp] theorem oam_loadUnit (p : Ppu) (c : Cart) (i : Nat) : (loadUnit p c i).1.oam = p.oam := by
  unfold loadUnit
  split <;> rfl

@[simp] theorem known_loadUnit (p : Ppu) (c : Cart) (i : Nat) : (loadUnit p c i).2.known = c.known := by
  unfold loadUnit
  split <;> simp

@[simp] theorem settings_spriteFetch (p : Ppu) (c : Cart) : (spriteFetch p c).1.settings = p.settings := by
  unfold spriteFetch
  repeat' split
  all_goals first | rfl | exact settings_loadUnit ..

@[simp] theorem oam_spriteFetch (p : Ppu) (c : Cart) : (spriteFetch p c).1.oam = p.oam := by
  unfold spriteFetch
  repeat' split
  all_goals first | rfl | exact oam_loadUnit ..

@[simp] theorem known_spriteFetch (p : Ppu) (c : Cart) : (spriteFetch p c).2.known = c.known := by
  unfold spriteFetch
  repeat' split
  all_goals first | rfl | exact known_loadUnit ..

@[simp] theorem Ppu.settings_clearOamAddr (p : Ppu) : p.clearOamAddr.settings = p.settings := by
  unfold Ppu.clearOamAddr
  split <;> rfl

@[simp] theorem Ppu.oam_clearOamAddr (p : Ppu) : p.clearOamAddr.oam = p.oam := by
  unfold Ppu.clearOamAddr
  split <;> rfl

@[simp] theorem settings_renderDot (p : Ppu) (c : Cart) : (renderDot p c).1.settings = p.settings := by simp [renderDot]

@[simp] theorem oam_renderDot (p : Ppu) (c : Cart) : (renderDot p c).1.oam = p.oam := by simp [renderDot]

@[simp] theorem known_renderDot (p : Ppu) (c : Cart) : (renderDot p c).2.known = c.known := by simp [renderDot]

@[simp] theorem Ppu.settings_outputPixel (p : Ppu) (x : Nat) : (p.outputPixel x).settings = p.settings := by
  unfold Ppu.outputPixel
  split <;> rfl

@[simp] theorem Ppu.oam_outputPixel (p : Ppu) (x : Nat) : (p.outputPixel x).oam = p.oam := by
  unfold Ppu.outputPixel
  split <;> rfl

@[simp] theorem Ppu.settings_advance (p : Ppu) : p.advance.settings = p.settings := by
  unfold Ppu.advance
  repeat' split
  all_goals rfl

@[simp] theorem Ppu.oam_advance (p : Ppu) : p.advance.oam = p.oam := by
  unfold Ppu.advance
  repeat' split
  all_goals rfl

@[simp] theorem settings_dotBody (p : Ppu) (c : Cart) : (dotBody p c).1.settings = p.settings := by
  unfold dotBody
  dsimp only
  repeat' split
  all_goals simp

@[simp] theorem oam_dotBody (p : Ppu) (c : Cart) : (dotBody p c).1.oam = p.oam := by
  unfold dotBody
  dsimp only
  repeat' split
  all_goals simp

@[simp] theorem known_dotBody (p : Ppu) (c : Cart) : (dotBody p c).2.known = c.known := by
  unfold dotBody
  dsimp only
  split <;> simp

/-- A dot writes no register, nametable or palette entry. -/
@[simp] theorem settings_ppuDot (p : Ppu) (c : Cart) : (Machine.ppuDot p c).1.settings = p.settings := by
  simp only [Machine.ppuDot, Ppu.settings_advance]
  exact settings_dotBody p c

/-- A dot writes no byte of OAM. -/
@[simp] theorem oam_ppuDot (p : Ppu) (c : Cart) : (Machine.ppuDot p c).1.oam = p.oam := by
  simp only [Machine.ppuDot, Ppu.oam_advance]
  exact oam_dotBody p c

/-- A dot only reads the cartridge. -/
@[simp] theorem known_ppuDot (p : Ppu) (c : Cart) : (Machine.ppuDot p c).2.1.known = c.known := known_dotBody p c

end Sys2Proof.Machine
end

