-- ==== Sys2Proof/Laws/State.lean ====
section
/-!
SUPPORT. One lemma per field and update: what the named updates of the state do to each field of the CPU's view, and what they
leave as it was.
-/

namespace Sys2Proof.Machine

/-! ### The CPU's view, field by field -/

@[simp] theorem State.cpu_a (s : State) : s.cpu.a = s.a := rfl
@[simp] theorem State.cpu_x (s : State) : s.cpu.x = s.x := rfl
@[simp] theorem State.cpu_y (s : State) : s.cpu.y = s.y := rfl
@[simp] theorem State.cpu_sp (s : State) : s.cpu.sp = s.sp := rfl
@[simp] theorem State.cpu_pc (s : State) : s.cpu.pc = s.pc := rfl
@[simp] theorem State.cpu_p (s : State) : s.cpu.p = s.p := rfl
@[simp] theorem State.cpu_jammed (s : State) : s.cpu.jammed = s.jammed := rfl
@[simp] theorem State.cpu_resetPending (s : State) : s.cpu.resetPending = s.resetPending := rfl

/-! ### The registers -/

@[simp] theorem State.withPc_cpu (s : State) (v : Addr) : (s.withPc v).cpu = { s.cpu with pc := v } := rfl
@[simp] theorem State.withPc_a (s : State) (v : Addr) : (s.withPc v).a = s.a := rfl
@[simp] theorem State.withPc_x (s : State) (v : Addr) : (s.withPc v).x = s.x := rfl
@[simp] theorem State.withPc_y (s : State) (v : Addr) : (s.withPc v).y = s.y := rfl
@[simp] theorem State.withPc_sp (s : State) (v : Addr) : (s.withPc v).sp = s.sp := rfl
@[simp] theorem State.withPc_pc (s : State) (v : Addr) : (s.withPc v).pc = v := rfl
@[simp] theorem State.withPc_p (s : State) (v : Addr) : (s.withPc v).p = s.p := rfl
@[simp] theorem State.withPc_jammed (s : State) (v : Addr) : (s.withPc v).jammed = s.jammed := rfl
@[simp] theorem State.withPc_resetPending (s : State) (v : Addr) : (s.withPc v).resetPending = s.resetPending := rfl
@[simp] theorem State.withPc_nmiPending (s : State) (v : Addr) : (s.withPc v).nmiPending = s.nmiPending := rfl
@[simp] theorem State.withPc_busLatch (s : State) (v : Addr) : (s.withPc v).busLatch = s.busLatch := rfl
@[simp] theorem State.withPc_cycles (s : State) (v : Addr) : (s.withPc v).cycles = s.cycles := rfl
@[simp] theorem State.withPc_ram (s : State) (v : Addr) : (s.withPc v).ram = s.ram := rfl
@[simp] theorem State.withPc_dma (s : State) (v : Addr) : (s.withPc v).dma = s.dma := rfl
@[simp] theorem State.withPc_pads (s : State) (v : Addr) : (s.withPc v).pads = s.pads := rfl
@[simp] theorem State.withPc_ppu (s : State) (v : Addr) : (s.withPc v).ppu = s.ppu := rfl
@[simp] theorem State.withPc_apu (s : State) (v : Addr) : (s.withPc v).apu = s.apu := rfl
@[simp] theorem State.withPc_cart (s : State) (v : Addr) : (s.withPc v).cart = s.cart := rfl
@[simp] theorem State.withPc_undocPolicy (s : State) (v : Addr) : (s.withPc v).undocPolicy = s.undocPolicy := rfl
@[simp] theorem State.withPc_memByte (s : State) (v : Addr) (b : Addr) : (s.withPc v).memByte b = s.memByte b := rfl

@[simp] theorem State.withSp_cpu (s : State) (v : Byte) : (s.withSp v).cpu = { s.cpu with sp := v } := rfl
@[simp] theorem State.withSp_a (s : State) (v : Byte) : (s.withSp v).a = s.a := rfl
@[simp] theorem State.withSp_x (s : State) (v : Byte) : (s.withSp v).x = s.x := rfl
@[simp] theorem State.withSp_y (s : State) (v : Byte) : (s.withSp v).y = s.y := rfl
@[simp] theorem State.withSp_sp (s : State) (v : Byte) : (s.withSp v).sp = v := rfl
@[simp] theorem State.withSp_pc (s : State) (v : Byte) : (s.withSp v).pc = s.pc := rfl
@[simp] theorem State.withSp_p (s : State) (v : Byte) : (s.withSp v).p = s.p := rfl
@[simp] theorem State.withSp_jammed (s : State) (v : Byte) : (s.withSp v).jammed = s.jammed := rfl
@[simp] theorem State.withSp_resetPending (s : State) (v : Byte) : (s.withSp v).resetPending = s.resetPending := rfl
@[simp] theorem State.withSp_nmiPending (s : State) (v : Byte) : (s.withSp v).nmiPending = s.nmiPending := rfl
@[simp] theorem State.withSp_busLatch (s : State) (v : Byte) : (s.withSp v).busLatch = s.busLatch := rfl
@[simp] theorem State.withSp_cycles (s : State) (v : Byte) : (s.withSp v).cycles = s.cycles := rfl
@[simp] theorem State.withSp_ram (s : State) (v : Byte) : (s.withSp v).ram = s.ram := rfl
@[simp] theorem State.withSp_dma (s : State) (v : Byte) : (s.withSp v).dma = s.dma := rfl
@[simp] theorem State.withSp_pads (s : State) (v : Byte) : (s.withSp v).pads = s.pads := rfl
@[simp] theorem State.withSp_ppu (s : State) (v : Byte) : (s.withSp v).ppu = s.ppu := rfl
@[simp] theorem State.withSp_apu (s : State) (v : Byte) : (s.withSp v).apu = s.apu := rfl
@[simp] theorem State.withSp_cart (s : State) (v : Byte) : (s.withSp v).cart = s.cart := rfl
@[simp] theorem State.withSp_undocPolicy (s : State) (v : Byte) : (s.withSp v).undocPolicy = s.undocPolicy := rfl
@[simp] theorem State.withSp_memByte (s : State) (v : Byte) (b : Addr) : (s.withSp v).memByte b = s.memByte b := rfl

@[simp] theorem State.withP_cpu (s : State) (v : Flags) : (s.withP v).cpu = { s.cpu with p := v } := rfl
@[simp] theorem State.withP_a (s : State) (v : Flags) : (s.withP v).a = s.a := rfl
@[simp] theorem State.withP_x (s : State) (v : Flags) : (s.withP v).x = s.x := rfl
@[simp] theorem State.withP_y (s : State) (v : Flags) : (s.withP v).y = s.y := rfl
@[simp] theorem State.withP_sp (s : State) (v : Flags) : (s.withP v).sp = s.sp := rfl
@[simp] theorem State.withP_pc (s : State) (v : Flags) : (s.withP v).pc = s.pc := rfl
@[simp] theorem State.withP_p (s : State) (v : Flags) : (s.withP v).p = v := rfl
@[simp] theorem State.withP_jammed (s : State) (v : Flags) : (s.withP v).jammed = s.jammed := rfl
@[simp] theorem State.withP_resetPending (s : State) (v : Flags) : (s.withP v).resetPending = s.resetPending := rfl
@[simp] theorem State.withP_nmiPending (s : State) (v : Flags) : (s.withP v).nmiPending = s.nmiPending := rfl
@[simp] theorem State.withP_busLatch (s : State) (v : Flags) : (s.withP v).busLatch = s.busLatch := rfl
@[simp] theorem State.withP_cycles (s : State) (v : Flags) : (s.withP v).cycles = s.cycles := rfl
@[simp] theorem State.withP_ram (s : State) (v : Flags) : (s.withP v).ram = s.ram := rfl
@[simp] theorem State.withP_dma (s : State) (v : Flags) : (s.withP v).dma = s.dma := rfl
@[simp] theorem State.withP_pads (s : State) (v : Flags) : (s.withP v).pads = s.pads := rfl
@[simp] theorem State.withP_ppu (s : State) (v : Flags) : (s.withP v).ppu = s.ppu := rfl
@[simp] theorem State.withP_apu (s : State) (v : Flags) : (s.withP v).apu = s.apu := rfl
@[simp] theorem State.withP_cart (s : State) (v : Flags) : (s.withP v).cart = s.cart := rfl
@[simp] theorem State.withP_undocPolicy (s : State) (v : Flags) : (s.withP v).undocPolicy = s.undocPolicy := rfl
@[simp] theorem State.withP_memByte (s : State) (v : Flags) (b : Addr) : (s.withP v).memByte b = s.memByte b := rfl

@[simp] theorem State.withA_cpu (s : State) (v : Byte) : (s.withA v).cpu = { s.cpu with a := v } := rfl
@[simp] theorem State.withA_a (s : State) (v : Byte) : (s.withA v).a = v := rfl
@[simp] theorem State.withA_x (s : State) (v : Byte) : (s.withA v).x = s.x := rfl
@[simp] theorem State.withA_y (s : State) (v : Byte) : (s.withA v).y = s.y := rfl
@[simp] theorem State.withA_sp (s : State) (v : Byte) : (s.withA v).sp = s.sp := rfl
@[simp] theorem State.withA_pc (s : State) (v : Byte) : (s.withA v).pc = s.pc := rfl
@[simp] theorem State.withA_p (s : State) (v : Byte) : (s.withA v).p = s.p := rfl
@[simp] theorem State.withA_jammed (s : State) (v : Byte) : (s.withA v).jammed = s.jammed := rfl
@[simp] theorem State.withA_resetPending (s : State) (v : Byte) : (s.withA v).resetPending = s.resetPending := rfl
@[simp] theorem State.withA_nmiPending (s : State) (v : Byte) : (s.withA v).nmiPending = s.nmiPending := rfl
@[simp] theorem State.withA_busLatch (s : State) (v : Byte) : (s.withA v).busLatch = s.busLatch := rfl
@[simp] theorem State.withA_cycles (s : State) (v : Byte) : (s.withA v).cycles = s.cycles := rfl
@[simp] theorem State.withA_ram (s : State) (v : Byte) : (s.withA v).ram = s.ram := rfl
@[simp] theorem State.withA_dma (s : State) (v : Byte) : (s.withA v).dma = s.dma := rfl
@[simp] theorem State.withA_pads (s : State) (v : Byte) : (s.withA v).pads = s.pads := rfl
@[simp] theorem State.withA_ppu (s : State) (v : Byte) : (s.withA v).ppu = s.ppu := rfl
@[simp] theorem State.withA_apu (s : State) (v : Byte) : (s.withA v).apu = s.apu := rfl
@[simp] theorem State.withA_cart (s : State) (v : Byte) : (s.withA v).cart = s.cart := rfl
@[simp] theorem State.withA_undocPolicy (s : State) (v : Byte) : (s.withA v).undocPolicy = s.undocPolicy := rfl
@[simp] theorem State.withA_memByte (s : State) (v : Byte) (b : Addr) : (s.withA v).memByte b = s.memByte b := rfl

@[simp] theorem State.withX_cpu (s : State) (v : Byte) : (s.withX v).cpu = { s.cpu with x := v } := rfl
@[simp] theorem State.withX_a (s : State) (v : Byte) : (s.withX v).a = s.a := rfl
@[simp] theorem State.withX_x (s : State) (v : Byte) : (s.withX v).x = v := rfl
@[simp] theorem State.withX_y (s : State) (v : Byte) : (s.withX v).y = s.y := rfl
@[simp] theorem State.withX_sp (s : State) (v : Byte) : (s.withX v).sp = s.sp := rfl
@[simp] theorem State.withX_pc (s : State) (v : Byte) : (s.withX v).pc = s.pc := rfl
@[simp] theorem State.withX_p (s : State) (v : Byte) : (s.withX v).p = s.p := rfl
@[simp] theorem State.withX_jammed (s : State) (v : Byte) : (s.withX v).jammed = s.jammed := rfl
@[simp] theorem State.withX_resetPending (s : State) (v : Byte) : (s.withX v).resetPending = s.resetPending := rfl
@[simp] theorem State.withX_nmiPending (s : State) (v : Byte) : (s.withX v).nmiPending = s.nmiPending := rfl
@[simp] theorem State.withX_busLatch (s : State) (v : Byte) : (s.withX v).busLatch = s.busLatch := rfl
@[simp] theorem State.withX_cycles (s : State) (v : Byte) : (s.withX v).cycles = s.cycles := rfl
@[simp] theorem State.withX_ram (s : State) (v : Byte) : (s.withX v).ram = s.ram := rfl
@[simp] theorem State.withX_dma (s : State) (v : Byte) : (s.withX v).dma = s.dma := rfl
@[simp] theorem State.withX_pads (s : State) (v : Byte) : (s.withX v).pads = s.pads := rfl
@[simp] theorem State.withX_ppu (s : State) (v : Byte) : (s.withX v).ppu = s.ppu := rfl
@[simp] theorem State.withX_apu (s : State) (v : Byte) : (s.withX v).apu = s.apu := rfl
@[simp] theorem State.withX_cart (s : State) (v : Byte) : (s.withX v).cart = s.cart := rfl
@[simp] theorem State.withX_undocPolicy (s : State) (v : Byte) : (s.withX v).undocPolicy = s.undocPolicy := rfl
@[simp] theorem State.withX_memByte (s : State) (v : Byte) (b : Addr) : (s.withX v).memByte b = s.memByte b := rfl

/-- `NZ` on a load of A, X or Y is two updates. -/
theorem State.setA_eq (s : State) (v : Byte) : s.setA v = (s.withA v).withP (s.p.nz v) := rfl

@[simp] theorem State.setA_cpu (s : State) (v : Byte) : (s.setA v).cpu = { s.cpu with a := v, p := s.p.nz v } := rfl
@[simp] theorem State.setX_cpu (s : State) (v : Byte) : (s.setX v).cpu = { s.cpu with x := v, p := s.p.nz v } := rfl
@[simp] theorem State.setY_cpu (s : State) (v : Byte) : (s.setY v).cpu = { s.cpu with y := v, p := s.p.nz v } := rfl
@[simp] theorem State.addA_cpu (s : State) (m : Byte) :
    (s.addA m).cpu = { s.cpu with a := (addCore s.a m s.p).1, p := (addCore s.a m s.p).2 } := rfl
@[simp] theorem State.compare_cpu (s : State) (r m : Byte) :
    (s.compare r m).cpu = { s.cpu with p := compareCore r m s.p } := rfl
@[simp] theorem State.jam_cpu (s : State) : s.jam.cpu = { s.cpu with jammed := true } := rfl
@[simp] theorem State.clearNmi_cpu (s : State) : s.clearNmi.cpu = s.cpu := rfl

/-! ### The flags -/

@[simp] theorem Flags.nz_n (p : Flags) (v : Byte) : (p.nz v).n = v.getLsbD 7 := rfl
@[simp] theorem Flags.nz_v (p : Flags) (v : Byte) : (p.nz v).v = p.v := rfl
@[simp] theorem Flags.nz_d (p : Flags) (v : Byte) : (p.nz v).d = p.d := rfl
@[simp] theorem Flags.nz_i (p : Flags) (v : Byte) : (p.nz v).i = p.i := rfl
@[simp] theorem Flags.nz_z (p : Flags) (v : Byte) : (p.nz v).z = (v == 0) := rfl
@[simp] theorem Flags.nz_c (p : Flags) (v : Byte) : (p.nz v).c = p.c := rfl

/-! ### The clock, part by part -/

@[simp] theorem State.ppuDot_a (s : State) : s.ppuDot.a = s.a := by simp only [State.ppuDot]
@[simp] theorem State.ppuDot_x (s : State) : s.ppuDot.x = s.x := by simp only [State.ppuDot]
@[simp] theorem State.ppuDot_y (s : State) : s.ppuDot.y = s.y := by simp only [State.ppuDot]
@[simp] theorem State.ppuDot_sp (s : State) : s.ppuDot.sp = s.sp := by simp only [State.ppuDot]
@[simp] theorem State.ppuDot_pc (s : State) : s.ppuDot.pc = s.pc := by simp only [State.ppuDot]
@[simp] theorem State.ppuDot_p (s : State) : s.ppuDot.p = s.p := by simp only [State.ppuDot]
@[simp] theorem State.ppuDot_jammed (s : State) : s.ppuDot.jammed = s.jammed := by simp only [State.ppuDot]
@[simp] theorem State.ppuDot_resetPending (s : State) : s.ppuDot.resetPending = s.resetPending := by simp only [State.ppuDot]
@[simp] theorem State.ppuDot_busLatch (s : State) : s.ppuDot.busLatch = s.busLatch := by simp only [State.ppuDot]
@[simp] theorem State.ppuDot_cycles (s : State) : s.ppuDot.cycles = s.cycles := by simp only [State.ppuDot]
@[simp] theorem State.ppuDot_ram (s : State) : s.ppuDot.ram = s.ram := by simp only [State.ppuDot]
@[simp] theorem State.ppuDot_dma (s : State) : s.ppuDot.dma = s.dma := by simp only [State.ppuDot]
@[simp] theorem State.ppuDot_pads (s : State) : s.ppuDot.pads = s.pads := by simp only [State.ppuDot]
@[simp] theorem State.ppuDot_apu (s : State) : s.ppuDot.apu = s.apu := by simp only [State.ppuDot]
@[simp] theorem State.ppuDot_undocPolicy (s : State) : s.ppuDot.undocPolicy = s.undocPolicy := by simp only [State.ppuDot]
@[simp] theorem State.apuStep_a (s : State) : s.apuStep.a = s.a := by simp only [State.apuStep]
@[simp] theorem State.apuStep_x (s : State) : s.apuStep.x = s.x := by simp only [State.apuStep]
@[simp] theorem State.apuStep_y (s : State) : s.apuStep.y = s.y := by simp only [State.apuStep]
@[simp] theorem State.apuStep_sp (s : State) : s.apuStep.sp = s.sp := by simp only [State.apuStep]
@[simp] theorem State.apuStep_pc (s : State) : s.apuStep.pc = s.pc := by simp only [State.apuStep]
@[simp] theorem State.apuStep_p (s : State) : s.apuStep.p = s.p := by simp only [State.apuStep]
@[simp] theorem State.apuStep_jammed (s : State) : s.apuStep.jammed = s.jammed := by simp only [State.apuStep]
@[simp] theorem State.apuStep_resetPending (s : State) : s.apuStep.resetPending = s.resetPending := by simp only [State.apuStep]
@[simp] theorem State.apuStep_busLatch (s : State) : s.apuStep.busLatch = s.busLatch := by simp only [State.apuStep]
@[simp] theorem State.apuStep_cycles (s : State) : s.apuStep.cycles = s.cycles := by simp only [State.apuStep]
@[simp] theorem State.apuStep_ram (s : State) : s.apuStep.ram = s.ram := by simp only [State.apuStep]
@[simp] theorem State.apuStep_pads (s : State) : s.apuStep.pads = s.pads := by simp only [State.apuStep]
@[simp] theorem State.apuStep_ppu (s : State) : s.apuStep.ppu = s.ppu := by simp only [State.apuStep]
@[simp] theorem State.apuStep_cart (s : State) : s.apuStep.cart = s.cart := by simp only [State.apuStep]
@[simp] theorem State.apuStep_undocPolicy (s : State) : s.apuStep.undocPolicy = s.undocPolicy := by simp only [State.apuStep]
@[simp] theorem State.apuStep_nmiPending (s : State) : s.apuStep.nmiPending = s.nmiPending := by simp only [State.apuStep]
@[simp] theorem State.apuStep_oamPending (s : State) : s.apuStep.dma.oamPending = s.dma.oamPending := by simp only [State.apuStep]
@[simp] theorem State.apuStep_oamPage (s : State) : s.apuStep.dma.oamPage = s.dma.oamPage := by simp only [State.apuStep]
@[simp] theorem State.countCycle_a (s : State) : s.countCycle.a = s.a := rfl
@[simp] theorem State.countCycle_x (s : State) : s.countCycle.x = s.x := rfl
@[simp] theorem State.countCycle_y (s : State) : s.countCycle.y = s.y := rfl
@[simp] theorem State.countCycle_sp (s : State) : s.countCycle.sp = s.sp := rfl
@[simp] theorem State.countCycle_pc (s : State) : s.countCycle.pc = s.pc := rfl
@[simp] theorem State.countCycle_p (s : State) : s.countCycle.p = s.p := rfl
@[simp] theorem State.countCycle_jammed (s : State) : s.countCycle.jammed = s.jammed := rfl
@[simp] theorem State.countCycle_resetPending (s : State) : s.countCycle.resetPending = s.resetPending := rfl
@[simp] theorem State.countCycle_nmiPending (s : State) : s.countCycle.nmiPending = s.nmiPending := rfl
@[simp] theorem State.countCycle_busLatch (s : State) : s.countCycle.busLatch = s.busLatch := rfl
@[simp] theorem State.countCycle_ram (s : State) : s.countCycle.ram = s.ram := rfl
@[simp] theorem State.countCycle_dma (s : State) : s.countCycle.dma = s.dma := rfl
@[simp] theorem State.countCycle_pads (s : State) : s.countCycle.pads = s.pads := rfl
@[simp] theorem State.countCycle_ppu (s : State) : s.countCycle.ppu = s.ppu := rfl
@[simp] theorem State.countCycle_apu (s : State) : s.countCycle.apu = s.apu := rfl
@[simp] theorem State.countCycle_cart (s : State) : s.countCycle.cart = s.cart := rfl
@[simp] theorem State.countCycle_undocPolicy (s : State) : s.countCycle.undocPolicy = s.undocPolicy := rfl
@[simp] theorem State.countCycle_cycles (s : State) : s.countCycle.cycles = s.cycles + 1 := rfl

/-! ### A tick: what the clock does not touch -/

@[simp] theorem State.tick_a (s : State) : s.tick.a = s.a := by simp [State.tick]
@[simp] theorem State.tick_x (s : State) : s.tick.x = s.x := by simp [State.tick]
@[simp] theorem State.tick_y (s : State) : s.tick.y = s.y := by simp [State.tick]
@[simp] theorem State.tick_sp (s : State) : s.tick.sp = s.sp := by simp [State.tick]
@[simp] theorem State.tick_pc (s : State) : s.tick.pc = s.pc := by simp [State.tick]
@[simp] theorem State.tick_p (s : State) : s.tick.p = s.p := by simp [State.tick]
@[simp] theorem State.tick_jammed (s : State) : s.tick.jammed = s.jammed := by simp [State.tick]
@[simp] theorem State.tick_resetPending (s : State) : s.tick.resetPending = s.resetPending := by simp [State.tick]
@[simp] theorem State.tick_busLatch (s : State) : s.tick.busLatch = s.busLatch := by simp [State.tick]
@[simp] theorem State.tick_ram (s : State) : s.tick.ram = s.ram := by simp [State.tick]
@[simp] theorem State.tick_pads (s : State) : s.tick.pads = s.pads := by simp [State.tick]
@[simp] theorem State.tick_undocPolicy (s : State) : s.tick.undocPolicy = s.undocPolicy := by simp [State.tick]
@[simp] theorem State.tick_oamPending (s : State) : s.tick.dma.oamPending = s.dma.oamPending := by simp [State.tick]
@[simp] theorem State.tick_oamPage (s : State) : s.tick.dma.oamPage = s.dma.oamPage := by simp [State.tick]
@[simp] theorem State.tick_cycles (s : State) : s.tick.cycles = s.cycles + 1 := by simp [State.tick]
@[simp] theorem State.tick_cpu (s : State) : s.tick.cpu = s.cpu := by simp [State.cpu]

/-! ### The data bus and the DMA's updates -/

@[simp] theorem State.latch_a (s : State) (b : Byte) : (s.latch b).a = s.a := rfl
@[simp] theorem State.latch_x (s : State) (b : Byte) : (s.latch b).x = s.x := rfl
@[simp] theorem State.latch_y (s : State) (b : Byte) : (s.latch b).y = s.y := rfl
@[simp] theorem State.latch_sp (s : State) (b : Byte) : (s.latch b).sp = s.sp := rfl
@[simp] theorem State.latch_pc (s : State) (b : Byte) : (s.latch b).pc = s.pc := rfl
@[simp] theorem State.latch_p (s : State) (b : Byte) : (s.latch b).p = s.p := rfl
@[simp] theorem State.latch_jammed (s : State) (b : Byte) : (s.latch b).jammed = s.jammed := rfl
@[simp] theorem State.latch_resetPending (s : State) (b : Byte) : (s.latch b).resetPending = s.resetPending := rfl
@[simp] theorem State.latch_nmiPending (s : State) (b : Byte) : (s.latch b).nmiPending = s.nmiPending := rfl
@[simp] theorem State.latch_cycles (s : State) (b : Byte) : (s.latch b).cycles = s.cycles := rfl
@[simp] theorem State.latch_ram (s : State) (b : Byte) : (s.latch b).ram = s.ram := rfl
@[simp] theorem State.latch_dma (s : State) (b : Byte) : (s.latch b).dma = s.dma := rfl
@[simp] theorem State.latch_pads (s : State) (b : Byte) : (s.latch b).pads = s.pads := rfl
@[simp] theorem State.latch_ppu (s : State) (b : Byte) : (s.latch b).ppu = s.ppu := rfl
@[simp] theorem State.latch_apu (s : State) (b : Byte) : (s.latch b).apu = s.apu := rfl
@[simp] theorem State.latch_cart (s : State) (b : Byte) : (s.latch b).cart = s.cart := rfl
@[simp] theorem State.latch_undocPolicy (s : State) (b : Byte) : (s.latch b).undocPolicy = s.undocPolicy := rfl
@[simp] theorem State.latch_busLatch (s : State) (b : Byte) : (s.latch b).busLatch = b := rfl
@[simp] theorem State.latch_cpu (s : State) (b : Byte) : (s.latch b).cpu = s.cpu := rfl
@[simp] theorem State.dmaPut_cpu (s : State) (b : Byte) : (s.dmaPut b).cpu = s.cpu := rfl
@[simp] theorem State.dmcDeliver_cpu (s : State) (b : Byte) : (s.dmcDeliver b).cpu = s.cpu := rfl
@[simp] theorem State.oamDmaStart_cpu (s : State) : s.oamDmaStart.cpu = s.cpu := rfl
@[simp] theorem State.oamDmaRequest_cpu (s : State) (v : Byte) : (s.oamDmaRequest v).cpu = s.cpu := rfl
@[simp] theorem State.oamDmaRequest_pending (s : State) (v : Byte) : (s.oamDmaRequest v).dma.oamPending = true := rfl
@[simp] theorem State.oamDmaRequest_page (s : State) (v : Byte) : (s.oamDmaRequest v).dma.oamPage = v := rfl
@[simp] theorem Dma.reset_oamPending (d : Dma) : d.reset.oamPending = false := rfl
@[simp] theorem Dma.reset_dmcPending (d : Dma) : d.reset.dmcPending = false := rfl
@[simp] theorem Dma.reset_oamPage (d : Dma) : d.reset.oamPage = d.oamPage := rfl
@[simp] theorem Dma.reset_powerOn : Dma.powerOn.reset = .powerOn := rfl

end Sys2Proof.Machine
end

