-- ==== Sys2Proof/Laws/Bus.lean ====
section
/-!
SUPPORT. Laws of the bus cycle: one lemma per shared operation that says everything it can do to the CPU, to memory and to what
programs set in the devices. Callers cite these and unfold none of the operations.
-/

namespace Sys2Proof.Machine

/-! ### Relations between the state before and after -/

/-- Nothing was stored: the CPU, its memory, and what programs and the host set are as before, and a latched NMI is not
lost. OAM and the running parts of the devices may have moved. -/
structure Calm (s t : State) : Prop where
  cpu : t.cpu = s.cpu
  ram : t.ram = s.ram
  known : t.cart.known = s.cart.known
  ppu : t.ppu.settings = s.ppu.settings
  apu : t.apu.settings = s.apu.settings
  strobe : t.pads.strobe = s.pads.strobe
  buttons0 : t.pads.buttons0 = s.pads.buttons0
  buttons1 : t.pads.buttons1 = s.pads.buttons1
  policy : t.undocPolicy = s.undocPolicy
  nmi : s.nmiPending = true → t.nmiPending = true

/-- No OAM DMA pending before: none after, and OAM is as before. -/
structure OamKept (s t : State) : Prop where
  kept : s.dma.oamPending = false → t.dma.oamPending = false ∧ t.ppu.oam = s.ppu.oam

theorem Calm.refl (s : State) : Calm s s := ⟨rfl, rfl, rfl, rfl, rfl, rfl, rfl, rfl, rfl, id⟩

theorem Calm.trans {s t u : State} (h : Calm s t) (k : Calm t u) : Calm s u :=
  ⟨k.cpu.trans h.cpu, k.ram.trans h.ram, k.known.trans h.known, k.ppu.trans h.ppu, k.apu.trans h.apu,
    k.strobe.trans h.strobe, k.buttons0.trans h.buttons0, k.buttons1.trans h.buttons1, k.policy.trans h.policy,
    fun n => k.nmi (h.nmi n)⟩

theorem OamKept.refl (s : State) : OamKept s s := ⟨fun h => ⟨h, rfl⟩⟩

theorem OamKept.trans {s t u : State} (h : OamKept s t) (k : OamKept t u) : OamKept s u :=
  ⟨fun hs => ⟨(k.kept (h.kept hs).1).1, (k.kept (h.kept hs).1).2.trans (h.kept hs).2⟩⟩

/-- Plain memory is a function of RAM and of what the model knows of the cartridge. -/
theorem State.memByte_congr {s t : State} (hr : t.ram = s.ram) (hc : t.cart.known = s.cart.known) (a : Addr) :
    t.memByte a = s.memByte a := by
  unfold State.memByte State.ramByte
  rw [hr, Cart.memByte_congr hc]

theorem Calm.memByte {s t : State} (h : Calm s t) (a : Addr) : t.memByte a = s.memByte a :=
  State.memByte_congr h.ram h.known a

theorem Calm.programmed {s t : State} (h : Calm s t) : t.programmed = s.programmed := by
  unfold State.programmed
  rw [h.ppu, h.apu, h.strobe, Cart.settings_congr h.known]

theorem Calm.storesOnly {s t : State} (h : Calm s t) (k : OamKept s t) (l : List Addr) : StoresOnly l s t :=
  ⟨fun a _ => h.memByte a, fun _ => ⟨h.programmed, k.kept⟩, ⟨h.policy, h.buttons0, h.buttons1⟩, h.nmi⟩

theorem StoresOnly.refl (s : State) : StoresOnly [] s s := (Calm.refl s).storesOnly (OamKept.refl s) []

theorem StoresOnly.trans {l m : List Addr} {s t u : State} (h : StoresOnly l s t) (k : StoresOnly m t u) :
    StoresOnly (l ++ m) s u := by
  obtain ⟨h1, h2, h3, h4⟩ := h
  obtain ⟨k1, k2, k3, k4⟩ := k
  refine ⟨fun a ha => ?_, fun hd => ?_, ?_, fun n => k4 (h4 n)⟩
  · rw [k1 a fun e he => ha e (List.mem_append.2 (Or.inr he)), h1 a fun e he => ha e (List.mem_append.2 (Or.inl he))]
  · have hh := h2 fun e he => hd e (List.mem_append.2 (Or.inl he))
    have hk := k2 fun e he => hd e (List.mem_append.2 (Or.inr he))
    exact ⟨hk.1.trans hh.1, (OamKept.trans (s := s) (t := t) ⟨hh.2⟩ ⟨hk.2⟩).kept⟩
  · exact ⟨k3.1.trans h3.1, k3.2.1.trans h3.2.1, k3.2.2.trans h3.2.2⟩

theorem StoresOnly.mono {l m : List Addr} {s t : State} (h : StoresOnly l s t) (hs : ∀ e ∈ l, e ∈ m) :
    StoresOnly m s t :=
  ⟨fun a ha => h.1 a fun e he => ha e (hs e he), fun hd => h.2.1 fun e he => hd e (hs e he), h.2.2⟩

/-- A change of registers and latches alone stores nothing. -/
theorem StoresOnly.of_cpu {l : List Addr} {s t u : State} (h : StoresOnly l s t) (hr : u.ram = t.ram) (hc : u.cart = t.cart)
    (hp : u.ppu = t.ppu) (ha : u.apu = t.apu) (hk : u.pads = t.pads) (hd : u.dma = t.dma)
    (ho : u.undocPolicy = t.undocPolicy) (hn : u.nmiPending = t.nmiPending) : StoresOnly l s u := by
  have hm : ∀ a, u.memByte a = t.memByte a := State.memByte_congr hr (by rw [hc])
  have hg : u.programmed = t.programmed := by unfold State.programmed; rw [hp, ha, hk, hc]
  obtain ⟨h1, h2, h3, h4⟩ := h
  refine ⟨fun a h => (hm a).trans (h1 a h), fun h => ?_, ?_, fun h => by rw [hn]; exact h4 h⟩
  · rw [hg, hd, hp]; exact h2 h
  · rw [ho, hk]; exact h3

/-! ### A tick -/

theorem calm_ppuDot (s : State) : Calm s s.ppuDot where
  cpu := by simp [State.cpu]
  ram := by simp
  known := by simp [State.ppuDot]
  ppu := by simp [State.ppuDot]
  apu := by simp
  strobe := by simp
  buttons0 := by simp
  buttons1 := by simp
  policy := by simp
  nmi := fun h => by simp [State.ppuDot, h]

theorem oamKept_ppuDot (s : State) : OamKept s s.ppuDot :=
  ⟨fun h => ⟨by simpa using h, by simp [State.ppuDot]⟩⟩

theorem calm_apuStep (s : State) : Calm s s.apuStep where
  cpu := by simp [State.cpu]
  ram := by simp
  known := by simp
  ppu := by simp
  apu := by simp [State.apuStep]
  strobe := by simp
  buttons0 := by simp
  buttons1 := by simp
  policy := by simp
  nmi := fun h => by simpa using h

theorem oamKept_apuStep (s : State) : OamKept s s.apuStep := ⟨fun h => ⟨by simpa using h, by simp⟩⟩

theorem calm_countCycle (s : State) : Calm s s.countCycle := ⟨rfl, rfl, rfl, rfl, rfl, rfl, rfl, rfl, rfl, id⟩

theorem calm_latch (s : State) (b : Byte) : Calm s (s.latch b) := ⟨rfl, rfl, rfl, rfl, rfl, rfl, rfl, rfl, rfl, id⟩

theorem calm_tick (s : State) : Calm s s.tick :=
  ((((calm_ppuDot s).trans (calm_ppuDot _)).trans (calm_ppuDot _)).trans (calm_apuStep _)).trans (calm_countCycle _)

theorem oamKept_countCycle (s : State) : OamKept s s.countCycle := ⟨fun h => ⟨h, rfl⟩⟩

theorem oamKept_latch (s : State) (b : Byte) : OamKept s (s.latch b) := ⟨fun h => ⟨h, rfl⟩⟩

theorem oamKept_tick (s : State) : OamKept s s.tick :=
  ((((oamKept_ppuDot s).trans (oamKept_ppuDot _)).trans (oamKept_ppuDot _)).trans (oamKept_apuStep _)).trans
    (oamKept_countCycle _)

theorem calm_idle (s : State) (n : Nat) : Calm s (s.idle n) := by
  induction n generalizing s with
  | zero => exact Calm.refl s
  | succ n ih => exact (calm_tick s).trans (ih s.tick)

theorem oamKept_idle (s : State) (n : Nat) : OamKept s (s.idle n) := by
  induction n generalizing s with
  | zero => exact OamKept.refl s
  | succ n ih => exact (oamKept_tick s).trans (ih s.tick)

/-! ### Reads -/

@[simp] theorem settings_readData (p : Ppu) (c : Cart) : (readData p c).2.1.settings = p.settings := by
  unfold readData
  dsimp only
  split <;> rfl

@[simp] theorem oam_readData (p : Ppu) (c : Cart) : (readData p c).2.1.oam = p.oam := by
  unfold readData
  dsimp only
  split <;> rfl

@[simp] theorem known_readData (p : Ppu) (c : Cart) : (readData p c).2.2.known = c.known := by
  unfold readData
  dsimp only
  split <;> exact known_ppuBusRead ..

@[simp] theorem settings_ppuRegRead (p : Ppu) (c : Cart) (r : Nat) : (ppuRegRead p c r).2.1.settings = p.settings := by
  unfold ppuRegRead
  split
  · rfl
  · rfl
  · exact settings_readData p c
  · rfl

@[simp] theorem oam_ppuRegRead (p : Ppu) (c : Cart) (r : Nat) : (ppuRegRead p c r).2.1.oam = p.oam := by
  unfold ppuRegRead
  split
  · rfl
  · rfl
  · exact oam_readData p c
  · rfl

@[simp] theorem known_ppuRegRead (p : Ppu) (c : Cart) (r : Nat) : (ppuRegRead p c r).2.2.known = c.known := by
  unfold ppuRegRead
  split
  · rfl
  · rfl
  · exact known_readData p c
  · rfl

/-- A controller read moves a shift register only (63 R672). -/
theorem Pads.read_kept (k : Pads) (port1 : Bool) (l : Byte) :
    (k.read port1 l).2.strobe = k.strobe ∧ (k.read port1 l).2.buttons0 = k.buttons0
      ∧ (k.read port1 l).2.buttons1 = k.buttons1 := by
  unfold Pads.read
  dsimp only
  repeat' split
  all_goals exact ⟨rfl, rfl, rfl⟩

theorem calm_busRead (s : State) (a : Addr) : Calm s (s.busRead a).2 := by
  unfold State.busRead
  split
  · exact Calm.refl s
  split
  · exact ⟨rfl, rfl, known_ppuRegRead .., settings_ppuRegRead .., rfl, rfl, rfl, rfl, rfl, id⟩
  split
  · exact Calm.refl s
  split
  · exact ⟨rfl, rfl, rfl, rfl, rfl, rfl, rfl, rfl, rfl, id⟩
  split
  · have hk := Pads.read_kept s.pads (a.toNat == 0x4017) s.busLatch
    exact ⟨rfl, rfl, rfl, rfl, rfl, hk.1, hk.2.1, hk.2.2, rfl, id⟩
  split
  · exact Calm.refl s
  · exact ⟨rfl, rfl, Cart.known_cpuRead .., rfl, rfl, rfl, rfl, rfl, rfl, id⟩

theorem oamKept_busRead (s : State) (a : Addr) : OamKept s (s.busRead a).2 := by
  unfold State.busRead
  repeat' split
  all_goals first | exact ⟨fun h => ⟨h, rfl⟩⟩ | exact ⟨fun h => ⟨h, oam_ppuRegRead ..⟩⟩

/-- A bus read of plain memory delivers its byte. -/
theorem busRead_of_memByte {s : State} {a : Addr} {b : Byte} (h : s.memByte a = some b) : (s.busRead a).1 = b := by
  unfold State.memByte at h
  unfold State.busRead
  split at h
  · next ha => rw [if_pos ha]; simpa using h
  · next ha =>
    split at h
    · simp at h
    · next hb =>
      rw [if_neg ha, if_neg (by omega), if_neg (by omega), if_neg (by omega), if_neg (by omega), if_neg (by omega)]
      cases hc : s.cart with
      | external st => rw [hc] at h; simp [Cart.memByte] at h
      | nrom n =>
        rw [hc] at h
        change n.cpuRead a = some b at h
        change (n.cpuRead a).getD s.busLatch = b
        rw [h]
        rfl

theorem calm_readAndTick (s : State) (a : Addr) : Calm s (s.readAndTick a).2 :=
  ((calm_busRead s a).trans (calm_latch _ _)).trans (calm_tick _)

theorem oamKept_readAndTick (s : State) (a : Addr) : OamKept s (s.readAndTick a).2 :=
  ((oamKept_busRead s a).trans (oamKept_latch _ _)).trans (oamKept_tick _)

theorem readAndTick_of_memByte {s : State} {a : Addr} {b : Byte} (h : s.memByte a = some b) : (s.readAndTick a).1 = b := by
  simp only [State.readAndTick]
  exact busRead_of_memByte h

/-! ### DMA -/

theorem calm_dmcDeliver (s : State) (b : Byte) : Calm s (s.dmcDeliver b) :=
  ⟨rfl, rfl, rfl, rfl, by simp [State.dmcDeliver, Apu.settings], rfl, rfl, rfl, rfl, id⟩

theorem oamKept_dmcDeliver (s : State) (b : Byte) : OamKept s (s.dmcDeliver b) := ⟨fun h => ⟨h, rfl⟩⟩

theorem calm_serveDmc (s : State) : Calm s s.serveDmc := by
  simp only [State.serveDmc]
  exact ((calm_idle s _).trans (calm_readAndTick _ _)).trans (calm_dmcDeliver _ _)

theorem oamKept_serveDmc (s : State) : OamKept s s.serveDmc := by
  simp only [State.serveDmc]
  exact ((oamKept_idle s _).trans (oamKept_readAndTick _ _)).trans (oamKept_dmcDeliver _ _)

theorem calm_dmaPut (s : State) (b : Byte) : Calm s (s.dmaPut b) := ⟨rfl, rfl, rfl, rfl, rfl, rfl, rfl, rfl, rfl, id⟩

theorem calm_dmaWriteOam (s : State) (b : Byte) : Calm s (s.dmaWriteOam b) :=
  ((calm_dmaPut s b).trans (calm_latch _ _)).trans (calm_tick _)

theorem calm_oamCopy (s : State) (page : Byte) (n : Nat) : Calm s (s.oamCopy page n) := by
  induction n generalizing s with
  | zero => exact Calm.refl s
  | succ n ih =>
    simp only [State.oamCopy]
    exact ((calm_readAndTick _ _).trans (calm_dmaWriteOam _ _)).trans (ih _)

theorem calm_oamDmaStart (s : State) : Calm s s.oamDmaStart := ⟨rfl, rfl, rfl, rfl, rfl, rfl, rfl, rfl, rfl, id⟩

theorem calm_serveOam (s : State) : Calm s s.serveOam :=
  ((calm_oamDmaStart s).trans (calm_idle _ _)).trans (calm_oamCopy _ _ _)

theorem calm_serveDmcIfPending (s : State) : Calm s s.serveDmcIfPending := by
  unfold State.serveDmcIfPending
  split
  · exact calm_serveDmc s
  · exact Calm.refl s

theorem oamKept_serveDmcIfPending (s : State) : OamKept s s.serveDmcIfPending := by
  unfold State.serveDmcIfPending
  split
  · exact oamKept_serveDmc s
  · exact OamKept.refl s

theorem calm_serveOamIfPending (s : State) : Calm s s.serveOamIfPending := by
  unfold State.serveOamIfPending
  split
  · exact calm_serveOam s
  · exact Calm.refl s

theorem oamKept_serveOamIfPending (s : State) : OamKept s s.serveOamIfPending :=
  ⟨fun h => by simp [State.serveOamIfPending, h]⟩

/-- DMA moves OAM, the devices and the clock: nothing of the CPU or its memory. -/
theorem calm_serviceDma (s : State) : Calm s s.serviceDma :=
  ((calm_serveDmcIfPending s).trans (calm_serveOamIfPending _)).trans (calm_serveDmcIfPending _)

theorem oamKept_serviceDma (s : State) : OamKept s s.serviceDma :=
  ((oamKept_serveDmcIfPending s).trans (oamKept_serveOamIfPending _)).trans (oamKept_serveDmcIfPending _)

/-! ### CPU read cycles -/

theorem calm_memRead (s : State) (a : Addr) : Calm s (s.memRead a).2 :=
  (calm_serviceDma s).trans (calm_readAndTick _ a)

theorem oamKept_memRead (s : State) (a : Addr) : OamKept s (s.memRead a).2 :=
  (oamKept_serviceDma s).trans (oamKept_readAndTick _ a)

theorem calm_dummyRead (s : State) (a : Addr) : Calm s (s.dummyRead a) := calm_memRead s a

theorem oamKept_dummyRead (s : State) (a : Addr) : OamKept s (s.dummyRead a) := oamKept_memRead s a

/-- A read cycle of plain memory delivers its byte, whatever DMA runs before it. -/
theorem memRead_of_memByte {s : State} {a : Addr} {b : Byte} (h : s.memByte a = some b) : (s.memRead a).1 = b :=
  readAndTick_of_memByte (by rw [(calm_serviceDma s).memByte]; exact h)

/-- A read cycle of internal RAM delivers its byte (20 R101). -/
theorem memRead_ram {s : State} {a : Addr} (h : a.toNat < 0x2000) : (s.memRead a).1 = s.ramByte a :=
  memRead_of_memByte (by simp [State.memByte, h])

@[simp] theorem memRead_cpu (s : State) (a : Addr) : (s.memRead a).2.cpu = s.cpu := (calm_memRead s a).cpu
@[simp] theorem memRead_a (s : State) (a : Addr) : (s.memRead a).2.a = s.a := congrArg CpuView.a (memRead_cpu s a)
@[simp] theorem memRead_x (s : State) (a : Addr) : (s.memRead a).2.x = s.x := congrArg CpuView.x (memRead_cpu s a)
@[simp] theorem memRead_y (s : State) (a : Addr) : (s.memRead a).2.y = s.y := congrArg CpuView.y (memRead_cpu s a)
@[simp] theorem memRead_sp (s : State) (a : Addr) : (s.memRead a).2.sp = s.sp := congrArg CpuView.sp (memRead_cpu s a)
@[simp] theorem memRead_pc (s : State) (a : Addr) : (s.memRead a).2.pc = s.pc := congrArg CpuView.pc (memRead_cpu s a)
@[simp] theorem memRead_p (s : State) (a : Addr) : (s.memRead a).2.p = s.p := congrArg CpuView.p (memRead_cpu s a)
@[simp] theorem memRead_memByte (s : State) (a b : Addr) : (s.memRead a).2.memByte b = s.memByte b :=
  (calm_memRead s a).memByte b
@[simp] theorem memRead_ramByte (s : State) (a b : Addr) : (s.memRead a).2.ramByte b = s.ramByte b := by
  unfold State.ramByte
  rw [(calm_memRead s a).ram]

@[simp] theorem dummyRead_cpu (s : State) (a : Addr) : (s.dummyRead a).cpu = s.cpu := memRead_cpu s a
@[simp] theorem dummyRead_a (s : State) (a : Addr) : (s.dummyRead a).a = s.a := memRead_a s a
@[simp] theorem dummyRead_x (s : State) (a : Addr) : (s.dummyRead a).x = s.x := memRead_x s a
@[simp] theorem dummyRead_y (s : State) (a : Addr) : (s.dummyRead a).y = s.y := memRead_y s a
@[simp] theorem dummyRead_sp (s : State) (a : Addr) : (s.dummyRead a).sp = s.sp := memRead_sp s a
@[simp] theorem dummyRead_pc (s : State) (a : Addr) : (s.dummyRead a).pc = s.pc := memRead_pc s a
@[simp] theorem dummyRead_p (s : State) (a : Addr) : (s.dummyRead a).p = s.p := memRead_p s a
@[simp] theorem dummyRead_memByte (s : State) (a b : Addr) : (s.dummyRead a).memByte b = s.memByte b :=
  memRead_memByte s a b
@[simp] theorem dummyRead_ramByte (s : State) (a b : Addr) : (s.dummyRead a).ramByte b = s.ramByte b :=
  memRead_ramByte s a b

/-! ### CPU write cycles -/

@[simp] theorem busWrite_cpu (s : State) (a : Addr) (v : Byte) : (s.busWrite a v).cpu = s.cpu := by
  unfold State.busWrite
  repeat' split
  all_goals rfl

theorem busWrite_a (s : State) (a : Addr) (v : Byte) : (s.busWrite a v).a = s.a :=
  congrArg CpuView.a (busWrite_cpu s a v)
theorem busWrite_x (s : State) (a : Addr) (v : Byte) : (s.busWrite a v).x = s.x :=
  congrArg CpuView.x (busWrite_cpu s a v)
theorem busWrite_y (s : State) (a : Addr) (v : Byte) : (s.busWrite a v).y = s.y :=
  congrArg CpuView.y (busWrite_cpu s a v)
theorem busWrite_sp (s : State) (a : Addr) (v : Byte) : (s.busWrite a v).sp = s.sp :=
  congrArg CpuView.sp (busWrite_cpu s a v)
theorem busWrite_pc (s : State) (a : Addr) (v : Byte) : (s.busWrite a v).pc = s.pc :=
  congrArg CpuView.pc (busWrite_cpu s a v)
theorem busWrite_p (s : State) (a : Addr) (v : Byte) : (s.busWrite a v).p = s.p :=
  congrArg CpuView.p (busWrite_cpu s a v)
theorem busWrite_jammed (s : State) (a : Addr) (v : Byte) : (s.busWrite a v).jammed = s.jammed :=
  congrArg CpuView.jammed (busWrite_cpu s a v)
theorem busWrite_resetPending (s : State) (a : Addr) (v : Byte) : (s.busWrite a v).resetPending = s.resetPending :=
  congrArg CpuView.resetPending (busWrite_cpu s a v)
@[simp] theorem memWrite_cpu (s : State) (a : Addr) (v : Byte) : (s.memWrite a v).cpu = s.cpu := by
  simp [State.memWrite, State.cpu, busWrite_a, busWrite_x, busWrite_y, busWrite_sp, busWrite_pc, busWrite_p, busWrite_jammed,
    busWrite_resetPending]
@[simp] theorem memWrite_a (s : State) (a : Addr) (v : Byte) : (s.memWrite a v).a = s.a :=
  congrArg CpuView.a (memWrite_cpu s a v)
@[simp] theorem memWrite_x (s : State) (a : Addr) (v : Byte) : (s.memWrite a v).x = s.x :=
  congrArg CpuView.x (memWrite_cpu s a v)
@[simp] theorem memWrite_y (s : State) (a : Addr) (v : Byte) : (s.memWrite a v).y = s.y :=
  congrArg CpuView.y (memWrite_cpu s a v)
@[simp] theorem memWrite_sp (s : State) (a : Addr) (v : Byte) : (s.memWrite a v).sp = s.sp :=
  congrArg CpuView.sp (memWrite_cpu s a v)
@[simp] theorem memWrite_pc (s : State) (a : Addr) (v : Byte) : (s.memWrite a v).pc = s.pc :=
  congrArg CpuView.pc (memWrite_cpu s a v)
@[simp] theorem memWrite_p (s : State) (a : Addr) (v : Byte) : (s.memWrite a v).p = s.p :=
  congrArg CpuView.p (memWrite_cpu s a v)

theorem known_nametableWrite (p : Ppu) (c : Cart) (a : BitVec 14) (v : Byte) (b : Addr) :
    ((nametableWrite p c a v).2.known.bind fun n => n.cpuRead b) = c.known.bind fun n => n.cpuRead b := by
  unfold nametableWrite
  split
  · rfl
  · cases c with
    | external st => rfl
    | nrom n =>
      simp only [Cart.ppuWrite, Cart.known, Option.bind_some]
      unfold Nrom.ppuWrite
      repeat' split
      all_goals rfl

/-- A PPU register write touches no CPU memory of the cartridge. -/
theorem memByte_ppuRegWrite (p : Ppu) (c : Cart) (r : Nat) (v : Byte) (b : Addr) :
    (ppuRegWrite p c r v).2.memByte b = c.memByte b := by
  have hw : ∀ (q : Ppu) (a : BitVec 14), (ppuBusWrite q c a v).2.memByte b = c.memByte b := by
    intro q a
    unfold ppuBusWrite
    split
    · cases c with
      | external st => rfl
      | nrom n =>
        simp only [Cart.ppuWrite, Cart.memByte]
        unfold Nrom.ppuWrite
        repeat' split
        all_goals rfl
    · split
      · rw [Cart.memByte_eq, Cart.memByte_eq]; exact known_nametableWrite q c a v b
      · rfl
  unfold ppuRegWrite
  dsimp only
  repeat' split
  all_goals first | rfl | exact hw _ _

theorem isSome_known_ppuRegWrite (p : Ppu) (c : Cart) (r : Nat) (v : Byte) :
    (ppuRegWrite p c r v).2.known.isSome = c.known.isSome := by
  have hw : ∀ (d : Cart) (a : BitVec 14), (d.ppuWrite a v).known.isSome = d.known.isSome := by
    intro d a; cases d <;> rfl
  unfold ppuRegWrite writeData ppuBusWrite nametableWrite
  dsimp only
  repeat' split
  all_goals first | rfl | exact hw _ _

/-- The reference cartridge after a CPU write: only PRG-RAM takes it (63 R681). -/
theorem Nrom.cpuRead_cpuWrite (n : Nrom) (a b : Addr) (v : Byte) :
    (n.cpuWrite a v).cpuRead b =
      if b = a ∧ 0x6000 ≤ a.toNat ∧ a.toNat < 0x8000 then some v else n.cpuRead b := by
  by_cases ha : 0x6000 ≤ a.toNat ∧ a.toNat < 0x8000
  · by_cases hb : b = a
    · subst hb
      rw [if_pos ⟨rfl, ha⟩]
      simp only [Nrom.cpuWrite, if_pos ha, Nrom.cpuRead, if_neg (Nat.not_lt.2 ha.1), if_pos ha.2, memGet_memSet_same]
    · have hne : b.toNat ≠ a.toNat := fun e => hb (BitVec.eq_of_toNat_eq e)
      rw [if_neg (fun h => hb h.1)]
      simp only [Nrom.cpuWrite, if_pos ha, Nrom.cpuRead, Nrom.prgIndex]
      split
      · rfl
      · split
        · rw [memGet_memSet, if_neg (by omega)]
        · rfl
  · rw [if_neg (fun h => ha h.2)]
    simp only [Nrom.cpuWrite, if_neg ha]

theorem Cart.memByte_cpuWrite (c : Cart) (a b : Addr) (v : Byte) :
    (c.cpuWrite a v).memByte b =
      if b = a ∧ 0x6000 ≤ a.toNat ∧ a.toNat < 0x8000 ∧ c.known.isSome = true then some v else c.memByte b := by
  cases c with
  | external st => simp [Cart.cpuWrite, Cart.memByte, Cart.known]
  | nrom n =>
    change (n.cpuWrite a v).cpuRead b = _
    rw [Nrom.cpuRead_cpuWrite]
    simp [Cart.memByte, Cart.known]

theorem sameByte_comm (a b : Addr) : sameByte a b = sameByte b a := by
  unfold sameByte
  rw [Bool.beq_comm (a := a), Bool.beq_comm (a := ramIndex a), Bool.and_comm (decide (a.toNat < 0x2000))]

@[simp] theorem sameByte_self (a : Addr) : sameByte a a = true := by simp [sameByte]

theorem busWrite_ram (s : State) (a : Addr) (v : Byte) :
    (s.busWrite a v).ram = if a.toNat < 0x2000 then memSet s.ram (ramIndex a) v else s.ram := by
  unfold State.busWrite
  split
  · rfl
  · repeat' split
    all_goals rfl

theorem busWrite_cartByte (s : State) (a b : Addr) (v : Byte) :
    (s.busWrite a v).cart.memByte b
      = if 0x4020 ≤ a.toNat then (s.cart.cpuWrite a v).memByte b else s.cart.memByte b := by
  unfold State.busWrite
  repeat' split
  all_goals first
    | rfl
    | exact memByte_ppuRegWrite ..
    | (exfalso; omega)

/-- Memory after a write cycle: the byte written at every name of a writable address, the old byte everywhere else
(20 R102, R103). -/
theorem memByte_memWrite (s : State) (a b : Addr) (v : Byte) :
    (s.memWrite a v).memByte b = if s.writable a && sameByte a b then some v else s.memByte b := by
  have htick : (s.memWrite a v).memByte b = (s.busWrite a v).memByte b :=
    ((calm_latch (s.busWrite a v) v).trans (calm_tick _)).memByte b
  rw [htick]
  unfold State.memByte State.ramByte
  rw [busWrite_ram, busWrite_cartByte, Cart.memByte_cpuWrite]
  have heq : a = b → a.toNat = b.toNat := fun h => by rw [h]
  by_cases ha : a.toNat < 0x2000
  · have hw : s.writable a = true := by simp [State.writable, ha]
    rw [if_pos ha, if_neg (by omega : ¬ 0x4020 ≤ a.toNat), hw, Bool.true_and]
    by_cases hb : b.toNat < 0x2000
    · rw [if_pos hb, if_pos hb, memGet_memSet]
      by_cases hi : ramIndex b = ramIndex a
      · rw [if_pos hi, if_pos (by simp [sameByte, ha, hb, hi])]
      · rw [if_neg hi, if_neg]
        intro hs
        simp only [sameByte, Bool.or_eq_true, beq_iff_eq, Bool.and_eq_true, decide_eq_true_eq] at hs
        rcases hs with rfl | hs
        · exact hi rfl
        · exact hi hs.2.symm
    · have hs : sameByte a b = false := by
        simp only [sameByte, Bool.or_eq_false_iff, beq_eq_false_iff_ne, Bool.and_eq_false_iff, decide_eq_false_iff_not]
        exact ⟨fun h => by have := heq h; omega, Or.inl (Or.inr hb)⟩
      simp [hb, hs]
  · have hsame : sameByte a b = (a == b) := by simp [sameByte, ha]
    rw [if_neg ha, hsame]
    have hw : s.writable a = true ↔ (s.cart.known.isSome = true ∧ 0x6000 ≤ a.toNat) ∧ a.toNat < 0x8000 := by
      simp [State.writable, ha]
    by_cases hcond : (s.writable a && (a == b)) = true
    · rw [if_pos hcond]
      simp only [Bool.and_eq_true, beq_iff_eq, hw] at hcond
      have := heq hcond.2
      rw [if_neg (by omega), if_neg (by omega), if_pos (by omega), if_pos ⟨hcond.2.symm, by omega, by omega, hcond.1.1.1⟩]
    · rw [if_neg hcond]
      simp only [Bool.and_eq_true, beq_iff_eq, hw] at hcond
      split
      · rfl
      · split
        · rfl
        · split
          · rw [if_neg]
            rintro ⟨rfl, h1, h2, h3⟩
            exact hcond ⟨⟨⟨h3, h1⟩, h2⟩, rfl⟩
          · rfl

theorem settings_cpuWrite (c : Cart) (a : Addr) (v : Byte) : (c.cpuWrite a v).settings = c.settings := by
  cases c with
  | external st => rfl
  | nrom n =>
    simp only [Cart.cpuWrite, Cart.settings, Cart.known, Option.map_some]
    unfold Nrom.cpuWrite
    split <;> rfl

/-- A write cycle stores at its address only. -/
theorem storesOnly_memWrite (s : State) (a : Addr) (v : Byte) : StoresOnly [a] s (s.memWrite a v) := by
  refine ⟨fun b hb => ?_, fun hd => ?_, ?_, fun hn => ?_⟩
  · rw [memByte_memWrite, hb a (List.mem_singleton.2 rfl), Bool.and_false]
    rfl
  · have hda := hd a (List.mem_singleton.2 rfl)
    have ht := (calm_latch (s.busWrite a v) v).trans (calm_tick _)
    have ho := oamKept_tick ((s.busWrite a v).latch v)
    have hb : (s.busWrite a v).programmed = s.programmed ∧ (s.busWrite a v).dma = s.dma ∧ (s.busWrite a v).ppu = s.ppu := by
      simp only [deviceAddr, Bool.and_eq_false_iff, decide_eq_false_iff_not] at hda
      unfold State.busWrite
      by_cases h1 : a.toNat < 0x2000
      · rw [if_pos h1]; exact ⟨rfl, rfl, rfl⟩
      · have h2 : ¬ a.toNat < 0x4020 := by omega
        rw [if_neg h1, if_neg (by omega), if_neg (by omega), if_neg (by omega), if_neg (by omega), if_neg (by omega),
          if_neg (by omega), if_neg h2]
        refine ⟨?_, rfl, rfl⟩
        simp only [State.programmed, settings_cpuWrite]
    refine ⟨ht.programmed.trans hb.1, fun hp => ?_⟩
    have := ho.kept (by show (s.busWrite a v).dma.oamPending = false; rw [hb.2.1]; exact hp)
    refine ⟨this.1, this.2.trans ?_⟩
    show (s.busWrite a v).ppu.oam = s.ppu.oam
    rw [hb.2.2]
  · simp only [State.memWrite, State.tick_undocPolicy, State.tick_pads, State.latch_undocPolicy, State.latch_pads]
    unfold State.busWrite Pads.strobeWrite
    dsimp only
    repeat' split
    all_goals exact ⟨rfl, rfl, rfl⟩
  · refine ((calm_latch (s.busWrite a v) v).trans (calm_tick _)).nmi ?_
    show (s.busWrite a v).nmiPending = true
    unfold State.busWrite
    repeat' split
    all_goals exact hn

theorem storesOnly_memRead (s : State) (a : Addr) : StoresOnly [] s (s.memRead a).2 :=
  (calm_memRead s a).storesOnly (oamKept_memRead s a) []

theorem storesOnly_dummyRead (s : State) (a : Addr) : StoresOnly [] s (s.dummyRead a) := storesOnly_memRead s a

@[simp] theorem isSome_known_memWrite (s : State) (a : Addr) (v : Byte) :
    (s.memWrite a v).cart.known.isSome = s.cart.known.isSome := by
  have ht := ((calm_latch (s.busWrite a v) v).trans (calm_tick _)).known
  rw [show (s.memWrite a v).cart.known = (s.busWrite a v).cart.known from ht]
  unfold State.busWrite
  repeat' split
  all_goals first
    | rfl
    | exact isSome_known_ppuRegWrite ..
    | (show (s.cart.cpuWrite a v).known.isSome = _; cases s.cart <;> rfl)

end Sys2Proof.Machine
end

