-- ==== Sys2Proof/Laws/Operands.lean ====
section
/-!
SUPPORT. One lemma per shared operation above the bus cycle: the addressing templates, the stack, the vectors, the branch.
Each says what the operation answers, what it does to the CPU, and what it stores. Instructions cite these.
-/

namespace Sys2Proof.Machine

/-! ### Read cycles in a row -/

/-- Read cycles alone: nothing stored, the CPU as before. -/
structure Quiet (s t : State) : Prop where
  calm : Calm s t
  oam : OamKept s t

theorem Quiet.refl (s : State) : Quiet s s := ⟨Calm.refl s, OamKept.refl s⟩

theorem Quiet.trans {s t u : State} (h : Quiet s t) (k : Quiet t u) : Quiet s u :=
  ⟨h.calm.trans k.calm, h.oam.trans k.oam⟩

theorem Quiet.cpu {s t : State} (h : Quiet s t) : t.cpu = s.cpu := h.calm.cpu

theorem Quiet.storesOnly {s t : State} (h : Quiet s t) : StoresOnly [] s t := h.calm.storesOnly h.oam []

theorem Quiet.memByte {s t : State} (h : Quiet s t) (a : Addr) : t.memByte a = s.memByte a := h.calm.memByte a

theorem Quiet.ramByte {s t : State} (h : Quiet s t) (a : Addr) : t.ramByte a = s.ramByte a := by
  unfold State.ramByte
  rw [h.calm.ram]

theorem Quiet.writable {s t : State} (h : Quiet s t) (a : Addr) : t.writable a = s.writable a := by
  unfold State.writable
  rw [h.calm.known]

theorem quiet_memRead (s : State) (a : Addr) : Quiet s (s.memRead a).2 := ⟨calm_memRead s a, oamKept_memRead s a⟩

theorem quiet_dummyRead (s : State) (a : Addr) : Quiet s (s.dummyRead a) := quiet_memRead s a

theorem quiet_implied (s : State) : Quiet s s.implied := quiet_dummyRead s s.pc

/-! ### A change of the CPU's registers alone -/

/-- From `s` to `t` only the CPU's registers and its latches but the NMI one changed. -/
structure CpuOnly (s t : State) : Prop where
  ram : t.ram = s.ram
  cart : t.cart = s.cart
  ppu : t.ppu = s.ppu
  apu : t.apu = s.apu
  pads : t.pads = s.pads
  dma : t.dma = s.dma
  policy : t.undocPolicy = s.undocPolicy
  nmi : t.nmiPending = s.nmiPending
  cycles : t.cycles = s.cycles

theorem CpuOnly.refl (s : State) : CpuOnly s s := ⟨rfl, rfl, rfl, rfl, rfl, rfl, rfl, rfl, rfl⟩

theorem CpuOnly.trans {s t u : State} (h : CpuOnly s t) (k : CpuOnly t u) : CpuOnly s u :=
  ⟨k.ram.trans h.ram, k.cart.trans h.cart, k.ppu.trans h.ppu, k.apu.trans h.apu, k.pads.trans h.pads, k.dma.trans h.dma,
    k.policy.trans h.policy, k.nmi.trans h.nmi, k.cycles.trans h.cycles⟩

theorem CpuOnly.memByte {s t : State} (h : CpuOnly s t) (a : Addr) : t.memByte a = s.memByte a :=
  State.memByte_congr h.ram (by rw [h.cart]) a

theorem CpuOnly.writable {s t : State} (h : CpuOnly s t) (a : Addr) : t.writable a = s.writable a := by
  unfold State.writable
  rw [h.cart]

theorem CpuOnly.storesOnly {s t : State} (h : CpuOnly s t) : StoresOnly [] s t :=
  (StoresOnly.refl s).of_cpu h.ram h.cart h.ppu h.apu h.pads h.dma h.policy h.nmi

theorem StoresOnly.cpuOnly {l : List Addr} {s t u : State} (h : StoresOnly l s t) (k : CpuOnly t u) : StoresOnly l s u :=
  h.of_cpu k.ram k.cart k.ppu k.apu k.pads k.dma k.policy k.nmi

theorem StoresOnly.quiet {l : List Addr} {s t u : State} (h : StoresOnly l s t) (k : Quiet t u) : StoresOnly l s u := by
  simpa using h.trans k.storesOnly

theorem cpuOnly_withPc (s : State) (v : Addr) : CpuOnly s (s.withPc v) := ⟨rfl, rfl, rfl, rfl, rfl, rfl, rfl, rfl, rfl⟩
theorem cpuOnly_withSp (s : State) (v : Byte) : CpuOnly s (s.withSp v) := ⟨rfl, rfl, rfl, rfl, rfl, rfl, rfl, rfl, rfl⟩
theorem cpuOnly_withP (s : State) (v : Flags) : CpuOnly s (s.withP v) := ⟨rfl, rfl, rfl, rfl, rfl, rfl, rfl, rfl, rfl⟩
theorem cpuOnly_withA (s : State) (v : Byte) : CpuOnly s (s.withA v) := ⟨rfl, rfl, rfl, rfl, rfl, rfl, rfl, rfl, rfl⟩
theorem cpuOnly_withX (s : State) (v : Byte) : CpuOnly s (s.withX v) := ⟨rfl, rfl, rfl, rfl, rfl, rfl, rfl, rfl, rfl⟩
theorem cpuOnly_setA (s : State) (v : Byte) : CpuOnly s (s.setA v) := ⟨rfl, rfl, rfl, rfl, rfl, rfl, rfl, rfl, rfl⟩
theorem cpuOnly_setX (s : State) (v : Byte) : CpuOnly s (s.setX v) := ⟨rfl, rfl, rfl, rfl, rfl, rfl, rfl, rfl, rfl⟩
theorem cpuOnly_setY (s : State) (v : Byte) : CpuOnly s (s.setY v) := ⟨rfl, rfl, rfl, rfl, rfl, rfl, rfl, rfl, rfl⟩
theorem cpuOnly_addA (s : State) (v : Byte) : CpuOnly s (s.addA v) := (cpuOnly_withA s _).trans (cpuOnly_withP _ _)
theorem cpuOnly_compare (s : State) (r v : Byte) : CpuOnly s (s.compare r v) := cpuOnly_withP s _
theorem cpuOnly_jam (s : State) : CpuOnly s s.jam := ⟨rfl, rfl, rfl, rfl, rfl, rfl, rfl, rfl, rfl⟩

/-! ### Addresses -/

theorem toNat_joinBytes (h l : Byte) : (joinBytes h l).toNat = h.toNat * 256 + l.toNat := by
  have hl : l.toNat < 2 ^ 8 := l.isLt
  show (h ++ l).toNat = _
  rw [BitVec.toNat_append, ← Nat.shiftLeft_add_eq_or_of_lt hl, Nat.shiftLeft_eq]

theorem toNat_zpAddr (z : Byte) : (zpAddr z).toNat = z.toNat := by
  rw [zpAddr, toNat_joinBytes]
  simp

theorem zpAddr_lt (z : Byte) : (zpAddr z).toNat < 0x2000 := by
  have := z.isLt
  rw [toNat_zpAddr]
  omega

/-- The cell of internal RAM is the address modulo 2 KiB (20 R101, R103). -/
theorem ramIndex_eq (a : Addr) : ramIndex a = a.toNat % 0x800 := by
  rw [ramIndex, BitVec.toNat_and]
  exact Nat.and_two_pow_sub_one_eq_mod a.toNat 11

theorem toNat_stackAddr (sp : Byte) : (stackAddr sp).toNat = 256 + sp.toNat := by
  rw [stackAddr, toNat_joinBytes]
  simp

@[simp] theorem writable_stackAddr (s : State) (sp : Byte) : s.writable (stackAddr sp) = true := by
  have := sp.isLt
  simp only [State.writable, toNat_stackAddr, Bool.or_eq_true, decide_eq_true_eq]
  omega

@[simp] theorem deviceAddr_stackAddr (sp : Byte) : deviceAddr (stackAddr sp) = false := by
  have := sp.isLt
  simp only [deviceAddr, toNat_stackAddr, Bool.and_eq_false_iff, decide_eq_false_iff_not]
  omega

theorem memByte_ram (s : State) {a : Addr} (h : a.toNat < 0x2000) : s.memByte a = some (s.ramByte a) := by
  simp [State.memByte, h]

theorem memByte_stackAddr (s : State) (sp : Byte) : s.memByte (stackAddr sp) = some (s.ramByte (stackAddr sp)) :=
  memByte_ram s (by have := sp.isLt; rw [toNat_stackAddr]; omega)

/-- Two stack addresses name one byte exactly when they are one. -/
@[simp] theorem sameByte_stackAddr (p q : Byte) : sameByte (stackAddr p) (stackAddr q) = (p == q) := by
  have hp := p.isLt
  have hq := q.isLt
  rw [Bool.eq_iff_iff]
  simp only [sameByte, Bool.or_eq_true, beq_iff_eq, Bool.and_eq_true, decide_eq_true_eq, toNat_stackAddr, ramIndex_eq]
  constructor
  · intro h
    apply BitVec.eq_of_toNat_eq
    rcases h with h | h
    · have := congrArg BitVec.toNat h
      rw [toNat_stackAddr, toNat_stackAddr] at this
      omega
    · omega
  · intro h
    exact Or.inl (by rw [h])

@[simp] theorem memRead_stackAddr (s : State) (sp : Byte) : (s.memRead (stackAddr sp)).1 = s.ramByte (stackAddr sp) :=
  memRead_of_memByte (memByte_stackAddr s sp)

@[simp] theorem memRead_zpAddr (s : State) (z : Byte) : (s.memRead (zpAddr z)).1 = s.ramByte (zpAddr z) :=
  memRead_ram (zpAddr_lt z)

/-! ### Memory operands -/

theorem quiet_pointerX (s : State) (z : Byte) : Quiet s (s.pointerX z).2 :=
  ((quiet_dummyRead s _).trans (quiet_memRead _ _)).trans (quiet_memRead _ _)

theorem quiet_pointerY (s : State) (z : Byte) : Quiet s (s.pointerY z).2 := (quiet_memRead s _).trans (quiet_memRead _ _)

@[simp] theorem pointerX_fst (s : State) (z : Byte) : (s.pointerX z).1 = s.pointer (z + s.x) := by
  simp [State.pointerX, State.pointer]

@[simp] theorem pointerY_fst (s : State) (z : Byte) : (s.pointerY z).1 = s.pointer z := by
  simp [State.pointerY, State.pointer]

/-- The cycles that find an effective address store nothing (40 R204-R211). -/
theorem quiet_locate (s : State) (m : MemMode) : Quiet s (s.locate m).2 := by
  cases m with
  | zp z => exact Quiet.refl s
  | abs a => exact Quiet.refl s
  | indX z => exact quiet_pointerX s z
  | indY z => exact (quiet_pointerY s z).trans (quiet_dummyRead _ _)
  | _ => exact quiet_dummyRead s _

/-- They find it (40 R204-R211, R215). -/
@[simp] theorem locate_fst (s : State) (m : MemMode) : (s.locate m).1 = s.effAddr m := by
  cases m <;> simp [State.locate, State.effAddr, zpAddr, indexed]

theorem quiet_readIndexed (s : State) (base : Addr) (idx : Byte) : Quiet s (s.readIndexed base idx).2 := by
  unfold State.readIndexed
  split
  · exact (quiet_dummyRead s _).trans (quiet_memRead _ _)
  · exact quiet_memRead s _

theorem readIndexed_of_memByte {s : State} {base : Addr} {idx b : Byte} (h : s.memByte (indexed base idx) = some b) :
    (s.readIndexed base idx).1 = b := by
  unfold State.readIndexed
  split
  · exact memRead_of_memByte (by rw [dummyRead_memByte]; exact h)
  · exact memRead_of_memByte h

theorem quiet_readMem (s : State) (m : MemMode) : Quiet s (s.readMem m).2 := by
  cases m with
  | zp z => exact quiet_memRead s _
  | abs a => exact quiet_memRead s _
  | absX a => exact quiet_readIndexed s _ _
  | absY a => exact quiet_readIndexed s _ _
  | indX z => exact (quiet_pointerX s z).trans (quiet_memRead _ _)
  | indY z =>
    simp only [State.readMem]
    exact (quiet_pointerY s z).trans (quiet_readIndexed _ _ _)
  | _ => exact (quiet_dummyRead s _).trans (quiet_memRead _ _)

/-- The operand is the byte at the effective address, where that is plain memory. -/
theorem readMem_of_memByte {s : State} {m : MemMode} {b : Byte} (h : s.memByte (s.effAddr m) = some b) :
    (s.readMem m).1 = b := by
  cases m with
  | zp z => exact memRead_of_memByte h
  | zpX z => exact memRead_of_memByte (by rw [dummyRead_memByte]; exact h)
  | zpY z => exact memRead_of_memByte (by rw [dummyRead_memByte]; exact h)
  | abs a => exact memRead_of_memByte h
  | absX a => exact readIndexed_of_memByte h
  | absY a => exact readIndexed_of_memByte h
  | indX z =>
    refine memRead_of_memByte ?_
    rw [(quiet_pointerX s z).memByte, pointerX_fst]
    exact h
  | indY z =>
    simp only [State.readMem]
    refine readIndexed_of_memByte ?_
    rw [(quiet_pointerY s z).memByte, pointerY_fst]
    exact h

theorem quiet_readOperand (s : State) (o : ReadOperand) : Quiet s (s.readOperand o).2 := by
  cases o with
  | imm i => exact Quiet.refl s
  | mem m => exact quiet_readMem s m

@[simp] theorem readOperand_a (s : State) (o : ReadOperand) : (s.readOperand o).2.a = s.a :=
  congrArg CpuView.a (quiet_readOperand s o).cpu
@[simp] theorem readOperand_x (s : State) (o : ReadOperand) : (s.readOperand o).2.x = s.x :=
  congrArg CpuView.x (quiet_readOperand s o).cpu
@[simp] theorem readOperand_y (s : State) (o : ReadOperand) : (s.readOperand o).2.y = s.y :=
  congrArg CpuView.y (quiet_readOperand s o).cpu
@[simp] theorem readOperand_p (s : State) (o : ReadOperand) : (s.readOperand o).2.p = s.p :=
  congrArg CpuView.p (quiet_readOperand s o).cpu

/-- A read-class instruction: the operand's cycles, then a change `f` of the registers. -/
theorem read_then (s : State) (o : ReadOperand) (f : Byte → State → State) (hf : ∀ v u, CpuOnly u (f v u)) :
    StoresOnly [] s (f (s.readOperand o).1 (s.readOperand o).2) :=
  (quiet_readOperand s o).storesOnly.cpuOnly (hf _ _)

/-- A write-class instruction stores at its effective address only. -/
theorem storesOnly_store (s : State) (m : MemMode) (v : Byte) : StoresOnly [s.effAddr m] s (s.store m v) := by
  simp only [State.store, locate_fst]
  exact (quiet_locate s m).storesOnly.trans (storesOnly_memWrite (s.locate m).2 (s.effAddr m) v)

@[simp] theorem store_cpu (s : State) (m : MemMode) (v : Byte) : (s.store m v).cpu = s.cpu := by
  rw [State.store, memWrite_cpu, (quiet_locate s m).cpu]

theorem memByte_store {s : State} {m : MemMode} (v : Byte) (h : s.writable (s.effAddr m) = true) :
    (s.store m v).memByte (s.effAddr m) = some v := by
  rw [State.store, memByte_memWrite, (quiet_locate s m).writable, locate_fst, h, sameByte_self]
  rfl

/-- A read-modify-write instruction: the byte read, what the modifier answers for it on an unchanged CPU, and the store of
the result at the effective address (40 R220). -/
theorem modify_spec (s : State) (m : MemMode) (f : Modifier) (hf : ∀ v u, CpuOnly u (f v u).2) :
    ∃ u, u.cpu = s.cpu ∧ (s.modify m f).cpu = (f (s.rmwByte m) u).2.cpu ∧ StoresOnly [s.effAddr m] s (s.modify m f)
      ∧ (s.writable (s.effAddr m) = true → (s.modify m f).memByte (s.effAddr m) = some (f (s.rmwByte m) u).1) := by
  have hr : s.rmwByte m = ((s.locate m).2.memRead (s.effAddr m)).1 := by rw [State.rmwByte, locate_fst]
  have hq : Quiet s ((s.locate m).2.memRead (s.effAddr m)).2 := (quiet_locate s m).trans (quiet_memRead _ _)
  have hm : s.modify m f
      = (f (s.rmwByte m) (((s.locate m).2.memRead (s.effAddr m)).2.memWrite (s.effAddr m) (s.rmwByte m))).2.memWrite
          (s.effAddr m)
          (f (s.rmwByte m) (((s.locate m).2.memRead (s.effAddr m)).2.memWrite (s.effAddr m) (s.rmwByte m))).1 := by
    simp only [State.modify, locate_fst, hr]
  rw [hm]
  generalize s.rmwByte m = v
  generalize ((s.locate m).2.memRead (s.effAddr m)).2 = t at hq ⊢
  generalize s.effAddr m = a
  refine ⟨t.memWrite a v, (memWrite_cpu t a v).trans hq.cpu, memWrite_cpu .., ?_, fun hw => ?_⟩
  · exact (((hq.storesOnly.trans (storesOnly_memWrite t a v)).cpuOnly (hf v _)).trans
      (storesOnly_memWrite _ a _)).mono (by simp)
  · rw [memByte_memWrite, sameByte_self, Bool.and_true, (hf v _).writable]
    refine if_pos ?_
    unfold State.writable at hw ⊢
    rw [isSome_known_memWrite, hq.calm.known]
    exact hw

/-- The byte a read-modify-write template reads, where its address is plain memory. -/
theorem rmwByte_of_memByte {s : State} {m : MemMode} {b : Byte} (h : s.memByte (s.effAddr m) = some b) :
    s.rmwByte m = b := by
  rw [State.rmwByte, locate_fst]
  exact memRead_of_memByte (by rw [(quiet_locate s m).memByte]; exact h)

/-! ### The stack -/

@[simp] theorem push_cpu (s : State) (v : Byte) : (s.push v).cpu = { s.cpu with sp := s.sp - 1 } := by
  rw [State.push, State.withSp_cpu, memWrite_cpu]
@[simp] theorem push_sp (s : State) (v : Byte) : (s.push v).sp = s.sp - 1 := rfl
@[simp] theorem push_pc (s : State) (v : Byte) : (s.push v).pc = s.pc := congrArg CpuView.pc (push_cpu s v)
@[simp] theorem push_p (s : State) (v : Byte) : (s.push v).p = s.p := congrArg CpuView.p (push_cpu s v)

theorem storesOnly_push (s : State) (v : Byte) : StoresOnly [stackAddr s.sp] s (s.push v) :=
  (storesOnly_memWrite s (stackAddr s.sp) v).cpuOnly (cpuOnly_withSp _ _)

/-- Memory after a push: the byte pushed at `$0100 + S`. -/
theorem memByte_push (s : State) (v : Byte) (b : Addr) :
    (s.push v).memByte b = if sameByte (stackAddr s.sp) b then some v else s.memByte b := by
  rw [State.push, State.withSp_memByte, memByte_memWrite, writable_stackAddr, Bool.true_and]

@[simp] theorem pull_cpu (s : State) : s.pull.2.cpu = { s.cpu with sp := s.sp + 1 } := by
  rw [State.pull, memRead_cpu, State.withSp_cpu]
@[simp] theorem pull_sp (s : State) : s.pull.2.sp = s.sp + 1 := congrArg CpuView.sp (pull_cpu s)

@[simp] theorem pull_fst (s : State) : s.pull.1 = s.ramByte (stackAddr (s.sp + 1)) := by
  rw [State.pull, memRead_stackAddr]
  rfl

theorem storesOnly_pull (s : State) : StoresOnly [] s s.pull.2 :=
  (cpuOnly_withSp s _).storesOnly.quiet (quiet_memRead _ _)

@[simp] theorem pull_ramByte (s : State) (a : Addr) : s.pull.2.ramByte a = s.ramByte a := by
  rw [State.pull, memRead_ramByte]
  rfl

theorem pullPc_spec (s : State) :
    s.pullPc.cpu = { s.cpu with
        sp := s.sp + 2, pc := joinBytes (s.ramByte (stackAddr (s.sp + 2))) (s.ramByte (stackAddr (s.sp + 1))) }
      ∧ StoresOnly [] s s.pullPc := by
  have h2 : s.sp + 1#8 + 1#8 = s.sp + 2#8 := by bv_omega
  constructor
  · simp [State.pullPc, h2]
  · exact ((storesOnly_pull s).trans (storesOnly_pull _)).cpuOnly (cpuOnly_withPc _ _)

theorem pullFlags_spec (s : State) :
    s.pullFlags.cpu = { s.cpu with sp := s.sp + 1, p := .ofByte (s.ramByte (stackAddr (s.sp + 1))) }
      ∧ StoresOnly [] s s.pullFlags := by
  constructor
  · simp [State.pullFlags]
  · exact (storesOnly_pull s).cpuOnly (cpuOnly_withP _ _)

/-! ### Vectors -/

/-- Through the vector: I set, PC the pointer read there. -/
theorem enterVector_spec (s : State) (vec : Addr) :
    ∃ l h, (s.enterVector vec).cpu = { s.cpu with p := { s.p with i := true }, pc := joinBytes h l }
      ∧ (∀ b, s.memByte vec = some b → l = b) ∧ (∀ b, s.memByte (vec + 1) = some b → h = b)
      ∧ StoresOnly [] s (s.enterVector vec) := by
  refine ⟨(s.memRead vec).1, (((s.memRead vec).2.withP { s.p with i := true }).memRead (vec + 1)).1, ?_, ?_, ?_, ?_⟩
  · simp [State.enterVector]
  · exact fun b hb => memRead_of_memByte hb
  · exact fun b hb => memRead_of_memByte (by rw [State.withP_memByte, memRead_memByte]; exact hb)
  · exact (((quiet_memRead s vec).storesOnly.cpuOnly (cpuOnly_withP _ _)).quiet (quiet_memRead _ _)).cpuOnly
      (cpuOnly_withPc _ _)

theorem sp_sub_ne (p : Byte) : p - 1#8 ≠ p ∧ p - 1#8 - 1#8 ≠ p ∧ p - 1#8 - 1#8 ≠ p - 1#8 := by
  refine ⟨?_, ?_, ?_⟩ <;> bv_omega

/-- Saving PC and a status byte and entering through a vector (60 R458, 44 R354). -/
theorem saveAndEnter_spec (s : State) (status : Byte) (vec : Addr) :
    ∃ l h, (s.saveAndEnter status vec).cpu
          = { s.cpu with sp := s.sp - 3, p := { s.p with i := true }, pc := joinBytes h l }
      ∧ (0x2000 ≤ vec.toNat ∧ vec.toNat < 0xFFFF →
          (∀ b, s.memByte vec = some b → l = b) ∧ ∀ b, s.memByte (vec + 1) = some b → h = b)
      ∧ (s.saveAndEnter status vec).memByte (stackAddr s.sp) = some (highByte s.pc)
      ∧ (s.saveAndEnter status vec).memByte (stackAddr (s.sp - 1)) = some (lowByte s.pc)
      ∧ (s.saveAndEnter status vec).memByte (stackAddr (s.sp - 2)) = some status
      ∧ StoresOnly [stackAddr s.sp, stackAddr (s.sp - 1), stackAddr (s.sp - 2)] s (s.saveAndEnter status vec) := by
  have h2 : s.sp - 1#8 - 1#8 = s.sp - 2#8 := by bv_omega
  have h3 : s.sp - 2#8 - 1#8 = s.sp - 3#8 := by bv_omega
  obtain ⟨n1, n2, n3⟩ := sp_sub_ne s.sp
  rw [h2] at n2 n3
  have hno : ∀ (p : Byte) (a : Addr), 0x2000 ≤ a.toNat → sameByte (stackAddr p) a = false := by
    intro p a ha
    have hp := p.isLt
    simp only [sameByte, Bool.or_eq_false_iff, beq_eq_false_iff_ne, Bool.and_eq_false_iff, decide_eq_false_iff_not]
    refine ⟨fun h => ?_, Or.inl (Or.inr (by omega))⟩
    have := congrArg BitVec.toNat h
    rw [toNat_stackAddr] at this
    omega
  obtain ⟨l, h, hc, hl, hh, hs⟩ := enterVector_spec (((s.push (highByte s.pc)).push (lowByte s.pc)).push status) vec
  have hmem : ∀ a, (s.saveAndEnter status vec).memByte a
      = (((s.push (highByte s.pc)).push (lowByte s.pc)).push status).memByte a := fun a => hs.1 a (by simp)
  have hst : StoresOnly [stackAddr s.sp, stackAddr (s.sp - 1), stackAddr (s.sp - 2)] s
      (((s.push (highByte s.pc)).push (lowByte s.pc)).push status) := by
    have := ((storesOnly_push s (highByte s.pc)).trans (storesOnly_push _ (lowByte s.pc))).trans (storesOnly_push _ status)
    simpa [h2] using this
  refine ⟨l, h, ?_, fun hv => ⟨fun b hb => hl b ?_, fun b hb => hh b ?_⟩, ?_, ?_, ?_, ?_⟩
  · rw [State.saveAndEnter, hc]
    simp [h2, h3]
  · simp only [memByte_push, hno _ _ hv.1]
    exact hb
  · have hv1 : (vec + 1).toNat = vec.toNat + 1 := by
      rw [BitVec.toNat_add]
      have := hv.2
      simp
      omega
    simp only [memByte_push, hno _ (vec + 1) (by omega)]
    exact hb
  · rw [hmem]
    simp [memByte_push, h2, n1, n2]
  · rw [hmem]
    simp [memByte_push, h2, n3]
  · rw [hmem]
    simp [memByte_push, h2]
  · rw [State.saveAndEnter]
    simpa using hst.trans hs

/-! ### Branches -/

/-- A branch: the target or the next instruction, nothing else (40 R213). -/
theorem branch_spec (s : State) (cond : Bool) (r : Byte) :
    (s.branch cond r).cpu = { s.cpu with pc := if cond then addSigned s.pc r else s.pc }
      ∧ StoresOnly [] s (s.branch cond r) := by
  unfold State.branch
  cases cond with
  | false => exact ⟨rfl, StoresOnly.refl s⟩
  | true =>
    simp only [if_true]
    split
    · exact ⟨by simp, (quiet_dummyRead s _).storesOnly.cpuOnly (cpuOnly_withPc _ _)⟩
    · exact ⟨by simp, ((quiet_dummyRead s _).trans (quiet_dummyRead _ _)).storesOnly.cpuOnly (cpuOnly_withPc _ _)⟩

/-! ### Fetching -/

theorem fetchByte_spec (s : State) :
    s.fetchByte.2.cpu = { s.cpu with pc := s.pc + 1 } ∧ StoresOnly [] s s.fetchByte.2
      ∧ ∀ b, s.memByte s.pc = some b → s.fetchByte.1 = b := by
  refine ⟨?_, ?_, fun b hb => ?_⟩
  rotate_left 2
  · simp only [State.fetchByte]
    exact memRead_of_memByte hb
  · simp only [State.fetchByte]
    rw [State.withPc_cpu, memRead_cpu]
  · simp only [State.fetchByte]
    exact (quiet_memRead s s.pc).storesOnly.cpuOnly (cpuOnly_withPc _ _)

end Sys2Proof.Machine
end

