-- ==== Sys2Proof/Laws/Cycles.lean ====
section
/-!
SUPPORT. The clock: a tick counts one cycle, and no DMA begins while none is pending and the DMC has nothing to fetch
(20 R111, 63 R662).
-/

namespace Sys2Proof.Machine

@[simp] theorem cycles_tick (s : State) : s.tick.cycles = s.cycles + 1 := rfl

/-- No DMA is pending and the DMC has nothing to fetch: one equation per field. -/
theorem State.noDma_iff (s : State) :
    s.noDma = true ↔ s.dma.oamPending = false ∧ s.dma.dmcPending = false ∧ s.apu.dmc.bytesRemaining = 0 := by
  simp [State.noDma, and_assoc]

@[simp] theorem needsByte_of_empty {d : Dmc} (h : d.bytesRemaining = 0) : d.needsByte = false := by
  simp [Dmc.needsByte, h]

theorem noDma_tick {s : State} (h : s.noDma = true) : s.tick.noDma = true := by
  rw [State.noDma_iff] at h ⊢
  obtain ⟨h1, h2, h3⟩ := h
  have hd : s.ppuDot.ppuDot.ppuDot.apuStep.apu.dmc.bytesRemaining = 0 := by
    simp [State.apuStep, h3]
  refine ⟨?_, ?_, ?_⟩
  · exact ((oamKept_tick s).kept h1).1
  · simpa [State.tick, State.apuStep, h2] using needsByte_of_empty hd
  · exact hd

@[simp] theorem cycles_busRead (s : State) (a : Addr) : (s.busRead a).2.cycles = s.cycles := by
  unfold State.busRead
  repeat' split
  all_goals rfl

theorem cycles_readAndTick (s : State) (a : Addr) : (s.readAndTick a).2.cycles = s.cycles + 1 := by
  simp only [State.readAndTick, cycles_tick, State.latch_cycles, cycles_busRead]

theorem noDma_readAndTick {s : State} (a : Addr) (h : s.noDma = true) : (s.readAndTick a).2.noDma = true := by
  have hb : (s.busRead a).2.noDma = s.noDma := by
    unfold State.busRead
    repeat' split
    all_goals rfl
  simp only [State.readAndTick]
  apply noDma_tick
  rw [← h, ← hb]
  rfl

/-- With no DMA about, a read cycle is one cycle and starts none. -/
theorem memRead_noDma {s : State} (a : Addr) (h : s.noDma = true) :
    (s.memRead a).2.noDma = true ∧ (s.memRead a).2.cycles = s.cycles + 1 := by
  obtain ⟨h1, h2, h3⟩ := (State.noDma_iff s).1 h
  have hs : s.serviceDma = s := by
    simp [State.serviceDma, State.serveDmcIfPending, State.serveOamIfPending, h1, h2]
  rw [State.memRead, hs]
  exact ⟨noDma_readAndTick a h, cycles_readAndTick s a⟩

theorem dummyRead_noDma {s : State} (a : Addr) (h : s.noDma = true) :
    (s.dummyRead a).noDma = true ∧ (s.dummyRead a).cycles = s.cycles + 1 := memRead_noDma a h

/-- A write cycle is one cycle, whatever it starts. -/
@[simp] theorem cycles_memWrite (s : State) (a : Addr) (v : Byte) : (s.memWrite a v).cycles = s.cycles + 1 := by
  have hb : (s.busWrite a v).cycles = s.cycles := by
    unfold State.busWrite
    repeat' split
    all_goals rfl
  rw [State.memWrite, cycles_tick, State.latch_cycles, hb]

/-- A cycle count grows with every tick of a DMA. -/
theorem le_cycles_idle (s : State) (n : Nat) : (s.idle n).cycles = s.cycles + n := by
  induction n generalizing s with
  | zero => rfl
  | succ n ih => rw [State.idle, ih, cycles_tick]; omega

theorem cycles_serveDmc (s : State) : s.serveDmc.cycles = s.cycles + 4 := by
  simp only [State.serveDmc, State.dmcDeliver, cycles_readAndTick, le_cycles_idle, Config.dmcStall]

theorem cycles_oamCopy (s : State) (page : Byte) (n : Nat) : (s.oamCopy page n).cycles = s.cycles + 2 * n := by
  induction n generalizing s with
  | zero => rfl
  | succ n ih =>
    simp only [State.oamCopy, ih, State.dmaWriteOam, cycles_tick, State.latch_cycles, State.dmaPut, cycles_readAndTick]
    omega

theorem cycles_serveOam (s : State) : s.serveOam.cycles = s.cycles + 513 + s.cycles % 2 := by
  rw [State.serveOam, cycles_oamCopy, le_cycles_idle, State.oamDmaStart]
  dsimp only
  split <;> omega

theorem cycles_serviceDma_le (s : State) : s.cycles ≤ s.serviceDma.cycles := by
  have h1 : ∀ t : State, t.cycles ≤ t.serveDmcIfPending.cycles := by
    intro t
    unfold State.serveDmcIfPending
    split
    · rw [cycles_serveDmc]; omega
    · omega
  have h2 : ∀ t : State, t.cycles ≤ t.serveOamIfPending.cycles := by
    intro t
    unfold State.serveOamIfPending
    split
    · rw [cycles_serveOam]; omega
    · omega
  exact Nat.le_trans (h1 s) (Nat.le_trans (h2 _) (h1 _))

/-- A read cycle takes at least one cycle. -/
theorem cycles_memRead_lt (s : State) (a : Addr) : s.cycles < (s.memRead a).2.cycles := by
  rw [State.memRead, cycles_readAndTick]
  have := cycles_serviceDma_le s
  omega

/-! ### Costs: cycle counts that compose -/

/-- Where no DMA is about, from `s` to `t` are `n` cycles, and none is about after them. -/
def Costs (n : Nat) (s t : State) : Prop := s.noDma = true → t.noDma = true ∧ t.cycles = s.cycles + n

theorem Costs.takes {n : Nat} {s t : State} (h : Costs n s t) : Takes n s t := fun hn => (h hn).2

theorem Costs.refl (s : State) : Costs 0 s s := fun hn => ⟨hn, rfl⟩

theorem Costs.trans {m n : Nat} {s t u : State} (h : Costs m s t) (k : Costs n t u) : Costs (m + n) s u := fun hn =>
  ⟨(k (h hn).1).1, by rw [(k (h hn).1).2, (h hn).2, Nat.add_assoc]⟩

/-- An update of the CPU's own registers costs nothing. -/
theorem CpuOnly.costs {s t : State} (h : CpuOnly s t) : Costs 0 s t := fun hn =>
  ⟨by simpa only [State.noDma, h.dma, h.apu] using hn, h.cycles⟩

theorem costs_memRead (s : State) (a : Addr) : Costs 1 s (s.memRead a).2 := memRead_noDma a

theorem costs_dummyRead (s : State) (a : Addr) : Costs 1 s (s.dummyRead a) := dummyRead_noDma a

theorem costs_implied (s : State) : Costs 1 s s.implied := costs_dummyRead s s.pc

theorem costs_fetchByte (s : State) : Costs 1 s s.fetchByte.2 := costs_memRead s s.pc

theorem costs_pull (s : State) : Costs 1 s s.pull.2 :=
  costs_memRead (s.withSp (s.sp + 1)) (stackAddr (s.sp + 1))

/-- A write to internal RAM starts no DMA. -/
theorem costs_memWrite_ram (s : State) {a : Addr} (v : Byte) (h : a.toNat < 0x2000) : Costs 1 s (s.memWrite a v) := by
  intro hn
  refine ⟨?_, cycles_memWrite s a v⟩
  rw [State.memWrite, State.busWrite, if_pos h]
  exact noDma_tick hn

theorem costs_push (s : State) (v : Byte) : Costs 1 s (s.push v) :=
  costs_memWrite_ram s v (by rw [toNat_stackAddr]; have := s.sp.isLt; omega)

theorem costs_pointerX (s : State) (z : Byte) : Costs 3 s (s.pointerX z).2 :=
  ((costs_dummyRead s _).trans (costs_memRead _ _)).trans (costs_memRead _ _)

theorem costs_pointerY (s : State) (z : Byte) : Costs 2 s (s.pointerY z).2 :=
  (costs_memRead s _).trans (costs_memRead _ _)

theorem costs_pullPc (s : State) : Costs 2 s s.pullPc := (costs_pull s).trans (costs_pull _)

theorem costs_pullFlags (s : State) : Costs 1 s s.pullFlags := costs_pull s

theorem costs_enterVector (s : State) (vec : Addr) : Costs 2 s (s.enterVector vec) := by
  intro hn
  have h1 := costs_memRead s vec hn
  have h2 := costs_memRead ((s.memRead vec).2.withP { s.p with i := true }) (vec + 1) h1.1
  exact ⟨h2.1, h2.2.trans (congrArg (· + 1) h1.2)⟩

theorem costs_saveAndEnter (s : State) (status : Byte) (vec : Addr) : Costs 5 s (s.saveAndEnter status vec) :=
  (((costs_push s _).trans (costs_push _ _)).trans (costs_push _ _)).trans (costs_enterVector _ vec)

end Sys2Proof.Machine
end

