-- ==== Sys2Proof/Laws/PpuInv.lean ====
section
/-!
SUPPORT. The PPU stays on its grid and its memories stay in canonical form, through a dot and through register accesses.
-/

namespace Sys2Proof.Machine

/-- The PPU part of the invariant. -/
def Ppu.Ok (p : Ppu) : Prop := p.onGrid = true ∧ p.memsWf = true

theorem Ppu.onGrid_iff (p : Ppu) :
    p.onGrid = true ↔ -1 ≤ p.scanline ∧ p.scanline ≤ 260 ∧ p.dot ≤ 340 ∧ p.units.length = 8 ∧ p.secCount ≤ 8 := by
  simp [Ppu.onGrid, and_assoc]

theorem Ppu.memsWf_iff (p : Ppu) :
    p.memsWf = true ↔
      Memory.wf 0x800 p.ciram = true ∧ Memory.wf 0x100 p.oam = true ∧ Memory.wf 0x20 p.secOam = true
        ∧ paletteWf p.palette = true ∧ pictureWf p.frame = true ∧ pictureWf p.lastFrame = true := by
  simp [Ppu.memsWf, and_assoc]

theorem paletteIndex_lt (a : BitVec 14) : paletteIndex a < 32 := by
  unfold paletteIndex
  dsimp only
  split <;> omega

/-! ### The cartridge -/

theorem Cart.wf_ppuRead {c : Cart} (a : BitVec 14) (h : c.wf = true) : (c.ppuRead a).2.wf = true := by
  cases c <;> exact h

theorem Cart.wf_cpuRead {c : Cart} (a : Addr) (h : c.wf = true) : (c.cpuRead a).2.wf = true := by
  cases c <;> exact h

theorem Nrom.wf_iff (n : Nrom) :
    n.wf = true ↔ Memory.wf (if n.prg32k then 0x8000 else 0x4000) n.prg = true ∧ Memory.wf 0x2000 n.prgRam = true
      ∧ Memory.wf 0x2000 n.chr = true ∧ Memory.wf 0x800 n.ntRam = true := by
  simp [Nrom.wf, and_assoc]

theorem Cart.wf_ppuWrite {c : Cart} (a : BitVec 14) (v : Byte) (h : c.wf = true) : (c.ppuWrite a v).wf = true := by
  cases c with
  | external st => rfl
  | nrom n =>
    change n.wf = true at h
    change (n.ppuWrite a v).wf = true
    rw [Nrom.wf_iff] at h
    unfold Nrom.ppuWrite
    split
    · split
      · rw [Nrom.wf_iff]; exact ⟨h.1, h.2.1, Memory.wf_memSet v (by assumption) h.2.2.1, h.2.2.2⟩
      · rw [Nrom.wf_iff]; exact h
    · rw [Nrom.wf_iff]; exact ⟨h.1, h.2.1, h.2.2.1, Memory.wf_memSet v (by omega) h.2.2.2⟩

theorem Cart.wf_cpuWrite {c : Cart} (a : Addr) (v : Byte) (h : c.wf = true) : (c.cpuWrite a v).wf = true := by
  cases c with
  | external st => rfl
  | nrom n =>
    change n.wf = true at h
    change (n.cpuWrite a v).wf = true
    rw [Nrom.wf_iff] at h
    unfold Nrom.cpuWrite
    split
    · rw [Nrom.wf_iff]; exact ⟨h.1, Memory.wf_memSet v (by omega) h.2.1, h.2.2⟩
    · rw [Nrom.wf_iff]; exact h

theorem wf_nametableRead {p : Ppu} {c : Cart} (a : BitVec 14) (h : c.wf = true) : (nametableRead p c a).2.wf = true := by
  unfold nametableRead
  split
  · exact h
  · exact Cart.wf_ppuRead _ h

theorem wf_ppuBusRead {p : Ppu} {c : Cart} (a : BitVec 14) (h : c.wf = true) : (ppuBusRead p c a).2.wf = true := by
  unfold ppuBusRead
  split
  · exact Cart.wf_ppuRead _ h
  · split
    · exact wf_nametableRead a h
    · exact h

theorem ciramPage_lt {m : Mirroring} {n page : Nat} (hn : n < 4) (h : ciramPage m n = some page) : page < 2 := by
  cases m <;> simp only [ciramPage, Option.some.injEq] at h
  · omega
  · omega
  · omega
  · omega
  · split at h
    · simp only [Option.some.injEq] at h; omega
    · simp at h

/-- A PPU bus write keeps the memories in canonical form, and moves nothing on the grid. -/
theorem ok_ppuBusWrite {p : Ppu} {c : Cart} (a : BitVec 14) (v : Byte) (hp : p.Ok) (hc : c.wf = true) :
    (ppuBusWrite p c a v).1.Ok ∧ (ppuBusWrite p c a v).2.wf = true := by
  unfold ppuBusWrite
  split
  · exact ⟨hp, Cart.wf_ppuWrite _ _ hc⟩
  · split
    · unfold nametableWrite
      split
      · next page h =>
        have := ciramPage_lt (by unfold nametableOf; omega) h
        refine ⟨⟨hp.1, ?_⟩, hc⟩
        have hm := (Ppu.memsWf_iff p).1 hp.2
        rw [Ppu.memsWf_iff]
        exact ⟨Memory.wf_memSet v (by omega) hm.1, hm.2⟩
      · exact ⟨hp, Cart.wf_ppuWrite _ _ hc⟩
    · refine ⟨⟨hp.1, ?_⟩, hc⟩
      have hm := (Ppu.memsWf_iff p).1 hp.2
      rw [Ppu.memsWf_iff]
      exact ⟨hm.1, hm.2.1, hm.2.2.1, paletteWf_cellSet _ (paletteIndex_lt a) hm.2.2.2.1, hm.2.2.2.2⟩

/-! ### The dot -/

theorem Ppu.ok_flagDot {p : Ppu} (h : p.Ok) : p.flagDot.Ok := by
  unfold Ppu.flagDot
  repeat' split
  all_goals exact h

theorem Ppu.ok_bgShiftAndReload {p : Ppu} (h : p.Ok) : p.bgShiftAndReload.Ok := by
  unfold Ppu.bgShiftAndReload
  dsimp only
  repeat' split
  all_goals exact h

theorem ok_bgFetchTile {p : Ppu} {c : Cart} (h : p.Ok) (hc : c.wf = true) :
    (bgFetchTile p c).1.Ok ∧ (bgFetchTile p c).2.wf = true := by
  unfold bgFetchTile
  repeat' split
  all_goals first | exact ⟨h, hc⟩ | exact ⟨h, wf_ppuBusRead _ hc⟩

theorem Ppu.ok_updateV {p : Ppu} (h : p.Ok) : p.updateV.Ok := by
  unfold Ppu.updateV
  repeat' split
  all_goals exact h

theorem ok_bgFetch {p : Ppu} {c : Cart} (h : p.Ok) (hc : c.wf = true) : (bgFetch p c).1.Ok ∧ (bgFetch p c).2.wf = true :=
  ⟨Ppu.ok_updateV (ok_bgFetchTile h hc).1, (ok_bgFetchTile h hc).2⟩

theorem wf_clearedSecOam : Memory.wf 0x20 clearedSecOam = true := by decide

theorem Ppu.wf_copySprite {p : Ppu} (n : Nat) {k : Nat} (hk : k < 8) (h : Memory.wf 0x20 p.secOam = true) :
    Memory.wf 0x20 (p.copySprite n k) = true :=
  Memory.wf_memSet _ (by omega) (Memory.wf_memSet _ (by omega)
    (Memory.wf_memSet _ (by omega) (Memory.wf_memSet _ (by omega) h)))

theorem Ppu.ok_examineSprite {p : Ppu} (n : Nat) (h : p.Ok) : (p.examineSprite n).Ok := by
  unfold Ppu.examineSprite
  split
  · split
    · next hk =>
      have hg := (Ppu.onGrid_iff p).1 h.1
      have hm := (Ppu.memsWf_iff p).1 h.2
      refine ⟨(Ppu.onGrid_iff _).2 ?_, (Ppu.memsWf_iff _).2 ?_⟩
      · exact ⟨hg.1, hg.2.1, hg.2.2.1, hg.2.2.2.1, hk⟩
      · exact ⟨hm.1, hm.2.1, Ppu.wf_copySprite n hk hm.2.2.1, hm.2.2.2⟩
    · exact h
  · exact h

theorem Ppu.ok_spriteEvaluate {p : Ppu} (h : p.Ok) : p.spriteEvaluate.Ok := by
  unfold Ppu.spriteEvaluate
  split
  · have hg := (Ppu.onGrid_iff p).1 h.1
    have hm := (Ppu.memsWf_iff p).1 h.2
    refine ⟨(Ppu.onGrid_iff _).2 ?_, (Ppu.memsWf_iff _).2 ?_⟩
    · exact ⟨hg.1, hg.2.1, hg.2.2.1, hg.2.2.2.1, Nat.zero_le _⟩
    · exact ⟨hm.1, hm.2.1, wf_clearedSecOam, hm.2.2.2⟩
  · split
    · exact Ppu.ok_examineSprite _ h
    · exact h

theorem ok_loadUnit {p : Ppu} {c : Cart} (i : Nat) (h : p.Ok) (hc : c.wf = true) :
    (loadUnit p c i).1.Ok ∧ (loadUnit p c i).2.wf = true := by
  have hg := (Ppu.onGrid_iff p).1 h.1
  unfold loadUnit
  split
  · refine ⟨⟨(Ppu.onGrid_iff _).2 ?_, h.2⟩, wf_ppuBusRead _ (wf_ppuBusRead _ hc)⟩
    exact ⟨hg.1, hg.2.1, hg.2.2.1, by simpa using hg.2.2.2.1, hg.2.2.2.2⟩
  · refine ⟨⟨(Ppu.onGrid_iff _).2 ?_, h.2⟩, hc⟩
    exact ⟨hg.1, hg.2.1, hg.2.2.1, by simpa using hg.2.2.2.1, hg.2.2.2.2⟩

theorem ok_spriteFetch {p : Ppu} {c : Cart} (h : p.Ok) (hc : c.wf = true) :
    (spriteFetch p c).1.Ok ∧ (spriteFetch p c).2.wf = true := by
  unfold spriteFetch
  split
  · exact ⟨h, hc⟩
  · split
    · exact ok_loadUnit _ h hc
    · exact ⟨h, hc⟩

theorem Ppu.ok_clearOamAddr {p : Ppu} (h : p.Ok) : p.clearOamAddr.Ok := by
  unfold Ppu.clearOamAddr
  split <;> exact h

theorem ok_renderDot {p : Ppu} {c : Cart} (h : p.Ok) (hc : c.wf = true) :
    (renderDot p c).1.Ok ∧ (renderDot p c).2.wf = true := by
  have hb := ok_bgFetch (Ppu.ok_bgShiftAndReload h) hc
  have hf := ok_spriteFetch (Ppu.ok_spriteEvaluate hb.1) hb.2
  unfold renderDot
  exact ⟨Ppu.ok_clearOamAddr hf.1, hf.2⟩

theorem Ppu.ok_emit {p : Ppu} {x : Nat} (a : BitVec 14) (h : p.Ok) (hx : x < 256) (hy : p.scanline.toNat < 240) :
    (p.emit x a).Ok := by
  have hm := (Ppu.memsWf_iff p).1 h.2
  refine ⟨h.1, (Ppu.memsWf_iff _).2 ?_⟩
  exact ⟨hm.1, hm.2.1, hm.2.2.1, hm.2.2.2.1, pictureWf_setPixel _ hx hy hm.2.2.2.2.1, hm.2.2.2.2.2⟩

theorem Ppu.ok_outputPixel {p : Ppu} {x : Nat} (h : p.Ok) (hx : x < 256) (hy : p.scanline.toNat < 240) :
    (p.outputPixel x).Ok := by
  unfold Ppu.outputPixel
  split
  · have he := Ppu.ok_emit (p.pixelAddr x) h hx hy
    have hg := (Ppu.onGrid_iff p).1 h.1
    refine ⟨(Ppu.onGrid_iff _).2 ?_, he.2⟩
    exact ⟨hg.1, hg.2.1, hg.2.2.1, by simpa using hg.2.2.2.1, hg.2.2.2.2⟩
  · exact Ppu.ok_emit _ h hx hy

theorem Ppu.ok_advance {p : Ppu} (h : p.Ok) : p.advance.Ok := by
  have hg := (Ppu.onGrid_iff p).1 h.1
  have hm := (Ppu.memsWf_iff p).1 h.2
  unfold Ppu.advance
  split
  · refine ⟨(Ppu.onGrid_iff _).2 ?_, h.2⟩
    exact ⟨(by decide : (-1 : Int) ≤ 0), (by decide : (0 : Int) ≤ 260), Nat.zero_le _, hg.2.2.2⟩
  · split
    · split
      · refine ⟨(Ppu.onGrid_iff _).2 ?_, (Ppu.memsWf_iff _).2 ?_⟩
        · exact ⟨Int.le_refl (-1), (by decide : (-1 : Int) ≤ 260), Nat.zero_le _, hg.2.2.2⟩
        · exact ⟨hm.1, hm.2.1, hm.2.2.1, hm.2.2.2.1, hm.2.2.2.2.1, hm.2.2.2.2.1⟩
      · refine ⟨(Ppu.onGrid_iff _).2 ?_, h.2⟩
        refine ⟨?_, ?_, Nat.zero_le _, hg.2.2.2⟩
        · show -1 ≤ p.scanline + 1; omega
        · show p.scanline + 1 ≤ 260; omega
    · refine ⟨(Ppu.onGrid_iff _).2 ?_, h.2⟩
      refine ⟨hg.1, hg.2.1, ?_, hg.2.2.2⟩
      show p.dot + 1 ≤ 340
      omega

/-- The position of a dot does not change before its end. -/
@[simp] theorem scanline_renderDot (p : Ppu) (c : Cart) : (renderDot p c).1.scanline = p.scanline := by
  have h1 : ∀ q : Ppu, q.clearOamAddr.scanline = q.scanline := fun q => by unfold Ppu.clearOamAddr; split <;> rfl
  have h2 : ∀ (q : Ppu) d, (spriteFetch q d).1.scanline = q.scanline := fun q d => by
    unfold spriteFetch loadUnit; repeat' split
    all_goals rfl
  have h3 : ∀ q : Ppu, q.spriteEvaluate.scanline = q.scanline := fun q => by
    unfold Ppu.spriteEvaluate Ppu.examineSprite; repeat' split
    all_goals rfl
  have h4 : ∀ (q : Ppu) d, (bgFetch q d).1.scanline = q.scanline := fun q d => by
    unfold bgFetch Ppu.updateV bgFetchTile; dsimp only; repeat' split
    all_goals rfl
  have h5 : ∀ q : Ppu, q.bgShiftAndReload.scanline = q.scanline := fun q => by
    unfold Ppu.bgShiftAndReload; dsimp only; repeat' split
    all_goals rfl
  simp [renderDot, h1, h2, h3, h4, h5]

@[simp] theorem Ppu.scanline_flagDot (p : Ppu) : p.flagDot.scanline = p.scanline := by
  unfold Ppu.flagDot
  repeat' split
  all_goals rfl

theorem ok_dotBody {p : Ppu} {c : Cart} (h : p.Ok) (hc : c.wf = true) : (dotBody p c).1.Ok ∧ (dotBody p c).2.wf = true := by
  unfold dotBody
  dsimp only
  have hr : (if (p.rendering && p.renderLine) = true then renderDot p.flagDot c else (p.flagDot, c)).1.Ok ∧
      (if (p.rendering && p.renderLine) = true then renderDot p.flagDot c else (p.flagDot, c)).2.wf = true := by
    split
    · exact ok_renderDot (Ppu.ok_flagDot h) hc
    · exact ⟨Ppu.ok_flagDot h, hc⟩
  refine ⟨?_, hr.2⟩
  split
  · next hv =>
    simp only [Ppu.visibleLine, Bool.and_eq_true, decide_eq_true_eq] at hv
    refine Ppu.ok_outputPixel hr.1 (by omega) ?_
    have : (if (p.rendering && p.renderLine) = true then renderDot p.flagDot c else (p.flagDot, c)).1.scanline
        = p.scanline := by split <;> simp
    rw [this]
    omega
  · exact hr.1

/-- A dot keeps the PPU's part of the invariant. -/
theorem ok_ppuDot {p : Ppu} {c : Cart} (h : p.Ok) (hc : c.wf = true) :
    (Machine.ppuDot p c).1.Ok ∧ (Machine.ppuDot p c).2.1.wf = true := by
  have hb := ok_dotBody h hc
  exact ⟨Ppu.ok_advance hb.1, hb.2⟩

/-! ### The registers -/

theorem Ppu.ok_writeOamData {p : Ppu} (v : Byte) (h : p.Ok) : (p.writeOamData v).Ok := by
  unfold Ppu.writeOamData
  split
  · exact h
  · have hm := (Ppu.memsWf_iff p).1 h.2
    exact ⟨h.1, (Ppu.memsWf_iff _).2 ⟨hm.1, Memory.wf_memSet _ p.oamAddr.isLt hm.2.1, hm.2.2⟩⟩

theorem ok_ppuRegWrite {p : Ppu} {c : Cart} (r : Nat) (v : Byte) (h : p.Ok) (hc : c.wf = true) :
    (ppuRegWrite p c r v).1.Ok ∧ (ppuRegWrite p c r v).2.wf = true := by
  have h' : ({ p with openBus := v } : Ppu).Ok := h
  unfold ppuRegWrite
  dsimp only
  split
  · exact ⟨h, hc⟩
  · exact ⟨h, hc⟩
  · exact ⟨h, hc⟩
  · exact ⟨h, hc⟩
  · exact ⟨Ppu.ok_writeOamData v h', hc⟩
  · unfold Ppu.writeScroll; split <;> exact ⟨h, hc⟩
  · unfold Ppu.writeAddr; split <;> exact ⟨h, hc⟩
  · exact ok_ppuBusWrite _ v h' hc

theorem ok_readData {p : Ppu} {c : Cart} (h : p.Ok) (hc : c.wf = true) :
    (readData p c).2.1.Ok ∧ (readData p c).2.2.wf = true := by
  unfold readData
  dsimp only
  split
  · exact ⟨h, wf_ppuBusRead _ hc⟩
  · exact ⟨h, wf_ppuBusRead _ hc⟩

theorem ok_ppuRegRead {p : Ppu} {c : Cart} (r : Nat) (h : p.Ok) (hc : c.wf = true) :
    (ppuRegRead p c r).2.1.Ok ∧ (ppuRegRead p c r).2.2.wf = true := by
  unfold ppuRegRead
  split
  · exact ⟨h, hc⟩
  · exact ⟨h, hc⟩
  · exact ok_readData h hc
  · exact ⟨h, hc⟩

end Sys2Proof.Machine
end

