-- ==== Sys2Proof/Laws/Inv.lean ====
section
/-!
SUPPORT. The invariant through every shared operation: the clock, the bus, DMA, the CPU cycles, the addressing templates, the stack
and the vectors.
-/

namespace Sys2Proof.Machine

theorem State.inv_iff (s : State) :
    s.Inv ↔ Memory.wf 0x800 s.ram = true ∧ s.ppu.Ok ∧ s.cart.wf = true ∧ s.apu.sound s.dma.dmcPending = true := by
  unfold State.Inv State.memWf Ppu.Ok
  simp only [Bool.and_eq_true]
  constructor
  · rintro ⟨⟨⟨a, b⟩, c⟩, d, e⟩; exact ⟨a, ⟨d, b⟩, c, e⟩
  · rintro ⟨a, ⟨d, b⟩, c, e⟩; exact ⟨⟨⟨a, b⟩, c⟩, d, e⟩

theorem CpuOnly.inv {s t : State} (h : CpuOnly s t) (hs : s.Inv) : t.Inv := by
  rw [State.inv_iff] at hs ⊢
  rw [h.ram, h.ppu, h.cart, h.apu, h.dma]
  exact hs

/-! ### The clock -/

theorem inv_ppuDot {s : State} (h : s.Inv) : s.ppuDot.Inv := by
  rw [State.inv_iff] at h ⊢
  have := ok_ppuDot h.2.1 h.2.2.1
  exact ⟨h.1, this.1, this.2, h.2.2.2⟩

theorem inv_apuStep {s : State} (h : s.Inv) : s.apuStep.Inv := by
  rw [State.inv_iff] at h ⊢
  refine ⟨h.1, h.2.1, h.2.2.1, ?_⟩
  have hs := Apu.sound_step s.cycles h.2.2.2
  have hd := (Apu.sound_iff _ _).1 hs
  exact (Apu.sound_iff _ _).2 ⟨Dmc.sound_request hd.1, hd.2⟩

theorem inv_countCycle {s : State} (h : s.Inv) : s.countCycle.Inv := h

theorem inv_latch {s : State} (b : Byte) (h : s.Inv) : (s.latch b).Inv := h

theorem inv_tick {s : State} (h : s.Inv) : s.tick.Inv := by
  unfold State.tick
  exact inv_countCycle (inv_apuStep (inv_ppuDot (inv_ppuDot (inv_ppuDot h))))

/-- A pending DMC request stays pending through a tick. -/
theorem dmcPending_tick {s : State} (h : s.dma.dmcPending = true) : s.tick.dma.dmcPending = true := by
  simp [State.tick, State.apuStep, h]

theorem inv_idle {s : State} (n : Nat) (h : s.Inv) : (s.idle n).Inv := by
  induction n generalizing s with
  | zero => exact h
  | succ n ih => exact ih (inv_tick h)

theorem dmcPending_idle {s : State} (n : Nat) (h : s.dma.dmcPending = true) : (s.idle n).dma.dmcPending = true := by
  induction n generalizing s with
  | zero => exact h
  | succ n ih => exact ih (dmcPending_tick h)

/-! ### The bus -/

@[simp] theorem busRead_dma (s : State) (a : Addr) : (s.busRead a).2.dma = s.dma := by
  unfold State.busRead
  repeat' split
  all_goals rfl

theorem inv_busRead {s : State} (a : Addr) (h : s.Inv) : (s.busRead a).2.Inv := by
  have hi := (State.inv_iff s).1 h
  unfold State.busRead
  split
  · exact h
  split
  · have := ok_ppuRegRead (a.toNat % 8) hi.2.1 hi.2.2.1
    exact (State.inv_iff _).2 ⟨hi.1, this.1, this.2, hi.2.2.2⟩
  split
  · exact h
  split
  · exact h
  split
  · exact h
  split
  · exact h
  · exact (State.inv_iff _).2 ⟨hi.1, hi.2.1, Cart.wf_cpuRead a hi.2.2.1, hi.2.2.2⟩

theorem inv_readAndTick {s : State} (a : Addr) (h : s.Inv) : (s.readAndTick a).2.Inv := by
  simp only [State.readAndTick]
  exact inv_tick (inv_latch _ (inv_busRead a h))

theorem dmcPending_readAndTick {s : State} (a : Addr) (h : s.dma.dmcPending = true) :
    (s.readAndTick a).2.dma.dmcPending = true := by
  simp only [State.readAndTick]
  exact dmcPending_tick (by rw [State.latch_dma, busRead_dma]; exact h)

theorem inv_busWrite {s : State} (a : Addr) (v : Byte) (h : s.Inv) : (s.busWrite a v).Inv := by
  have hi := (State.inv_iff s).1 h
  unfold State.busWrite
  split
  · exact (State.inv_iff _).2 ⟨Memory.wf_memSet v (ramIndex_lt a) hi.1, hi.2⟩
  split
  · have := ok_ppuRegWrite (a.toNat % 8) v hi.2.1 hi.2.2.1
    exact (State.inv_iff _).2 ⟨hi.1, this.1, this.2, hi.2.2.2⟩
  split
  · exact (State.inv_iff _).2 ⟨hi.1, hi.2.1, hi.2.2.1, Apu.sound_regWrite _ v hi.2.2.2⟩
  split
  · exact h
  split
  · exact (State.inv_iff _).2 ⟨hi.1, hi.2.1, hi.2.2.1, Apu.sound_statusWrite v hi.2.2.2⟩
  split
  · exact h
  split
  · exact (State.inv_iff _).2 ⟨hi.1, hi.2.1, hi.2.2.1, Apu.sound_frameCounterWrite _ v hi.2.2.2⟩
  split
  · exact h
  · exact (State.inv_iff _).2 ⟨hi.1, hi.2.1, Cart.wf_cpuWrite a v hi.2.2.1, hi.2.2.2⟩

/-! ### DMA -/

theorem inv_dmcDeliver {s : State} (b : Byte) (h : s.Inv) (hp : s.dma.dmcPending = true) : (s.dmcDeliver b).Inv := by
  have hi := (State.inv_iff s).1 h
  have hu := (Apu.sound_iff _ _).1 hi.2.2.2
  have hc : 0x8000 ≤ s.apu.dmc.curAddr.toNat := by
    rcases ((Dmc.sound_iff _ _).1 hu.1).2.2 with hc | ⟨_, hq⟩
    · exact hc
    · rw [hp] at hq; exact absurd hq (by decide)
  exact (State.inv_iff _).2 ⟨hi.1, hi.2.1, hi.2.2.1, (Apu.sound_iff _ _).2 ⟨Dmc.sound_deliver b hu.1 hc, hu.2⟩⟩

theorem inv_serveDmcIfPending {s : State} (h : s.Inv) : s.serveDmcIfPending.Inv := by
  unfold State.serveDmcIfPending
  split
  · next hp =>
    simp only [State.serveDmc]
    exact inv_dmcDeliver _ (inv_readAndTick _ (inv_idle _ h)) (dmcPending_readAndTick _ (dmcPending_idle _ hp))
  · exact h

theorem inv_dmaPut {s : State} (b : Byte) (h : s.Inv) : (s.dmaPut b).Inv := by
  have hi := (State.inv_iff s).1 h
  have hm := (Ppu.memsWf_iff _).1 hi.2.1.2
  exact (State.inv_iff _).2 ⟨hi.1, ⟨hi.2.1.1, (Ppu.memsWf_iff _).2
    ⟨hm.1, Memory.wf_memSet b s.ppu.oamAddr.isLt hm.2.1, hm.2.2⟩⟩, hi.2.2⟩

theorem inv_oamCopy {s : State} (page : Byte) (n : Nat) (h : s.Inv) : (s.oamCopy page n).Inv := by
  induction n generalizing s with
  | zero => exact h
  | succ n ih =>
    simp only [State.oamCopy, State.dmaWriteOam]
    exact ih (inv_tick (inv_latch _ (inv_dmaPut _ (inv_readAndTick _ h))))

theorem inv_serveOamIfPending {s : State} (h : s.Inv) : s.serveOamIfPending.Inv := by
  unfold State.serveOamIfPending State.serveOam
  split
  · exact inv_oamCopy _ _ (inv_idle _ h)
  · exact h

theorem inv_serviceDma {s : State} (h : s.Inv) : s.serviceDma.Inv := by
  unfold State.serviceDma
  exact inv_serveDmcIfPending (inv_serveOamIfPending (inv_serveDmcIfPending h))

/-! ### CPU cycles -/

theorem inv_memRead {s : State} (a : Addr) (h : s.Inv) : (s.memRead a).2.Inv := by
  unfold State.memRead
  exact inv_readAndTick a (inv_serviceDma h)

theorem inv_dummyRead {s : State} (a : Addr) (h : s.Inv) : (s.dummyRead a).Inv := inv_memRead a h

theorem inv_implied {s : State} (h : s.Inv) : s.implied.Inv := inv_memRead s.pc h

theorem inv_memWrite {s : State} (a : Addr) (v : Byte) (h : s.Inv) : (s.memWrite a v).Inv := by
  unfold State.memWrite
  exact inv_tick (inv_latch _ (inv_busWrite a v h))

theorem inv_fetchByte {s : State} (h : s.Inv) : s.fetchByte.2.Inv := by
  simp only [State.fetchByte]
  exact (cpuOnly_withPc _ _).inv (inv_memRead _ h)

theorem inv_fetchInstr {s : State} (h : s.Inv) : s.fetchInstr.2.Inv := by
  unfold State.fetchInstr
  dsimp only
  split
  · exact inv_fetchByte h
  · exact inv_fetchByte (inv_fetchByte h)
  · exact inv_fetchByte (inv_fetchByte (inv_fetchByte h))

/-! ### Templates -/

theorem inv_pointerX {s : State} (z : Byte) (h : s.Inv) : (s.pointerX z).2.Inv := by
  simp only [State.pointerX]
  exact inv_memRead _ (inv_memRead _ (inv_dummyRead _ h))

theorem inv_pointerY {s : State} (z : Byte) (h : s.Inv) : (s.pointerY z).2.Inv := by
  simp only [State.pointerY]
  exact inv_memRead _ (inv_memRead _ h)

theorem inv_locate {s : State} (m : MemMode) (h : s.Inv) : (s.locate m).2.Inv := by
  cases m with
  | zp z => exact h
  | abs a => exact h
  | indX z => exact inv_pointerX z h
  | indY z => exact inv_dummyRead _ (inv_pointerY z h)
  | _ => exact inv_dummyRead _ h

theorem inv_readIndexed {s : State} (base : Addr) (idx : Byte) (h : s.Inv) : (s.readIndexed base idx).2.Inv := by
  unfold State.readIndexed
  split
  · exact inv_memRead _ (inv_dummyRead _ h)
  · exact inv_memRead _ h

theorem inv_readMem {s : State} (m : MemMode) (h : s.Inv) : (s.readMem m).2.Inv := by
  cases m with
  | zp z => exact inv_memRead _ h
  | abs a => exact inv_memRead _ h
  | absX a => exact inv_readIndexed _ _ h
  | absY a => exact inv_readIndexed _ _ h
  | indX z => exact inv_memRead _ (inv_pointerX z h)
  | indY z =>
    simp only [State.readMem]
    exact inv_readIndexed _ _ (inv_pointerY z h)
  | _ => exact inv_memRead _ (inv_dummyRead _ h)

theorem inv_readOperand {s : State} (o : ReadOperand) (h : s.Inv) : (s.readOperand o).2.Inv := by
  cases o with
  | imm i => exact h
  | mem m => exact inv_readMem m h

theorem inv_store {s : State} (m : MemMode) (v : Byte) (h : s.Inv) : (s.store m v).Inv := by
  simp only [State.store]
  exact inv_memWrite _ _ (inv_locate m h)

theorem inv_modify {s : State} (m : MemMode) (f : Modifier) (hf : ∀ v u, CpuOnly u (f v u).2) (h : s.Inv) :
    (s.modify m f).Inv := by
  simp only [State.modify]
  exact inv_memWrite _ _ ((hf _ _).inv (inv_memWrite _ _ (inv_memRead _ (inv_locate m h))))

theorem inv_modifyOperand {s : State} (o : RmwOperand) (f : Modifier) (hf : ∀ v u, CpuOnly u (f v u).2) (h : s.Inv) :
    (s.modifyOperand o f).Inv := by
  cases o with
  | acc =>
    simp only [State.modifyOperand, State.modifyAcc]
    exact (cpuOnly_withA _ _).inv ((hf _ _).inv (inv_implied h))
  | mem m => exact inv_modify m f hf h

theorem inv_push {s : State} (v : Byte) (h : s.Inv) : (s.push v).Inv := (cpuOnly_withSp _ _).inv (inv_memWrite _ v h)

theorem inv_pull {s : State} (h : s.Inv) : s.pull.2.Inv := inv_memRead _ ((cpuOnly_withSp _ _).inv h)

theorem inv_pullPc {s : State} (h : s.Inv) : s.pullPc.Inv := by
  simp only [State.pullPc]
  exact (cpuOnly_withPc _ _).inv (inv_pull (inv_pull h))

theorem inv_pullFlags {s : State} (h : s.Inv) : s.pullFlags.Inv := by
  simp only [State.pullFlags]
  exact (cpuOnly_withP _ _).inv (inv_pull h)

theorem inv_enterVector {s : State} (vec : Addr) (h : s.Inv) : (s.enterVector vec).Inv := by
  simp only [State.enterVector]
  exact (cpuOnly_withPc _ _).inv (inv_memRead _ ((cpuOnly_withP _ _).inv (inv_memRead _ h)))

theorem inv_saveAndEnter {s : State} (status : Byte) (vec : Addr) (h : s.Inv) : (s.saveAndEnter status vec).Inv :=
  inv_enterVector vec (inv_push _ (inv_push _ (inv_push _ h)))

theorem inv_branch {s : State} (cond : Bool) (r : Byte) (h : s.Inv) : (s.branch cond r).Inv := by
  unfold State.branch
  dsimp only
  split
  · split
    · exact (cpuOnly_withPc _ _).inv (inv_dummyRead _ h)
    · exact (cpuOnly_withPc _ _).inv (inv_dummyRead _ (inv_dummyRead _ h))
  · exact h

/-- The first action of a reset leaves no byte to fetch and no request (70 R692). -/
theorem inv_resetDevices {s : State} (h : s.Inv) : s.resetDevices.Inv := by
  have hi := (State.inv_iff s).1 h
  have hu := (Apu.sound_iff _ _).1 (Apu.sound_statusWrite 0 hi.2.2.2)
  have hd := (Dmc.sound_iff _ _).1 hu.1
  refine (State.inv_iff _).2 ⟨hi.1, hi.2.1, hi.2.2.1, (Apu.sound_iff _ _).2 ⟨(Dmc.sound_iff _ _).2 ⟨hd.1, hd.2.1, ?_⟩, hu.2⟩⟩
  exact Or.inr ⟨rfl, rfl⟩

end Sys2Proof.Machine
end

