-- ==== Sys2Proof/Laws/OamPage.lean ====
section
/-!
SUPPORT. Nothing reads `oam_dma_page` unless an OAM DMA is pending, and the write that requests one sets it (63 R660): what a
reset does to the page shows nowhere but in the page (log 28).
-/

namespace Sys2Proof.Machine

/-- The state with another `oam_dma_page`. -/
def State.withOamPage (s : State) (page : Byte) : State := { s with dma := { s.dma with oamPage := page } }

theorem State.withOamPage_ppuDot (s : State) (p : Byte) : (s.withOamPage p).ppuDot = s.ppuDot.withOamPage p := by
  simp only [State.ppuDot, State.withOamPage]

theorem State.withOamPage_apuStep (s : State) (p : Byte) : (s.withOamPage p).apuStep = s.apuStep.withOamPage p := by
  simp only [State.apuStep, State.withOamPage]

theorem State.withOamPage_tick (s : State) (p : Byte) : (s.withOamPage p).tick = s.tick.withOamPage p := by
  simp only [State.tick, State.withOamPage_ppuDot, State.withOamPage_apuStep]
  rfl

theorem State.withOamPage_idle (s : State) (p : Byte) (n : Nat) : (s.withOamPage p).idle n = (s.idle n).withOamPage p := by
  induction n generalizing s with
  | zero => rfl
  | succ n ih => simp only [State.idle, State.withOamPage_tick, ih]

theorem State.withOamPage_busRead (s : State) (p : Byte) (a : Addr) :
    (s.withOamPage p).busRead a = ((s.busRead a).1, (s.busRead a).2.withOamPage p) := by
  unfold State.busRead
  repeat' split
  all_goals rfl

theorem State.withOamPage_latch (s : State) (p b : Byte) : (s.withOamPage p).latch b = (s.latch b).withOamPage p := rfl

theorem State.withOamPage_readAndTick (s : State) (p : Byte) (a : Addr) :
    (s.withOamPage p).readAndTick a = ((s.readAndTick a).1, (s.readAndTick a).2.withOamPage p) := by
  simp only [State.readAndTick, State.withOamPage_busRead, State.withOamPage_latch, State.withOamPage_tick]

theorem State.withOamPage_dmcDeliver (s : State) (p b : Byte) :
    (s.withOamPage p).dmcDeliver b = (s.dmcDeliver b).withOamPage p := rfl

theorem State.withOamPage_serveDmcIfPending (s : State) (p : Byte) :
    (s.withOamPage p).serveDmcIfPending = s.serveDmcIfPending.withOamPage p := by
  have ha : ∀ t : State, (t.withOamPage p).apu = t.apu := fun _ => rfl
  have hd : (s.withOamPage p).dma.dmcPending = s.dma.dmcPending := rfl
  simp only [State.serveDmcIfPending, State.serveDmc, hd, ha, State.withOamPage_idle, State.withOamPage_readAndTick,
    State.withOamPage_dmcDeliver]
  split <;> rfl

/-- A read cycle with no OAM DMA pending neither reads nor changes the page. -/
theorem State.withOamPage_memRead (s : State) (p : Byte) (a : Addr) (h : s.dma.oamPending = false) :
    (s.withOamPage p).memRead a = ((s.memRead a).1, (s.memRead a).2.withOamPage p) := by
  have hk := ((oamKept_serveDmcIfPending s).kept h).1
  have hp : (s.serveDmcIfPending.withOamPage p).dma.oamPending = false := hk
  simp only [State.memRead, State.serviceDma, State.withOamPage_serveDmcIfPending, State.serveOamIfPending, hp, hk,
    State.withOamPage_readAndTick, Bool.false_eq_true, if_false]

/-- Nor does a write cycle, but that of $4014, after which the page is the byte written whatever it was. -/
theorem State.withOamPage_memWrite (s : State) (p : Byte) (a : Addr) (v : Byte) :
    (s.withOamPage p).memWrite a v = if a = 0x4014 then s.memWrite a v else (s.memWrite a v).withOamPage p := by
  by_cases ha : a = 0x4014
  · subst ha; rfl
  · have hb : (s.withOamPage p).busWrite a v = (s.busWrite a v).withOamPage p := by
      have hn : a.toNat ≠ 0x4014 := fun e => ha (BitVec.eq_of_toNat_eq e)
      unfold State.busWrite
      rw [if_neg hn, if_neg hn]
      repeat' split
      all_goals rfl
    simp only [if_neg ha, State.memWrite, hb, State.withOamPage_latch, State.withOamPage_tick]

end Sys2Proof.Machine
end

