-- ==== Sys2Proof/Laws/PerInstr.lean ====
section
/-!
SUPPORT. What holds of every instruction as syntax, one lemma per constructor: a well-formed instruction is a row of the opcode
map, and the row's opcode byte alone tells how long it is (30_encoding.md R150, R156).
-/

namespace Sys2Proof.Laws.OpcodeLength

/-- A well-formed instruction has an opcode byte, and its length is the one that byte decides. -/
def Statement (i : Instr) : Prop :=
  i.wellFormed = true → ∃ op, opcodeOf i = some op ∧ lengthOf op = i.length

/-- The instruction's opcode, and its length by evaluation. -/
theorem intro {i : Instr} (op : Byte) (h : opcodeOf i = some op) (hl : lengthOf op = i.length) : Statement i :=
  fun _ => ⟨op, h, hl⟩

/-- A form no row of the map has. -/
theorem absurd {i : Instr} (h : i.wellFormed = false) : Statement i := fun hw => by rw [h] at hw; cases hw

theorem lda (o : ReadOperand) : Statement (.lda o) := by
  cases o with
  | imm i => exact intro _ rfl rfl
  | mem m => cases m <;> first | exact intro _ rfl rfl | exact absurd rfl

theorem ldx (o : ReadOperand) : Statement (.ldx o) := by
  cases o with
  | imm i => exact intro _ rfl rfl
  | mem m => cases m <;> first | exact intro _ rfl rfl | exact absurd rfl

theorem ldy (o : ReadOperand) : Statement (.ldy o) := by
  cases o with
  | imm i => exact intro _ rfl rfl
  | mem m => cases m <;> first | exact intro _ rfl rfl | exact absurd rfl

theorem sta (m : MemMode) : Statement (.sta m) := by
  cases m <;> first | exact intro _ rfl rfl | exact absurd rfl

theorem stx (m : MemMode) : Statement (.stx m) := by
  cases m <;> first | exact intro _ rfl rfl | exact absurd rfl

theorem sty (m : MemMode) : Statement (.sty m) := by
  cases m <;> first | exact intro _ rfl rfl | exact absurd rfl

theorem tax : Statement .tax := by
  exact intro _ rfl rfl

theorem tay : Statement .tay := by
  exact intro _ rfl rfl

theorem txa : Statement .txa := by
  exact intro _ rfl rfl

theorem tya : Statement .tya := by
  exact intro _ rfl rfl

theorem tsx : Statement .tsx := by
  exact intro _ rfl rfl

theorem txs : Statement .txs := by
  exact intro _ rfl rfl

theorem adc (o : ReadOperand) : Statement (.adc o) := by
  cases o with
  | imm i => exact intro _ rfl rfl
  | mem m => cases m <;> first | exact intro _ rfl rfl | exact absurd rfl

theorem sbc (o : ReadOperand) : Statement (.sbc o) := by
  cases o with
  | imm i => exact intro _ rfl rfl
  | mem m => cases m <;> first | exact intro _ rfl rfl | exact absurd rfl

theorem and (o : ReadOperand) : Statement (.and o) := by
  cases o with
  | imm i => exact intro _ rfl rfl
  | mem m => cases m <;> first | exact intro _ rfl rfl | exact absurd rfl

theorem ora (o : ReadOperand) : Statement (.ora o) := by
  cases o with
  | imm i => exact intro _ rfl rfl
  | mem m => cases m <;> first | exact intro _ rfl rfl | exact absurd rfl

theorem eor (o : ReadOperand) : Statement (.eor o) := by
  cases o with
  | imm i => exact intro _ rfl rfl
  | mem m => cases m <;> first | exact intro _ rfl rfl | exact absurd rfl

theorem cmp (o : ReadOperand) : Statement (.cmp o) := by
  cases o with
  | imm i => exact intro _ rfl rfl
  | mem m => cases m <;> first | exact intro _ rfl rfl | exact absurd rfl

theorem cpx (o : ReadOperand) : Statement (.cpx o) := by
  cases o with
  | imm i => exact intro _ rfl rfl
  | mem m => cases m <;> first | exact intro _ rfl rfl | exact absurd rfl

theorem cpy (o : ReadOperand) : Statement (.cpy o) := by
  cases o with
  | imm i => exact intro _ rfl rfl
  | mem m => cases m <;> first | exact intro _ rfl rfl | exact absurd rfl

theorem bit (o : ReadOperand) : Statement (.bit o) := by
  cases o with
  | imm i => first | exact intro _ rfl rfl | exact absurd rfl
  | mem m => cases m <;> first | exact intro _ rfl rfl | exact absurd rfl

theorem asl (o : RmwOperand) : Statement (.asl o) := by
  cases o with
  | acc => exact intro _ rfl rfl
  | mem m => cases m <;> first | exact intro _ rfl rfl | exact absurd rfl

theorem lsr (o : RmwOperand) : Statement (.lsr o) := by
  cases o with
  | acc => exact intro _ rfl rfl
  | mem m => cases m <;> first | exact intro _ rfl rfl | exact absurd rfl

theorem rol (o : RmwOperand) : Statement (.rol o) := by
  cases o with
  | acc => exact intro _ rfl rfl
  | mem m => cases m <;> first | exact intro _ rfl rfl | exact absurd rfl

theorem ror (o : RmwOperand) : Statement (.ror o) := by
  cases o with
  | acc => exact intro _ rfl rfl
  | mem m => cases m <;> first | exact intro _ rfl rfl | exact absurd rfl

theorem inc (m : MemMode) : Statement (.inc m) := by
  cases m <;> first | exact intro _ rfl rfl | exact absurd rfl

theorem dec (m : MemMode) : Statement (.dec m) := by
  cases m <;> first | exact intro _ rfl rfl | exact absurd rfl

theorem inx : Statement .inx := by
  exact intro _ rfl rfl

theorem iny : Statement .iny := by
  exact intro _ rfl rfl

theorem dex : Statement .dex := by
  exact intro _ rfl rfl

theorem dey : Statement .dey := by
  exact intro _ rfl rfl

theorem bpl (r : Byte) : Statement (.bpl r) := by
  exact intro _ rfl rfl

theorem bmi (r : Byte) : Statement (.bmi r) := by
  exact intro _ rfl rfl

theorem bvc (r : Byte) : Statement (.bvc r) := by
  exact intro _ rfl rfl

theorem bvs (r : Byte) : Statement (.bvs r) := by
  exact intro _ rfl rfl

theorem bcc (r : Byte) : Statement (.bcc r) := by
  exact intro _ rfl rfl

theorem bcs (r : Byte) : Statement (.bcs r) := by
  exact intro _ rfl rfl

theorem bne (r : Byte) : Statement (.bne r) := by
  exact intro _ rfl rfl

theorem beq (r : Byte) : Statement (.beq r) := by
  exact intro _ rfl rfl

theorem jmp (target : Addr) : Statement (.jmp target) := by
  exact intro _ rfl rfl

theorem jmpInd (pointer : Addr) : Statement (.jmpInd pointer) := by
  exact intro _ rfl rfl

theorem jsr (target : Addr) : Statement (.jsr target) := by
  exact intro _ rfl rfl

theorem rts : Statement .rts := by
  exact intro _ rfl rfl

theorem rti : Statement .rti := by
  exact intro _ rfl rfl

theorem brk : Statement .brk := by
  exact intro _ rfl rfl

theorem pha : Statement .pha := by
  exact intro _ rfl rfl

theorem php : Statement .php := by
  exact intro _ rfl rfl

theorem pla : Statement .pla := by
  exact intro _ rfl rfl

theorem plp : Statement .plp := by
  exact intro _ rfl rfl

theorem clc : Statement .clc := by
  exact intro _ rfl rfl

theorem sec : Statement .sec := by
  exact intro _ rfl rfl

theorem cli : Statement .cli := by
  exact intro _ rfl rfl

theorem sei : Statement .sei := by
  exact intro _ rfl rfl

theorem cld : Statement .cld := by
  exact intro _ rfl rfl

theorem sed : Statement .sed := by
  exact intro _ rfl rfl

theorem clv : Statement .clv := by
  exact intro _ rfl rfl

theorem nop (op : Byte) (o : NopOperand) : Statement (.nop op o) := by
  intro h
  cases o with
  | implied =>
    exact ⟨op, if_pos h, by revert h; revert op; decide +kernel⟩
  | read r =>
    cases r with
    | imm i => exact ⟨op, if_pos h, by revert h; change nopForm op (.read (.imm 0)) = true → _ = 2; revert op; decide +kernel⟩
    | mem m =>
      refine ⟨op, if_pos h, ?_⟩
      revert h
      cases m with
      | zp z => change nopForm op (.read (.mem (.zp 0))) = true → _ = 2; revert op; decide +kernel
      | zpX z => change nopForm op (.read (.mem (.zpX 0))) = true → _ = 2; revert op; decide +kernel
      | abs a => change nopForm op (.read (.mem (.abs 0))) = true → _ = 3; revert op; decide +kernel
      | absX a => change nopForm op (.read (.mem (.absX 0))) = true → _ = 3; revert op; decide +kernel
      | _ => exact fun h => nomatch h

theorem lax (m : MemMode) : Statement (.lax m) := by
  cases m <;> first | exact intro _ rfl rfl | exact absurd rfl

theorem sax (m : MemMode) : Statement (.sax m) := by
  cases m <;> first | exact intro _ rfl rfl | exact absurd rfl

theorem sbcEB (i : Byte) : Statement (.sbcEB i) := by
  exact intro _ rfl rfl

theorem slo (m : MemMode) : Statement (.slo m) := by
  cases m <;> first | exact intro _ rfl rfl | exact absurd rfl

theorem rla (m : MemMode) : Statement (.rla m) := by
  cases m <;> first | exact intro _ rfl rfl | exact absurd rfl

theorem sre (m : MemMode) : Statement (.sre m) := by
  cases m <;> first | exact intro _ rfl rfl | exact absurd rfl

theorem rra (m : MemMode) : Statement (.rra m) := by
  cases m <;> first | exact intro _ rfl rfl | exact absurd rfl

theorem dcp (m : MemMode) : Statement (.dcp m) := by
  cases m <;> first | exact intro _ rfl rfl | exact absurd rfl

theorem isb (m : MemMode) : Statement (.isb m) := by
  cases m <;> first | exact intro _ rfl rfl | exact absurd rfl

theorem kil (op : Byte) : Statement (.kil op) := by
  exact fun h => ⟨op, if_pos h, by revert h; change kilOpcodes.contains op = true → _ = 1; revert op; decide +kernel⟩

theorem anc (op : Byte) (i : Byte) : Statement (.anc op i) := by
  exact fun h => ⟨op, if_pos h, by
    revert h; change (op == 0x0B#8 || op == 0x2B#8) = true → _ = 2; revert op; decide +kernel⟩

theorem alr (i : Byte) : Statement (.alr i) := by
  exact intro _ rfl rfl

theorem arr (i : Byte) : Statement (.arr i) := by
  exact intro _ rfl rfl

theorem axs (i : Byte) : Statement (.axs i) := by
  exact intro _ rfl rfl

theorem xaa (i : Byte) : Statement (.xaa i) := by
  exact intro _ rfl rfl

theorem lxa (i : Byte) : Statement (.lxa i) := by
  exact intro _ rfl rfl

theorem las (a : Addr) : Statement (.las a) := by
  exact intro _ rfl rfl

theorem sha (m : MemMode) : Statement (.sha m) := by
  cases m <;> first | exact intro _ rfl rfl | exact absurd rfl

theorem shx (a : Addr) : Statement (.shx a) := by
  exact intro _ rfl rfl

theorem shy (a : Addr) : Statement (.shy a) := by
  exact intro _ rfl rfl

theorem tas (a : Addr) : Statement (.tas a) := by
  exact intro _ rfl rfl

end Sys2Proof.Laws.OpcodeLength
end

