-- ==== Sys2Proof/Tests/Slice0.lean ====
section
/-!
SUPPORT. The model's own tests: the checks of WellFormed, words written out from the spec's encodings, one step of each instruction on
a vector of 95_test_vectors.md (the number in each name is the vector's), and for each obligation with hypotheses a state that meets
them.
-/

namespace Sys2Proof.Tests

open Sys2Proof Sys2Proof.Machine

-- One theorem at a time: the kernel evaluates a step in each, and a hundred at once run out of stacks.
set_option Elab.async false

/-! ### WellFormed refuses -/

theorem test_wellFormed_refuses_modes :
    (Instr.lda (.mem (.zpY 0))).wellFormed = false ∧ (Instr.ldx (.mem (.zpX 0))).wellFormed = false
      ∧ (Instr.ldy (.mem (.indX 0))).wellFormed = false ∧ (Instr.cpx (.mem (.zpX 0))).wellFormed = false
      ∧ (Instr.bit (.imm 0)).wellFormed = false ∧ (Instr.bit (.mem (.absX 0))).wellFormed = false
      ∧ (Instr.sta (.zpY 0)).wellFormed = false ∧ (Instr.stx (.absY 0)).wellFormed = false
      ∧ (Instr.sty (.zpY 0)).wellFormed = false ∧ (Instr.asl (.mem (.absY 0))).wellFormed = false
      ∧ (Instr.inc (.indX 0)).wellFormed = false ∧ (Instr.lax (.zpX 0)).wellFormed = false
      ∧ (Instr.sax (.absY 0)).wellFormed = false ∧ (Instr.slo (.zpY 0)).wellFormed = false
      ∧ (Instr.sha (.abs 0)).wellFormed = false := by decide

theorem test_wellFormed_refuses_bytes :
    (Instr.nop 0x1B .implied).wellFormed = false ∧ (Instr.nop 0x80 .implied).wellFormed = false
      ∧ (Instr.nop 0xEA (.read (.imm 0))).wellFormed = false ∧ (Instr.nop 0x04 (.read (.mem (.zpX 0)))).wellFormed = false
      ∧ (Instr.nop 0x14 (.read (.mem (.zp 0)))).wellFormed = false ∧ (Instr.nop 0x1C (.read (.mem (.abs 0)))).wellFormed = false
      ∧ (Instr.nop 0x0C (.read (.mem (.absX 0)))).wellFormed = false
      ∧ (Instr.nop 0x0C (.read (.mem (.indY 0)))).wellFormed = false ∧ (Instr.kil 0x82).wellFormed = false
      ∧ (Instr.anc 0x4B 0).wellFormed = false := by decide

theorem test_encode_refuses_ill_formed : encode (.lda (.mem (.zpY 0))) = [] ∧ encode (.kil 0x82) = [] := by decide

theorem test_decode_refuses_short_input :
    decode [] = .refused .noOpcode ∧ decode [0xA9] = .refused (.truncated 0xA9)
      ∧ decode [0x4C, 0x00] = .refused (.truncated 0x4C) := by decide

/-! ### Words written out from the encodings of 41-46 -/

theorem test_decode_loads_and_stores :
    decode [0xA9, 0x7F] = .instr (.lda (.imm 0x7F)) []
      ∧ decode [0xA1, 0x10] = .instr (.lda (.mem (.indX 0x10))) []
      ∧ decode [0xBE, 0x34, 0x12] = .instr (.ldx (.mem (.absY 0x1234))) []
      ∧ decode [0xB4, 0x80] = .instr (.ldy (.mem (.zpX 0x80))) []
      ∧ decode [0x91, 0x20] = .instr (.sta (.indY 0x20)) []
      ∧ decode [0x96, 0x20] = .instr (.stx (.zpY 0x20)) []
      ∧ decode [0x8C, 0x00, 0x20] = .instr (.sty (.abs 0x2000)) [] := by
  decide

theorem test_decode_transfers :
    decode [0xAA] = .instr (.tax) []
      ∧ decode [0xA8] = .instr (.tay) []
      ∧ decode [0x8A] = .instr (.txa) []
      ∧ decode [0x98] = .instr (.tya) []
      ∧ decode [0xBA] = .instr (.tsx) []
      ∧ decode [0x9A] = .instr (.txs) [] := by
  decide

theorem test_decode_arithmetic_and_logic :
    decode [0x71, 0x40] = .instr (.adc (.mem (.indY 0x40))) []
      ∧ decode [0xF9, 0x01, 0x02] = .instr (.sbc (.mem (.absY 0x0201))) []
      ∧ decode [0x29, 0x0F] = .instr (.and (.imm 0x0F)) []
      ∧ decode [0x1D, 0x00, 0x03] = .instr (.ora (.mem (.absX 0x0300))) []
      ∧ decode [0x55, 0x07] = .instr (.eor (.mem (.zpX 0x07))) []
      ∧ decode [0xC1, 0xFE] = .instr (.cmp (.mem (.indX 0xFE))) []
      ∧ decode [0xEC, 0x02, 0x20] = .instr (.cpx (.mem (.abs 0x2002))) []
      ∧ decode [0xC4, 0x09] = .instr (.cpy (.mem (.zp 0x09))) []
      ∧ decode [0x24, 0x10] = .instr (.bit (.mem (.zp 0x10))) [] := by
  decide

theorem test_decode_shifts_and_counts :
    decode [0x0A] = .instr (.asl .acc) []
      ∧ decode [0x5E, 0x00, 0x04] = .instr (.lsr (.mem (.absX 0x0400))) []
      ∧ decode [0x36, 0x11] = .instr (.rol (.mem (.zpX 0x11))) []
      ∧ decode [0x6E, 0xFF, 0x07] = .instr (.ror (.mem (.abs 0x07FF))) []
      ∧ decode [0xE6, 0x10] = .instr (.inc (.zp 0x10)) []
      ∧ decode [0xDE, 0x01, 0x03] = .instr (.dec (.absX 0x0301)) []
      ∧ decode [0xE8] = .instr (.inx) []
      ∧ decode [0xC8] = .instr (.iny) []
      ∧ decode [0xCA] = .instr (.dex) []
      ∧ decode [0x88] = .instr (.dey) [] := by
  decide

theorem test_decode_control_flow :
    decode [0x10, 0x80] = .instr (.bpl 0x80) []
      ∧ decode [0x30, 0x7F] = .instr (.bmi 0x7F) []
      ∧ decode [0x50, 0x00] = .instr (.bvc 0x00) []
      ∧ decode [0x70, 0x01] = .instr (.bvs 0x01) []
      ∧ decode [0x90, 0x02] = .instr (.bcc 0x02) []
      ∧ decode [0xB0, 0x03] = .instr (.bcs 0x03) []
      ∧ decode [0xD0, 0x05] = .instr (.bne 0x05) []
      ∧ decode [0xF0, 0xFE] = .instr (.beq 0xFE) []
      ∧ decode [0x4C, 0x34, 0x12] = .instr (.jmp 0x1234) []
      ∧ decode [0x6C, 0xFF, 0x02] = .instr (.jmpInd 0x02FF) []
      ∧ decode [0x20, 0x10, 0x80] = .instr (.jsr 0x8010) []
      ∧ decode [0x60] = .instr (.rts) []
      ∧ decode [0x40] = .instr (.rti) []
      ∧ decode [0x00] = .instr (.brk) [] := by
  decide

theorem test_decode_stack_flags_and_nop :
    decode [0x48] = .instr (.pha) []
      ∧ decode [0x08] = .instr (.php) []
      ∧ decode [0x68] = .instr (.pla) []
      ∧ decode [0x28] = .instr (.plp) []
      ∧ decode [0x18] = .instr (.clc) []
      ∧ decode [0x38] = .instr (.sec) []
      ∧ decode [0x58] = .instr (.cli) []
      ∧ decode [0x78] = .instr (.sei) []
      ∧ decode [0xD8] = .instr (.cld) []
      ∧ decode [0xF8] = .instr (.sed) []
      ∧ decode [0xB8] = .instr (.clv) []
      ∧ decode [0xEA] = .instr (.nop 0xEA .implied) []
      ∧ decode [0x80, 0x10] = .instr (.nop 0x80 (.read (.imm 0x10))) []
      ∧ decode [0xDC, 0xFF, 0x02] = .instr (.nop 0xDC (.read (.mem (.absX 0x02FF)))) [] := by
  decide

theorem test_decode_undocumented :
    decode [0xB7, 0x10] = .instr (.lax (.zpY 0x10)) []
      ∧ decode [0x83, 0x10] = .instr (.sax (.indX 0x10)) []
      ∧ decode [0xEB, 0x03] = .instr (.sbcEB 0x03) []
      ∧ decode [0x13, 0x10] = .instr (.slo (.indY 0x10)) []
      ∧ decode [0x3B, 0x00, 0x02] = .instr (.rla (.absY 0x0200)) []
      ∧ decode [0x47, 0x10] = .instr (.sre (.zp 0x10)) []
      ∧ decode [0x6F, 0x00, 0x02] = .instr (.rra (.abs 0x0200)) []
      ∧ decode [0xD7, 0x10] = .instr (.dcp (.zpX 0x10)) []
      ∧ decode [0xFF, 0x00, 0x02] = .instr (.isb (.absX 0x0200)) []
      ∧ decode [0xB2] = .instr (.kil 0xB2) []
      ∧ decode [0x2B, 0x12] = .instr (.anc 0x2B 0x12) []
      ∧ decode [0x4B, 0x01] = .instr (.alr 0x01) []
      ∧ decode [0x6B, 0x02] = .instr (.arr 0x02) []
      ∧ decode [0xCB, 0x03] = .instr (.axs 0x03) []
      ∧ decode [0x8B, 0x04] = .instr (.xaa 0x04) []
      ∧ decode [0xAB, 0x05] = .instr (.lxa 0x05) []
      ∧ decode [0xBB, 0x00, 0x02] = .instr (.las 0x0200) []
      ∧ decode [0x93, 0x10] = .instr (.sha (.indY 0x10)) []
      ∧ decode [0x9E, 0x00, 0x02] = .instr (.shx 0x0200) []
      ∧ decode [0x9C, 0x00, 0x02] = .instr (.shy 0x0200) []
      ∧ decode [0x9B, 0x00, 0x02] = .instr (.tas 0x0200) [] := by
  decide

/-! ### One step of each instruction -/

/-- Bytes in a row from an index on. -/
def load (m : Mem) (at_ : Nat) : List Byte → Mem
  | [] => m
  | b :: rest => load (memSet m at_ b) (at_ + 1) rest

/-- The start state of the vectors: after the reset sequence, with code at `pc` in a 32 KiB reference cartridge. The policy is
`nmos`, so that the vectors of the thirteen others run. -/
def start (pc : Addr) (code : List Byte) : State :=
  { State.reset with undocPolicy := .nmos, pc := pc, cart := .nrom { Nrom.empty with prg := load [] (pc.toNat - 0x8000) code } }

/-- The step answers a next state that passes the check. -/
def gives (s : State) (check : State → Bool) : Bool :=
  match step s with
  | .next t => check t
  | _ => false

/-- A byte of internal RAM. -/
def ramAt (s : State) (a : Nat) : Byte := memGet s.ram a

theorem test_V2_1_lda :
    gives (start 0x8000 [0xA9, 0x00])
      (fun t => t.a == 0x00 && t.p.byte == 0x26 && t.cycles == 9) = true := by decide +kernel

theorem test_V2_8_lda_indY_crosses :
    gives { start 0x8000 [0xB1, 0x10] with y := 0x10, ram := [(0x10, 0xF8), (0x11, 0x02), (0x308, 0x21)] }
      (fun t => t.a == 0x21 && t.cycles == 13) = true := by decide +kernel

theorem test_V2_2_ldx :
    gives (start 0x8000 [0xA2, 0x80])
      (fun t => t.x == 0x80 && t.p.byte == 0xA4 && t.cycles == 9) = true := by decide +kernel

theorem test_V2_9_ldx_zpY_wraps :
    gives { start 0x8000 [0xB6, 0x01] with y := 0xFF, ram := [(0x00, 0x11)] }
      (fun t => t.x == 0x11 && t.cycles == 11) = true := by decide +kernel

theorem test_R252_ldy :
    gives (start 0x8000 [0xA0, 0x80])
      (fun t => t.y == 0x80 && t.p.byte == 0xA4 && t.cycles == 9) = true := by decide +kernel

theorem test_V2_5_sta :
    gives { start 0x8000 [0x9D, 0xFF, 0x02] with a := 0x44, x := 0x01 }
      (fun t => ramAt t 0x300 == 0x44 && t.p.byte == 0x24 && t.cycles == 12) = true := by decide +kernel

theorem test_V2_10_sta_mirror :
    gives { start 0x8000 [0x8D, 0x00, 0x08] with a := 0x5C }
      (fun t => ramAt t 0 == 0x5C && t.cycles == 11) = true := by decide +kernel

theorem test_R254_stx :
    gives { start 0x8000 [0x96, 0x20] with x := 0x5A, y := 0xFF }
      (fun t => ramAt t 0x1F == 0x5A && t.cycles == 11) = true := by decide +kernel

theorem test_R255_sty :
    gives { start 0x8000 [0x94, 0x20] with y := 0x5A, x := 0xFF }
      (fun t => ramAt t 0x1F == 0x5A && t.cycles == 11) = true := by decide +kernel

theorem test_R256_tax :
    gives { start 0x8000 [0xAA] with a := 0x80 }
      (fun t => t.x == 0x80 && t.p.byte == 0xA4 && t.cycles == 9) = true := by decide +kernel

theorem test_V2_11_tay :
    gives { start 0x8000 [0xA8] with a := 0x80 }
      (fun t => t.y == 0x80 && t.p.byte == 0xA4 && t.cycles == 9) = true := by decide +kernel

theorem test_R258_txa :
    gives { start 0x8000 [0x8A] with a := 0x01 }
      (fun t => t.a == 0 && t.p.byte == 0x26 && t.cycles == 9) = true := by decide +kernel

theorem test_R259_tya :
    gives { start 0x8000 [0x98] with y := 0x80 }
      (fun t => t.a == 0x80 && t.p.byte == 0xA4 && t.cycles == 9) = true := by decide +kernel

theorem test_V2_12_tsx :
    gives { start 0x8000 [0xBA] with sp := 0x00, x := 0x01 }
      (fun t => t.x == 0 && t.p.byte == 0x26 && t.cycles == 9) = true := by decide +kernel

theorem test_V2_13_txs :
    gives { start 0x8000 [0x9A] with p := .ofByte 0xA4 }
      (fun t => t.sp == 0 && t.p.byte == 0xA4 && t.cycles == 9) = true := by decide +kernel

theorem test_V3_1_adc :
    gives { start 0x8000 [0x69, 0x01] with a := 0xFF, p := .ofByte 0x25 }
      (fun t => t.a == 0x01 && t.p.byte == 0x25 && t.cycles == 9) = true := by decide +kernel

theorem test_V3_12_adc_ignores_D :
    gives { start 0x8000 [0x69, 0x09] with a := 0x19, p := .ofByte 0x2C }
      (fun t => t.a == 0x22 && t.p.byte == 0x2C && t.cycles == 9) = true := by decide +kernel

theorem test_V3_8_sbc :
    gives { start 0x8000 [0xE9, 0xB0] with a := 0x50, p := .ofByte 0x25 }
      (fun t => t.a == 0xA0 && t.p.byte == 0xE4 && t.cycles == 9) = true := by decide +kernel

theorem test_V3_10_sbc :
    gives { start 0x8000 [0xE9, 0x01] with a := 0x80, p := .ofByte 0x25 }
      (fun t => t.a == 0x7F && t.p.byte == 0x65 && t.cycles == 9) = true := by decide +kernel

theorem test_V3_13_and :
    gives { start 0x8000 [0x29, 0x0F] with a := 0xF0 }
      (fun t => t.a == 0 && t.p.byte == 0x26 && t.cycles == 9) = true := by decide +kernel

theorem test_V3_14_ora :
    gives { start 0x8000 [0x09, 0x01] with a := 0x80 }
      (fun t => t.a == 0x81 && t.p.byte == 0xA4 && t.cycles == 9) = true := by decide +kernel

theorem test_V3_15_eor :
    gives { start 0x8000 [0x49, 0xFF] with a := 0xFF }
      (fun t => t.a == 0 && t.p.byte == 0x26 && t.cycles == 9) = true := by decide +kernel

theorem test_V3_18_cmp :
    gives { start 0x8000 [0xC9, 0xC0] with a := 0x40 }
      (fun t => t.a == 0x40 && t.p.byte == 0xA4 && t.cycles == 9) = true := by decide +kernel

theorem test_V3_19_cpx :
    gives (start 0x8000 [0xE0, 0x01])
      (fun t => t.p.byte == 0xA4 && t.cycles == 9) = true := by decide +kernel

theorem test_V3_20_cpy :
    gives { start 0x8000 [0xC0, 0x00] with y := 0xFF }
      (fun t => t.p.byte == 0xA5 && t.cycles == 9) = true := by decide +kernel

theorem test_V3_21_bit :
    gives { start 0x8000 [0x24, 0x10] with a := 0x01, ram := [(0x10, 0xC0)] }
      (fun t => t.a == 0x01 && t.p.byte == 0xE6 && t.cycles == 10) = true := by decide +kernel

theorem test_V4_1_asl :
    gives { start 0x8000 [0x0A] with a := 0x81 }
      (fun t => t.a == 0x02 && t.p.byte == 0x25 && t.cycles == 9) = true := by decide +kernel

theorem test_V4_6_asl_memory :
    gives { start 0x8000 [0x06, 0x10] with ram := [(0x10, 0x80)] }
      (fun t => ramAt t 0x10 == 0 && t.p.byte == 0x27 && t.cycles == 12) = true := by decide +kernel

theorem test_V4_2_lsr :
    gives { start 0x8000 [0x4A] with a := 0x01 }
      (fun t => t.a == 0 && t.p.byte == 0x27 && t.cycles == 9) = true := by decide +kernel

theorem test_V4_4_rol :
    gives { start 0x8000 [0x2A] with p := .ofByte 0x25 }
      (fun t => t.a == 0x01 && t.p.byte == 0x24 && t.cycles == 9) = true := by decide +kernel

theorem test_V4_5_ror :
    gives { start 0x8000 [0x6A] with a := 0x01, p := .ofByte 0x25 }
      (fun t => t.a == 0x80 && t.p.byte == 0xA5 && t.cycles == 9) = true := by decide +kernel

theorem test_V4_7_ror_memory :
    gives { start 0x8000 [0x66, 0x10] with ram := [(0x10, 0x02)], p := .ofByte 0x25 }
      (fun t => ramAt t 0x10 == 0x81 && t.p.byte == 0xA4 && t.cycles == 12) = true := by decide +kernel

theorem test_V4_10_inc :
    gives { start 0x8000 [0xFE, 0xFF, 0x02] with x := 0x01, ram := [(0x300, 0x7F)] }
      (fun t => ramAt t 0x300 == 0x80 && t.p.byte == 0xA4 && t.cycles == 14) = true := by decide +kernel

theorem test_V4_9_dec :
    gives (start 0x8000 [0xC6, 0x10])
      (fun t => ramAt t 0x10 == 0xFF && t.p.byte == 0xA4 && t.cycles == 12) = true := by decide +kernel

theorem test_V4_11_inx :
    gives { start 0x8000 [0xE8] with x := 0xFF }
      (fun t => t.x == 0 && t.p.byte == 0x26 && t.cycles == 9) = true := by decide +kernel

theorem test_V4_12_iny :
    gives { start 0x8000 [0xC8] with y := 0x7F }
      (fun t => t.y == 0x80 && t.p.byte == 0xA4 && t.cycles == 9) = true := by decide +kernel

theorem test_V4_13_dex :
    gives { start 0x8000 [0xCA] with x := 0x01 }
      (fun t => t.x == 0 && t.p.byte == 0x26 && t.cycles == 9) = true := by decide +kernel

theorem test_V4_14_dey :
    gives (start 0x8000 [0x88])
      (fun t => t.y == 0xFF && t.p.byte == 0xA4 && t.cycles == 9) = true := by decide +kernel

theorem test_V5_1_bne_taken_crosses :
    gives (start 0x80FD [0xD0, 0x05])
      (fun t => t.pc == 0x8104 && t.cycles == 11) = true := by decide +kernel

theorem test_V5_2_bne_not_taken :
    gives { start 0x80FD [0xD0, 0x05] with p := .ofByte 0x26 }
      (fun t => t.pc == 0x80FF && t.cycles == 9) = true := by decide +kernel

theorem test_V5_3_beq :
    gives { start 0x8010 [0xF0, 0xFE] with p := .ofByte 0x26 }
      (fun t => t.pc == 0x8010 && t.cycles == 10) = true := by decide +kernel

theorem test_V5_4_bpl :
    gives (start 0x8100 [0x10, 0x80])
      (fun t => t.pc == 0x8082 && t.cycles == 11) = true := by decide +kernel

theorem test_V5_5_bmi :
    gives { start 0x8000 [0x30, 0x7F] with p := .ofByte 0xA4 }
      (fun t => t.pc == 0x8081 && t.cycles == 10) = true := by decide +kernel

theorem test_V5_6_bvc :
    gives { start 0x8000 [0x50, 0x10] with p := .ofByte 0x64 }
      (fun t => t.pc == 0x8002 && t.cycles == 9) = true := by decide +kernel

theorem test_V5_6_bvs :
    gives { start 0x8000 [0x70, 0x10] with p := .ofByte 0x64 }
      (fun t => t.pc == 0x8012 && t.cycles == 10) = true := by decide +kernel

theorem test_V5_7_bcc :
    gives (start 0x8000 [0x90, 0x10])
      (fun t => t.pc == 0x8012 && t.cycles == 10) = true := by decide +kernel

theorem test_V5_7_bcs :
    gives (start 0x8000 [0xB0, 0x10])
      (fun t => t.pc == 0x8002 && t.cycles == 9) = true := by decide +kernel

theorem test_V5_8_jmp :
    gives (start 0x8000 [0x4C, 0x34, 0x12])
      (fun t => t.pc == 0x1234 && t.cycles == 10) = true := by decide +kernel

theorem test_V5_9_jmp_indirect_same_page :
    gives { start 0x8000 [0x6C, 0xFF, 0x02] with ram := [(0x200, 0x80), (0x2FF, 0x40), (0x300, 0x90)] }
      (fun t => t.pc == 0x8040 && t.cycles == 12) = true := by decide +kernel

theorem test_V5_11_jsr :
    gives (start 0x8002 [0x20, 0x10, 0x80])
      (fun t => ramAt t 0x1FD == 0x80 && ramAt t 0x1FC == 0x04 && t.sp == 0xFB && t.pc == 0x8010 && t.cycles == 13) = true := by decide +kernel

theorem test_V5_15_jsr_wraps :
    gives { start 0x8000 [0x20, 0x00, 0x90] with sp := 0x00 }
      (fun t => ramAt t 0x100 == 0x80 && ramAt t 0x1FF == 0x02 && t.sp == 0xFE && t.pc == 0x9000 && t.cycles == 13) = true := by decide +kernel

theorem test_V5_12_rts :
    gives { start 0x8000 [0x60] with sp := 0xFB, ram := [(0x1FC, 0x04), (0x1FD, 0x80)] }
      (fun t => t.pc == 0x8005 && t.sp == 0xFD && t.cycles == 13) = true := by decide +kernel

theorem test_V5_14_rti :
    gives { start 0x8000 [0x40] with sp := 0xFA, p := .ofByte 0, ram := [(0x1FB, 0x34), (0x1FC, 0x04), (0x1FD, 0x80)] }
      (fun t => t.p.byte == 0x24 && t.pc == 0x8004 && t.sp == 0xFD && t.cycles == 13) = true := by decide +kernel

theorem test_V5_13_brk :
    gives { start 0x8002 [0x00] with cart := .nrom { Nrom.empty with prg := [(0x7FFF, 0x81)] } }
      (fun t => ramAt t 0x1FD == 0x80 && ramAt t 0x1FC == 0x04 && ramAt t 0x1FB == 0x34 && t.sp == 0xFA
        && t.p.i && t.pc == 0x8100 && t.cycles == 14) = true := by decide +kernel

theorem test_V6_2_pha :
    gives { start 0x8000 [0x48] with a := 0x11, sp := 0x00 }
      (fun t => ramAt t 0x100 == 0x11 && t.sp == 0xFF && t.cycles == 10) = true := by decide +kernel

theorem test_V6_4_php :
    gives { start 0x8000 [0x08] with p := .ofByte 0xA4 }
      (fun t => ramAt t 0x1FD == 0xB4 && t.p.byte == 0xA4 && t.cycles == 10) = true := by decide +kernel

theorem test_V6_3_pla :
    gives { start 0x8000 [0x68] with sp := 0xFF, ram := [(0x100, 0x80)] }
      (fun t => t.a == 0x80 && t.sp == 0 && t.p.byte == 0xA4 && t.cycles == 11) = true := by decide +kernel

theorem test_V6_5_plp :
    gives { start 0x8000 [0x28] with sp := 0xFC, ram := [(0x1FD, 0xFF)] }
      (fun t => t.p.byte == 0xEF && t.sp == 0xFD && t.cycles == 11) = true := by decide +kernel

theorem test_V6_7_clc :
    gives { start 0x8000 [0x18] with p := .ofByte 0x25 }
      (fun t => t.p.byte == 0x24 && t.cycles == 9) = true := by decide +kernel

theorem test_V6_7_sec :
    gives { start 0x8000 [0x38] with p := .ofByte 0x24 }
      (fun t => t.p.byte == 0x25 && t.cycles == 9) = true := by decide +kernel

theorem test_V6_8_cli :
    gives { start 0x8000 [0x58] with p := .ofByte 0x24 }
      (fun t => t.p.byte == 0x20 && t.cycles == 9) = true := by decide +kernel

theorem test_V6_8_sei :
    gives { start 0x8000 [0x78] with p := .ofByte 0x20 }
      (fun t => t.p.byte == 0x24 && t.cycles == 9) = true := by decide +kernel

theorem test_V6_9_cld :
    gives { start 0x8000 [0xD8] with p := .ofByte 0x2C }
      (fun t => t.p.byte == 0x24 && t.cycles == 9) = true := by decide +kernel

theorem test_V6_9_sed :
    gives { start 0x8000 [0xF8] with p := .ofByte 0x24 }
      (fun t => t.p.byte == 0x2C && t.cycles == 9) = true := by decide +kernel

theorem test_V6_10_clv :
    gives { start 0x8000 [0xB8] with p := .ofByte 0x64 }
      (fun t => t.p.byte == 0x24 && t.cycles == 9) = true := by decide +kernel

theorem test_V6_11_nop :
    gives (start 0x8000 [0xEA])
      (fun t => t.pc == 0x8001 && t.p.byte == 0x24 && t.cycles == 9) = true := by decide +kernel

theorem test_V10_6_nop_crosses :
    gives { start 0x8000 [0x1C, 0xFF, 0x02] with x := 0x01 }
      (fun t => t.pc == 0x8003 && t.a == 0 && t.cycles == 12) = true := by decide +kernel

theorem test_V10_7_lax :
    gives { start 0x8000 [0xA7, 0x10] with ram := [(0x10, 0x80)] }
      (fun t => t.a == 0x80 && t.x == 0x80 && t.p.byte == 0xA4 && t.cycles == 10) = true := by decide +kernel

theorem test_V10_8_sax :
    gives { start 0x8000 [0x87, 0x10] with a := 0xF0, x := 0x3C }
      (fun t => ramAt t 0x10 == 0x30 && t.p.byte == 0x24 && t.cycles == 10) = true := by decide +kernel

theorem test_V10_9_sbcEB :
    gives { start 0x8000 [0xEB, 0x03] with a := 0x05, p := .ofByte 0x25 }
      (fun t => t.a == 0x02 && t.p.byte == 0x25 && t.cycles == 9) = true := by decide +kernel

theorem test_V10_10_slo :
    gives { start 0x8000 [0x07, 0x10] with a := 0x01, ram := [(0x10, 0x81)] }
      (fun t => ramAt t 0x10 == 0x02 && t.a == 0x03 && t.p.byte == 0x25 && t.cycles == 12) = true := by decide +kernel

theorem test_V10_11_rla :
    gives { start 0x8000 [0x27, 0x10] with a := 0xFF, p := .ofByte 0x25, ram := [(0x10, 0x80)] }
      (fun t => ramAt t 0x10 == 0x01 && t.a == 0x01 && t.p.byte == 0x25 && t.cycles == 12) = true := by decide +kernel

theorem test_V10_12_sre :
    gives { start 0x8000 [0x47, 0x10] with a := 0x01, ram := [(0x10, 0x03)] }
      (fun t => ramAt t 0x10 == 0x01 && t.a == 0 && t.p.byte == 0x27 && t.cycles == 12) = true := by decide +kernel

theorem test_V10_13_rra :
    gives { start 0x8000 [0x67, 0x10] with a := 0x10, p := .ofByte 0x25, ram := [(0x10, 0x02)] }
      (fun t => ramAt t 0x10 == 0x81 && t.a == 0x91 && t.p.byte == 0xA4 && t.cycles == 12) = true := by decide +kernel

theorem test_V10_14_dcp :
    gives { start 0x8000 [0xC7, 0x10] with a := 0x05, ram := [(0x10, 0x06)] }
      (fun t => ramAt t 0x10 == 0x05 && t.p.byte == 0x27 && t.cycles == 12) = true := by decide +kernel

theorem test_V10_15_isb :
    gives { start 0x8000 [0xE7, 0x10] with a := 0x05, p := .ofByte 0x25, ram := [(0x10, 0x04)] }
      (fun t => ramAt t 0x10 == 0x05 && t.a == 0 && t.p.byte == 0x27 && t.cycles == 12) = true := by decide +kernel

theorem test_V9_10_kil :
    gives (start 0x8000 [0x02])
      (fun t => t.jammed && t.pc == 0x8001 && t.cycles == 9) = true := by decide +kernel

theorem test_R427_jam_cycle :
    gives { start 0x8000 [0xEA] with jammed := true }
      (fun t => t.jammed && t.pc == 0x8000 && t.cycles == 8) = true := by decide +kernel

theorem test_V9_11_refused :
    (match step { start 0x8000 [0x0B, 0x12] with undocPolicy := .refuse } with
      | .refused (.undocRefused op) => op == 0x0B
      | _ => false) = true := by decide +kernel

theorem test_R442_nop1 :
    gives { start 0x8000 [0x0B, 0x12] with undocPolicy := .nop1, a := 0xFF }
      (fun t => t.pc == 0x8001 && t.a == 0xFF && t.cycles == 9) = true := by decide +kernel

theorem test_R430_anc :
    gives { start 0x8000 [0x0B, 0x80] with a := 0xFF }
      (fun t => t.a == 0x80 && t.p.byte == 0xA5 && t.cycles == 9) = true := by decide +kernel

theorem test_R431_alr :
    gives { start 0x8000 [0x4B, 0x03] with a := 0xFF }
      (fun t => t.a == 0x01 && t.p.byte == 0x25 && t.cycles == 9) = true := by decide +kernel

theorem test_R432_arr :
    gives { start 0x8000 [0x6B, 0xFF] with a := 0x40, p := .ofByte 0x25 }
      (fun t => t.a == 0xA0 && t.p.byte == 0xE4 && t.cycles == 9) = true := by decide +kernel

theorem test_R433_axs :
    gives { start 0x8000 [0xCB, 0x02] with a := 0x0F, x := 0x03 }
      (fun t => t.x == 0x01 && t.p.byte == 0x25 && t.cycles == 9) = true := by decide +kernel

/-- Whatever the free constant (log 9), A = $FF hides it. -/
theorem test_R434_xaa_of_all_ones :
    ∃ t, exec (.xaa 0x0F) { State.reset with undocPolicy := .nmos, a := 0xFF, x := 0x33 } = .next t ∧ t.a = 0x03 := by
  have h : ((0xFF : Byte) ||| Config.xaaMagic) = 0xFF := by generalize Config.xaaMagic = m; revert m; decide
  refine ⟨_, rfl, ?_⟩
  show ((0xFF : Byte) ||| Config.xaaMagic) &&& 0x33 &&& 0x0F = 0x03
  rw [h]; rfl

theorem test_R435_lxa_of_all_ones :
    ∃ t, exec (.lxa 0x0F) { State.reset with undocPolicy := .nmos, a := 0xFF } = .next t ∧ t.a = 0x0F ∧ t.x = 0x0F := by
  have h : ((0xFF : Byte) ||| Config.xaaMagic) = 0xFF := by generalize Config.xaaMagic = m; revert m; decide
  refine ⟨_, rfl, ?_⟩
  show ((0xFF : Byte) ||| Config.xaaMagic) &&& 0x0F = 0x0F ∧ ((0xFF : Byte) ||| Config.xaaMagic) &&& 0x0F = 0x0F
  rw [h]; exact ⟨rfl, rfl⟩

theorem test_R436_las :
    gives { start 0x8000 [0xBB, 0x00, 0x02] with sp := 0xF0, ram := [(0x200, 0x9F)] }
      (fun t => t.a == 0x90 && t.x == 0x90 && t.sp == 0x90 && t.p.byte == 0xA4 && t.cycles == 11) = true := by decide +kernel

theorem test_R437_sha :
    gives { start 0x8000 [0x9F, 0x00, 0x02] with a := 0xFF, x := 0x07 }
      (fun t => ramAt t 0x200 == 0x03 && t.cycles == 12) = true := by decide +kernel

theorem test_R441_sha_crosses :
    gives { start 0x8000 [0x93, 0x10] with a := 0xFF, x := 0x01, y := 0x01, ram := [(0x10, 0xFF), (0x11, 0x02)] }
      (fun t => ramAt t 0x100 == 0x01 && t.cycles == 13) = true := by decide +kernel

theorem test_R438_shx :
    gives { start 0x8000 [0x9E, 0x00, 0x02] with x := 0xFE }
      (fun t => ramAt t 0x200 == 0x02 && t.cycles == 12) = true := by decide +kernel

theorem test_R439_shy :
    gives { start 0x8000 [0x9C, 0x00, 0x02] with y := 0xFD }
      (fun t => ramAt t 0x200 == 0x01 && t.cycles == 12) = true := by decide +kernel

theorem test_R440_tas :
    gives { start 0x8000 [0x9B, 0x00, 0x02] with a := 0xFF, x := 0x07 }
      (fun t => ramAt t 0x200 == 0x03 && t.sp == 0x07 && t.cycles == 12) = true := by decide +kernel

/-! ### Memory, devices, interrupts and reset -/

theorem test_V2_14_open_bus :
    gives (start 0x8000 [0xAD, 0x00, 0x50])
      (fun t => t.a == 0x50 && t.p.byte == 0x24 && t.cycles == 11) = true := by decide +kernel

theorem test_V9_6_dummy_read_of_ppustatus :
    gives { start 0x8000 [0xBD, 0xF2, 0x20] with x := 0x10, ppu := { State.reset.ppu with vbl := true } }
      (fun t => t.a.getLsbD 7 == false && !t.ppu.vbl && t.cycles == 12) = true := by decide +kernel

theorem test_V7_3_ppuctrl :
    gives { start 0x8000 [0x8D, 0x00, 0x20] with a := 0x03 }
      (fun t => t.ppu.t == 0x0C00 && t.ppu.ctrl == 0x03) = true := by decide +kernel

theorem test_V7_4_ppuaddr :
    gives { start 0x8000 [0x8D, 0x06, 0x20] with a := 0x00, ppu := { State.reset.ppu with w := true, t := 0x3F12 } }
      (fun t => t.ppu.t == 0x3F00 && t.ppu.v == 0x3F00 && !t.ppu.w) = true := by decide +kernel

theorem test_V7_10_nmi_on_enable :
    gives { start 0x8000 [0x8D, 0x00, 0x20] with a := 0x80, ppu := { State.reset.ppu with vbl := true } }
      (fun t => t.nmiPending) = true := by decide +kernel

theorem test_V7_14_oamdata_ignored :
    gives { start 0x8000 [0x8D, 0x04, 0x20] with a := 0x55, ppu := { State.reset.ppu with mask := 0x18 } }
      (fun t => t.ppu.oam == [] && t.ppu.oamAddr == 0) = true := by decide +kernel

theorem test_V7_15_oamdata_read :
    gives { start 0x8000 [0xAD, 0x04, 0x20] with ppu := { State.reset.ppu with oamAddr := 2, oam := [(2, 0xFF)] } }
      (fun t => t.a == 0xE3) = true := by decide +kernel

theorem test_V8_1_length_load :
    gives { start 0x8000 [0x8D, 0x03, 0x40] with a := 0x08, apu := { State.reset.apu with pulse1 := { Pulse.powerOn with enabled := true } } }
      (fun t => t.apu.pulse1.length == 254 && t.apu.pulse1.env.start) = true := by decide +kernel

theorem test_V8_5_status_read :
    gives { start 0x8000 [0xAD, 0x15, 0x40] with apu := { State.reset.apu with frameIrq := true } }
      (fun t => t.a == 0x40 && !t.apu.frameIrq) = true := by decide +kernel

theorem test_V8_9_frame_counter :
    gives { start 0x8000 [0x8D, 0x17, 0x40] with a := 0x80 }
      (fun t => t.apu.fcMode && t.apu.fcDelay == 3) = true := by decide +kernel

theorem test_V9_1_controller :
    gives { start 0x8000 [0xAD, 0x16, 0x40] with pads := { State.reset.pads with shift0 := 0x09 } }
      (fun t => t.a == 0x41 && t.pads.shift0 == 0x84) = true := by decide +kernel

theorem test_V9_3_oam_dma_request :
    gives { start 0x8000 [0x8D, 0x14, 0x40] with a := 0x02 }
      (fun t => t.dma.oamPending && t.dma.oamPage == 0x02) = true := by decide +kernel

theorem test_V8_14_lfsr : lfsrClock false 1 = 0x4000 ∧ lfsrClock false 0x4000 = 0x2000 := by decide

theorem test_V8_11_sweep_target :
    ({ Pulse.powerOn with timerPeriod := 0x100, sweepShift := 1, sweepNeg := true } : Pulse).sweepTarget true = 0x7F
      ∧ ({ Pulse.powerOn with timerPeriod := 0x100, sweepShift := 1, sweepNeg := true } : Pulse).sweepTarget false = 0x80 := by
  decide +kernel

theorem test_V8_17_dmc_level : dmcLevel 126 true = 126 ∧ dmcLevel 1 false = 1 ∧ dmcLevel 125 true = 127 := by decide

theorem test_R115_palette_alias : paletteIndex 0x3F10 = 0 ∧ paletteIndex 0x3F14 = 4 ∧ paletteIndex 0x3F11 = 17 := by decide

theorem test_V9_7_nmi_before_irq :
    gives { start 0x8000 [0xEA] with nmiPending := true, p := .ofByte 0x20,
                                     apu := { State.reset.apu with frameIrq := true } }
      (fun t => !t.nmiPending && t.p.i && ramAt t 0x1FB == 0x20 && t.sp == 0xFA && t.cycles == 14) = true := by decide +kernel

theorem test_V9_8_reset_first :
    gives { start 0x8000 [0xEA] with resetPending := true, nmiPending := true, jammed := true }
      (fun t => !t.resetPending && !t.nmiPending && !t.jammed && t.sp == 0xFD && t.p.byte == 0x24) = true := by decide +kernel

/-- R692 from power-on: R701's state but for the APU's timers (log 2). -/
theorem test_R692_from_power_on :
    gives (State.powerOn [] [] [] [] [] (.nrom .empty))
      (fun t => decide ({ t with apu := State.reset.apu } = State.reset) && t.apu.fc == 7) = true := by decide +kernel

/-- R504, R685: `step_frame()` returns once the frame's last dot has run, with the flag cleared again. -/
theorem test_R504_step_frame_clears_the_flag :
    (match stepFrame { start 0x8000 [0xEA] with ppu := { State.reset.ppu with scanline := 260, dot := 339 } } with
      | .next t => t.ppu.frameCount == 1 && !t.ppu.frameComplete && t.ppu.scanline == -1 && t.ppu.dot == 4 && t.pc == 0x8001
      | _ => false) = true := by decide +kernel

/-- The default policy refuses (R10, R429), and withFetchWord selects one under which the word runs. -/
theorem test_R10_default_refuses :
    State.reset.undocPolicy = .default
      ∧ (match step { start 0x8000 [0x0B, 0x12] with undocPolicy := .default } with
        | .refused r => decide (r = .undocRefused 0x0B)
        | _ => false) = true := by decide +kernel

theorem test_withFetchWord_runs_an_other_opcode :
    gives (State.reset.withFetchWord 16 0x800B) (fun t => t.pc == 0x0002 && t.cycles == 9) = true := by decide +kernel

/-- The first line of R496. -/
theorem test_R496_trace_line :
    (start 0xC000 [0x4C, 0xF5, 0xC5]).traceLine =
      some { pc := 0xC000, bytes := [0x4C, 0xF5, 0xC5], disasm := "JMP $C5F5", a := 0, x := 0, y := 0, p := 0x24, sp := 0xFD,
             scanline := 0, dot := 21, cycles := 7 } := by decide +kernel

theorem test_R163_undocumented_mark :
    (Instr.nop 0x04 (.read (.mem (.zp 0xA9)))).disasm 0 = "*NOP $A9" ∧ (Instr.bne 0xFE).disasm 0x8000 = "BNE $8000" := by
  decide +kernel

/-- A self-jump is an end, but not of a jammed CPU (R719, R720). -/
theorem test_R720_at_idle :
    (start 0x8001 [0x4C, 0x01, 0x80]).atIdle 0x8001 = true
      ∧ ({ start 0x8001 [0x4C, 0x01, 0x80] with jammed := true } : State).atIdle 0x8001 = false := by decide +kernel

/-- Frame 0 begins with the first step, frame 1 with the step after a completed frame (R675, R719). -/
theorem test_R675_input_by_frame :
    (match runStepsFrom (fun j => (BitVec.ofNat 8 (j + 1), 0)) 0 true 1 (start 0x8000 [0xEA]) with
      | .next t => t.pads.buttons0 == 1
      | _ => false) = true
      ∧ (match runStepsFrom (fun j => (BitVec.ofNat 8 (j + 1), 0)) 1 true 1 (start 0x8000 [0xEA]) with
      | .next t => t.pads.buttons0 == 2
      | _ => false) = true := by decide +kernel

theorem test_withFetchWord_runs_the_word :
    gives (State.reset.withFetchWord 16 0x7FA9) (fun t => t.a == 0x7F && t.cycles == 9) = true := by decide +kernel
/-! ### Witnesses: a state and operands that meet each obligation's hypotheses -/

theorem witness_DecodeOfEncodeIsTheInstruction :
    (Instr.lda (.mem (.absX 0xFFFF))).wellFormed = true ∧ (Instr.nop 0xFC (.read (.mem (.absX 0)))).wellFormed = true
      ∧ (Instr.sha (.indY 0xFF)).wellFormed = true := by decide

theorem witness_EncodeOfDecodeGivesTheBytesBack : decode [0x6C, 0xFF, 0x02, 0x12] = .instr (.jmpInd 0x02FF) [0x12] := by decide

/-- Code at $0200, where the model reads bytes without a bus cycle. -/
def ramStart (code : List Byte) : State := { State.reset with undocPolicy := .nmos, pc := 0x0200, ram := load [] 0x200 code }

/-- The premises of StepRunsTheInstructionAtPc but the last two. -/
def stepPremises (s : State) (bytes : List Byte) : Bool :=
  !s.resetPending && !s.jammed && !s.nmiPending && !(s.irqLine && !s.p.i)
    && (List.range bytes.length).all fun k => s.memByte (s.pc + BitVec.ofNat 16 k) == bytes[k]?

theorem witness_StepRunsTheInstructionAtPc :
    stepPremises (ramStart [0xBD, 0xFF, 0x02]) [0xBD, 0xFF, 0x02] = true
      ∧ decode [0xBD, 0xFF, 0x02] = .instr (.lda (.mem (.absX 0x02FF))) []
      ∧ otherUndocOpcodes.contains (0xBD : Byte) = false := by decide +kernel

theorem witness_StepRunsTheInstructionAtPc_jsr :
    stepPremises (ramStart [0x20, 0x10, 0x80]) [0x20, 0x10, 0x80] = true
      ∧ decode [0x20, 0x10, 0x80] = .instr (.jsr 0x8010) []
      ∧ sameByte (stackAddr 0xFD) ((ramStart [0x20, 0x10, 0x80]).pc + 2) = false
      ∧ sameByte (stackAddr 0xFC) ((ramStart [0x20, 0x10, 0x80]).pc + 2) = false := by decide +kernel

theorem witness_StepRunsTheInstructionAtPc_other :
    stepPremises (ramStart [0xCB, 0x01]) [0xCB, 0x01] = true ∧ decode [0xCB, 0x01] = .instr (.axs 0x01) []
      ∧ (ramStart [0xCB, 0x01]).undocPolicy = .nmos := by decide +kernel

theorem witness_BoundaryChoosesInOrder_reset : ({ State.reset with resetPending := true } : State).resetPending = true := rfl

theorem witness_BoundaryChoosesInOrder_jam :
    ({ State.reset with jammed := true } : State).resetPending = false
      ∧ ({ State.reset with jammed := true } : State).jammed = true := ⟨rfl, rfl⟩

theorem witness_BoundaryChoosesInOrder_nmi :
    ({ State.reset with nmiPending := true } : State).jammed = false
      ∧ ({ State.reset with nmiPending := true } : State).resetPending = false
      ∧ ({ State.reset with nmiPending := true } : State).nmiPending = true := ⟨rfl, rfl, rfl⟩

/-- The frame IRQ set, with I clear or as given. -/
def irqStart (i : Bool) : State :=
  { State.reset with p := { State.reset.p with i := i }, apu := { State.reset.apu with frameIrq := true } }

theorem witness_BoundaryChoosesInOrder_irq :
    (irqStart false).resetPending = false ∧ (irqStart false).jammed = false ∧ (irqStart false).nmiPending = false
      ∧ (irqStart false).irqLine = true ∧ (irqStart false).p.i = false := by decide

theorem witness_BoundaryChoosesInOrder_instruction :
    State.reset.irqLine = false ∧ (irqStart true).irqLine = true ∧ (irqStart true).p.i = true
      ∧ (irqStart true).nmiPending = false := by decide

theorem witness_StepKeepsTheInvariant :
    State.reset.memWf = true ∧ State.reset.ppu.onGrid = true ∧ State.reset.apu.sound State.reset.dma.dmcPending = true
      ∧ gives State.reset (fun _ => true) = true := by decide +kernel

theorem witness_ResetSatisfiesTheInvariant :
    Memory.wf 0x800 [(0, 1), (0x7FF, 2)] = true ∧ Memory.wf 0x100 [(0xFF, 0xFF)] = true ∧ Memory.wf 0x20 [(0x1F, 1)] = true
      ∧ paletteWf [(31, 0x3F)] = true ∧ (Cart.nrom .empty).wf = true := by decide

/-- A PPU at the given position. -/
def ppuAt (scanline : Int) (dot : Nat) : Ppu := { State.reset.ppu with scanline := scanline, dot := dot }

theorem witness_StepFrameCompletesAFrameUnlessRefused :
    State.reset.ppu.onGrid = true ∧ (ppuAt (-1) 0).onGrid = true
      ∧ ({ State.reset.ppu with scanline := 260, dot := 340 } : Ppu).onGrid = true := by decide

theorem witness_FrameLengthInDots :
    (ppuAt (-1) 0).scanline = -1 ∧ (ppuAt (-1) 0).dot = 0
      ∧ ({ ppuAt (-1) 0 with oddFrame := true, mask := 0x08 } : Ppu).rendering = true := by decide

theorem witness_ResetSequenceSetsTheCpuAndSilencesTheDevices :
    (State.powerOn [] [] [] [] [] (.nrom .empty)).resetPending = true
      ∧ (State.powerOn [] [] [] [] [] (.nrom .empty)).memByte 0xFFFC = some 0
      ∧ (State.powerOn [] [] [] [] [] (.nrom .empty)).memByte 0xFFFD = some 0
      ∧ (State.powerOn [] [] [] [] [] (.nrom .empty)).ppu.scanline ≠ 240
      ∧ (State.powerOn [] [] [] [] [] (.nrom .empty)).ppu.scanline ≠ 241 := by decide +kernel

theorem witness_InterruptEntrySavesPcAndStatus :
    ({ irqStart true with nmiPending := true } : State).nmiPending = true
      ∧ ({ irqStart true with nmiPending := true } : State).jammed = false
      ∧ (irqStart false).nmiPending = false ∧ (irqStart false).irqLine = true ∧ (irqStart false).p.i = false
      ∧ (irqStart false).memByte 0xFFFE = some 0 ∧ (irqStart true).ppu.ctrl.getLsbD 7 = false ∧ (irqStart false).noDma = true := by decide +kernel

theorem witness_KilJamsTheCpuUntilReset :
    ({ State.reset with jammed := true } : State).jammed = true
      ∧ ({ State.reset with jammed := true } : State).resetPending = false := ⟨rfl, rfl⟩

theorem witness_VblDotSetsTheFlagAndTheNmiLatch :
    (ppuAt 241 1).scanline = 241 ∧ (ppuAt 241 1).dot = 1 ∧ (ppuAt 241 1).suppressVbl = false ∧ (ppuAt 241 1).vbl = false
      ∧ ({ ppuAt 241 1 with suppressVbl := true } : Ppu).suppressVbl = true := ⟨rfl, rfl, rfl, rfl, rfl⟩

theorem witness_OperandsAreReadAtTheEffectiveAddress :
    State.reset.memByte (State.reset.effAddr (.zpX 0xFF)) = some 0
      ∧ State.reset.memByte (State.reset.effAddr (.abs 0x1FFF)) = some 0
      ∧ State.reset.memByte (State.reset.effAddr (.abs 0x6000)) = some 0 := by decide +kernel

theorem witness_CyclesOfTheAddressingModes :
    State.reset.noDma = true ∧ ∃ g h, shiftThen aslCore (fun a r => a ||| r) = shiftThen g h := ⟨by decide, _, _, rfl⟩

theorem witness_StoresWriteTheRegisterOnly_list :
    (Instr.stx (.abs 0x4014), State.reset.x) ∈ [(Instr.sta (.abs 0x4014), State.reset.a), (.stx (.abs 0x4014), State.reset.x)] := by
  decide

theorem witness_StoresWriteTheRegisterOnly :
    State.reset.writable (State.reset.locate (.zp 0)).1 = true ∧ State.reset.writable (State.reset.locate (.abs 0x1FFF)).1 = true
      ∧ State.reset.writable (State.reset.locate (.abs 0x6000)).1 = true
      ∧ State.reset.writable (State.reset.locate (.abs 0x7FFF)).1 = true
      ∧ State.reset.writable (State.reset.locate (.abs 0x2000)).1 = false
      ∧ State.reset.writable (State.reset.locate (.abs 0x8000)).1 = false := by decide +kernel

theorem witness_MemoryShiftsAndIncrements : State.reset.writable (State.reset.locate (.absX 0x1FFF)).1 = true := by
  decide +kernel

theorem witness_ShiftAndCombine : State.reset.writable (State.reset.locate (.indX 0xFF)).1 = true := by decide +kernel

theorem witness_ModifyAndCompute : State.reset.writable (State.reset.locate (.indY 0xFF)).1 = true := by decide +kernel

theorem witness_BranchesTestOneFlag :
    (Instr.bne 0x80, true) ∈ [(Instr.bpl 0x80, false), (.bne 0x80, !State.reset.p.z)] ∧ State.reset.noDma = true := by decide

theorem witness_JumpsSetPc :
    State.reset.memByte 0x02FF = some 0 ∧ State.reset.memByte (joinBytes (highByte 0x02FF) (lowByte 0x02FF + 1)) = some 0 := by
  decide +kernel

theorem witness_BrkPushesAndVectors :
    State.reset.memByte 0xFFFE = some 0 ∧ State.reset.memByte 0xFFFF = some 0 := by decide +kernel

theorem witness_FlagInstructionsWriteOneFlag :
    (Instr.sed, ({ State.reset.p with d := true } : Flags)) ∈
      [(Instr.cld, ({ State.reset.p with d := false } : Flags)), (.sed, { State.reset.p with d := true })] := by decide

theorem witness_NopsChangeNothing : State.reset.noDma = true := by decide

theorem witness_OtherReadInstructionsUnderNmos : (start 0x8000 []).undocPolicy = .nmos := rfl

theorem witness_HighByteStoresUnderNmos :
    (start 0x8000 []).undocPolicy = .nmos
      ∧ (Instr.tas 0x02FF, (0x02FF : Addr), (0 : Byte), (0 : Byte), (0 : Byte)) ∈
        [(Instr.tas 0x02FF, (0x02FF : Addr), State.reset.y, State.reset.a &&& State.reset.x, State.reset.a &&& State.reset.x)]
      ∧ State.reset.writable 0x02FF = true := by decide

/-- The pointer form of SHA, and an address its page cross leads to (R441). -/
theorem witness_HighByteStoresUnderNmos_sha :
    State.reset.pointer 0x10 = 0x0000 ∧ State.reset.writable (joinBytes 0x01 0x00) = true := by decide +kernel

theorem witness_OtherInstructionsUnderNop1AndRefuse :
    (Instr.sha (.indY 0x10), (0x93 : Byte)) ∈ [(Instr.lxa 0x10, (0xAB : Byte)), (.sha (.indY 0x10), 0x93)]
      ∧ ({ State.reset with undocPolicy := .nop1 } : State).undocPolicy = .nop1
      ∧ ({ State.reset with undocPolicy := .refuse } : State).undocPolicy = .refuse := by decide

theorem witness_RamAndPpuRegistersAreMirrored :
    (0x1FFF : Addr).toNat < 0x2000 ∧ (0x07FF : Addr).toNat % 0x800 = (0x1FFF : Addr).toNat % 0x800
      ∧ 0x2000 ≤ (0x2000 : Addr).toNat ∧ (0x3FFF : Addr).toNat < 0x4000
      ∧ (0x3FFF : Addr).toNat % 8 = (0x2007 : Addr).toNat % 8 := by decide

theorem witness_UndrivenReadsReturnTheBusLatch :
    0x4000 ≤ (0x4014 : Addr).toNat ∧ (0x4014 : Addr).toNat ≤ 0x4014 ∧ 0x4018 ≤ (0x401F : Addr).toNat
      ∧ (0x401F : Addr).toNat ≤ 0x401F ∧ 0x4020 ≤ (0x5FFF : Addr).toNat
      ∧ (State.reset.cart.cpuRead 0x4020).1 = none ∧ (State.reset.cart.cpuRead 0x5FFF).1 = none := by decide +kernel

theorem witness_OamDmaTakes513CyclesAndCopiesAPage :
    State.reset.ppu.rendering = false ∧ ({ Dma.powerOn with oamPage := 0x1F } : Dma).oamPage.toNat < 0x20
      ∧ State.reset.cycles % 2 = 1 := by decide

/-- A DMC whose next fetch is in the reference cartridge, at either end of its range. -/
theorem witness_DmcDmaFetchesOneByte :
    State.reset.memByte 0x8000 = some 0 ∧ State.reset.memByte 0xFFFF = some 0 := by decide +kernel

theorem witness_DmcDmaFetchesOneByte_ends :
    ({ Dmc.powerOn with bytesRemaining := 1, loop := true } : Dmc).bytesRemaining = 1
      ∧ ({ Dmc.powerOn with bytesRemaining := 1, loop := true } : Dmc).loop = true ∧ Dmc.powerOn.loop = false
      ∧ Dmc.powerOn.bytesRemaining ≠ 1 := by decide

theorem witness_DmaIsServedBeforeReadsDmcFirst :
    ({ Dma.powerOn with dmcPending := true } : Dma).dmcPending = true ∧ Dma.powerOn.dmcPending = false
      ∧ ({ Dma.powerOn with oamPending := true } : Dma).oamPending = true ∧ Dma.powerOn.oamPending = false := by decide

theorem witness_StatusReadClearsVblAndToggle :
    0x2000 ≤ (0x3FFA : Addr).toNat ∧ (0x3FFA : Addr).toNat < 0x4000 ∧ (0x3FFA : Addr).toNat % 8 = 2
      ∧ (0x2002 : Addr).toNat % 8 = 2 ∧ (ppuAt 241 1).scanline = 241 ∧ (ppuAt 241 1).dot = 1
      ∧ ¬((ppuAt 241 4).scanline = 241 ∧ (ppuAt 241 4).dot = 1) := by decide

theorem witness_ScrollAndAddressWritesSetTheirFields :
    State.reset.ppu.w = false ∧ ({ State.reset.ppu with w := true } : Ppu).w = true := ⟨rfl, rfl⟩

theorem witness_VideoMemoryIsReadBack :
    State.reset.ppu.w = false ∧ Nrom.empty.mirroring ≠ .fourScreen ∧ 0x20 ≤ ((0x20 : Byte) &&& 0x3F).toNat
      ∧ ((0x3E : Byte) &&& 0x3F).toNat * 256 + (0xFF : Byte).toNat < 0x3F00
      ∧ ((0x3F : Byte) &&& 0x3F).toNat * 256 + (0x10 : Byte).toNat = 0x3F10
      ∧ ({ State.reset.ppu with v := 0x3EFF } : Ppu).dataAddr.toNat < 0x3F00 := by decide

theorem witness_NametablesFollowTheMirroring :
    0x2000 ≤ (0x2C00 : BitVec 14).toNat ∧ (0x3EFF : BitVec 14).toNat < 0x3F00 ∧ 3 = (0x2C00 : BitVec 14).toNat / 0x400 % 4
      ∧ (Nrom.empty.mirroring, 1) ∈ [(Mirroring.horizontal, 3 / 2), (.vertical, 3 % 2), (.oneScreenLo, 0), (.oneScreenHi, 1)]
      ∧ ({ Nrom.empty with mirroring := .fourScreen } : Nrom).mirroring = .fourScreen
      ∧ (0x27FF : BitVec 14).toNat / 0x400 % 4 < 2 ∧ 2 ≤ (0x2800 : BitVec 14).toNat / 0x400 % 4 := by decide

theorem witness_OamDataPortReadsAndWrites :
    ({ ppuAt 239 0 with mask := 0x10 } : Ppu).rendering = true ∧ ({ ppuAt (-1) 0 with mask := 0x08 } : Ppu).rendering = true
      ∧ State.reset.ppu.rendering = false ∧ 239 < (ppuAt 240 0).scanline
      ∧ ({ State.reset.ppu with oamAddr := 0xFE } : Ppu).oamAddr.toNat % 4 = 2
      ∧ State.reset.ppu.oamAddr.toNat % 4 ≠ 2 := by decide

theorem witness_ApuStatusWriteEnablesAndSilences :
    (0x0F : Byte).getLsbD 4 = false ∧ (0x10 : Byte).getLsbD 4 = true ∧ State.reset.apu.dmc.bytesRemaining = 0
      ∧ ({ Dmc.powerOn with bytesRemaining := 1 } : Dmc).bytesRemaining ≠ 0 := by decide

theorem witness_FrameCounterWriteRestartsTheSequence :
    (0x40 : Byte).getLsbD 7 = false ∧ (0x80 : Byte).getLsbD 7 = true ∧ State.reset.cycles % 2 = 1 := by decide

theorem witness_FrameIrqComesAtCount29829 :
    State.reset.apu.fcMode = false ∧ State.reset.apu.fcDelay = 0 ∧ State.reset.apu.fcInhibit = false
      ∧ State.reset.apu.frameIrq = false ∧ State.reset.apu.fc < 29829
      ∧ ({ State.reset.apu with fc := 29828 } : Apu).fc < 29829 := by decide

theorem witness_ControllerReadsReturnTheButtonsInOrder :
    (0x01 : Byte).getLsbD 0 = true ∧ (0x00 : Byte).getLsbD 0 = false := by decide

end Sys2Proof.Tests
end

section
/-!
PROOFS. Memory and its mirrors (20_memory.md R101-R104) and the PPU's own memory (R113-R115) as a program reaches it through
PPUADDR and PPUDATA (61_ppu.md R518-R520).
-/

namespace Sys2Proof.Machine

/-! ### Internal RAM (R103) -/

theorem State.writable_of_ram (s : State) {a : Addr} (ha : a.toNat < 0x2000) : s.writable a = true := by
  simp [State.writable, ha]

/-- The names of a byte of internal RAM are the addresses below $2000 that are equal to it modulo $0800. -/
theorem sameByte_iff_of_ram {a : Addr} (ha : a.toNat < 0x2000) (b : Addr) :
    sameByte a b = true ↔ b.toNat < 0x2000 ∧ b.toNat % 0x800 = a.toNat % 0x800 := by
  simp only [sameByte, Bool.or_eq_true, beq_iff_eq, Bool.and_eq_true, decide_eq_true_eq, ramIndex_eq]
  constructor
  · rintro (rfl | ⟨⟨-, hb⟩, hab⟩)
    · exact ⟨ha, rfl⟩
    · exact ⟨hb, hab.symm⟩
  · rintro ⟨hb, hab⟩
    exact .inr ⟨⟨ha, hb⟩, hab.symm⟩

theorem memByte_memWrite_ram (s : State) {a : Addr} (ha : a.toNat < 0x2000) (b : Addr) (v : Byte) :
    (s.memWrite a v).memByte b
      = if b.toNat < 0x2000 ∧ b.toNat % 0x800 = a.toNat % 0x800 then some v else s.memByte b := by
  simp only [memByte_memWrite, s.writable_of_ram ha, Bool.true_and, sameByte_iff_of_ram ha]

/-! ### The bus where devices and the cartridge answer (R101, R102) -/

section PpuRegisters

variable (s : State) {a : Addr} (h₀ : 0x2000 ≤ a.toNat) (h₁ : a.toNat < 0x4000)

include h₀ h₁

theorem busRead_ppuReg :
    s.busRead a =
      ((ppuRegRead s.ppu s.cart (a.toNat % 8)).1,
        { s with ppu := (ppuRegRead s.ppu s.cart (a.toNat % 8)).2.1
                 cart := (ppuRegRead s.ppu s.cart (a.toNat % 8)).2.2 }) := by
  rw [State.busRead, if_neg (Nat.not_lt.2 h₀), if_pos h₁]

theorem busWrite_ppuReg (v : Byte) :
    s.busWrite a v =
      { s with ppu := (ppuRegWrite s.ppu s.cart (a.toNat % 8) v).1
               cart := (ppuRegWrite s.ppu s.cart (a.toNat % 8) v).2 } := by
  rw [State.busWrite, if_neg (Nat.not_lt.2 h₀), if_pos h₁]

end PpuRegisters

/-- The write-only APU and DMA registers, $4000-$4014, drive no read. -/
theorem busRead_writeOnly (s : State) {a : Addr} (h₀ : 0x4000 ≤ a.toNat) (h₁ : a.toNat ≤ 0x4014) :
    s.busRead a = (s.busLatch, s) := by
  rw [State.busRead, if_neg (by omega), if_neg (by omega), if_pos (by omega)]

/-- Nothing answers at $4018-$401F. -/
theorem busRead_unallocated (s : State) {a : Addr} (h₀ : 0x4018 ≤ a.toNat) (h₁ : a.toNat ≤ 0x401F) :
    s.busRead a = (s.busLatch, s) := by
  rw [State.busRead, if_neg (by omega), if_neg (by omega), if_neg (by omega), if_neg (by omega), if_neg (by omega),
    if_pos (by omega)]

theorem busRead_cart (s : State) {a : Addr} (h : 0x4020 ≤ a.toNat) :
    s.busRead a = ((s.cart.cpuRead a).1.getD s.busLatch, { s with cart := (s.cart.cpuRead a).2 }) := by
  rw [State.busRead, if_neg (by omega), if_neg (by omega), if_neg (by omega), if_neg (by omega), if_neg (by omega),
    if_neg (by omega)]

/-! ### Nametable RAM (R114) -/

/-- The mirroring table, where a page of the console's own RAM answers. -/
theorem ciramPage_eq_some_iff (m : Mirroring) (k page : Nat) :
    ciramPage m k = some page ↔
      (m, page) ∈ [(Mirroring.horizontal, k / 2), (.vertical, k % 2), (.oneScreenLo, 0), (.oneScreenHi, 1)]
        ∨ (m = .fourScreen ∧ k < 2 ∧ page = k) := by
  cases m with
  | fourScreen => by_cases hk : k < 2 <;> simp [ciramPage, hk, eq_comm]
  | horizontal | vertical | oneScreenLo | oneScreenHi => simp [ciramPage, eq_comm]

/-- The mirroring table, where the cartridge's own RAM answers. -/
theorem ciramPage_eq_none_iff (m : Mirroring) (k : Nat) : ciramPage m k = none ↔ m = .fourScreen ∧ 2 ≤ k := by
  cases m with
  | fourScreen => simp [ciramPage, Nat.succ_le_iff]
  | horizontal | vertical | oneScreenLo | oneScreenHi => simp [ciramPage]

section Nametables

variable (p : Ppu) {c : Cart} {a : BitVec 14} (h₀ : 0x2000 ≤ a.toNat) (h₁ : a.toNat < 0x3F00)

include h₀ h₁

theorem ppuBusRead_nametable (c : Cart) : ppuBusRead p c a = nametableRead p c a := by
  rw [ppuBusRead, if_neg (Nat.not_lt.2 h₀), if_pos h₁]

theorem ppuBusWrite_nametable (c : Cart) (v : Byte) : ppuBusWrite p c a v = nametableWrite p c a v := by
  rw [ppuBusWrite, if_neg (Nat.not_lt.2 h₀), if_pos h₁]

theorem ppuBusRead_ciram {page : Nat} (hp : ciramPage c.mirroring (nametableOf a) = some page) :
    ppuBusRead p c a = (memGet p.ciram (page * 0x400 + a.toNat % 0x400), c) := by
  rw [ppuBusRead_nametable p h₀ h₁, nametableRead, hp]

theorem ppuBusWrite_ciram (v : Byte) {page : Nat} (hp : ciramPage c.mirroring (nametableOf a) = some page) :
    ppuBusWrite p c a v = ({ p with ciram := memSet p.ciram (page * 0x400 + a.toNat % 0x400) v }, c) := by
  rw [ppuBusWrite_nametable p h₀ h₁, nametableWrite, hp]

/-- The address the cartridge is given for its own nametables (`a & $2FFF`) is one of nametable memory, the same modulo
2 KiB. -/
theorem toNat_nametableAddr : 0x2000 ≤ (a &&& 0x2FFF).toNat ∧ (a &&& 0x2FFF).toNat % 0x800 = a.toNat % 0x800 := by
  have hdiv : (a &&& 0x2FFF).toNat / 2 ^ 13 = 1 := by
    rw [BitVec.toNat_and, Nat.and_div_two_pow, show a.toNat / 2 ^ 13 = 1 by omega]; rfl
  have hmod : (a &&& 0x2FFF).toNat % 2 ^ 11 = a.toNat % 2 ^ 11 &&& 2 ^ 11 - 1 := by
    rw [BitVec.toNat_and, Nat.and_mod_two_pow]; rfl
  rw [Nat.and_two_pow_sub_one_eq_mod, Nat.mod_mod] at hmod
  exact ⟨by omega, hmod⟩

theorem ppuBusRead_ntRam {n : Nrom} (hp : ciramPage n.mirroring (nametableOf a) = none) :
    ppuBusRead p (.nrom n) a = (memGet n.ntRam (a.toNat % 0x800), .nrom n) := by
  obtain ⟨hge, hmod⟩ := toNat_nametableAddr h₀ h₁
  rw [ppuBusRead_nametable p h₀ h₁, nametableRead, show ciramPage (Cart.nrom n).mirroring (nametableOf a) = none from hp]
  simp only [Cart.ppuRead, Nrom.ppuRead, if_neg (Nat.not_lt.2 hge), hmod]

theorem ppuBusWrite_ntRam {n : Nrom} (v : Byte) (hp : ciramPage n.mirroring (nametableOf a) = none) :
    ppuBusWrite p (.nrom n) a v = (p, .nrom { n with ntRam := memSet n.ntRam (a.toNat % 0x800) v }) := by
  obtain ⟨hge, hmod⟩ := toNat_nametableAddr h₀ h₁
  rw [ppuBusWrite_nametable p h₀ h₁, nametableWrite, show ciramPage (Cart.nrom n).mirroring (nametableOf a) = none from hp]
  simp only [Cart.ppuWrite, Nrom.ppuWrite, if_neg (Nat.not_lt.2 hge), hmod]

end Nametables

theorem ppuBusWrite_palette (p : Ppu) (c : Cart) {a : BitVec 14} (h : 0x3F00 ≤ a.toNat) (v : Byte) :
    ppuBusWrite p c a v = (p.paletteWrite a v, c) := by
  rw [ppuBusWrite, if_neg (by omega), if_neg (by omega)]

/-! ### PPUADDR (61 R518) -/

/-- The value of `v` after PPUADDR was written with `hi`, then `lo`. -/
def ppuAddrOf (hi lo : Byte) : BitVec 15 := ((hi &&& 0x3F).setWidth 15 <<< 8) ||| lo.setWidth 15

/-- The second PPUADDR write keeps of `t` only the upper bits, which the first has set. -/
theorem upperBits_or_lowByte (t h : BitVec 15) (lo : Byte) :
    (((t &&& 0x00FF#15) ||| (h <<< 8)) &&& 0x7F00#15) ||| lo.setWidth 15 = (h <<< 8) ||| lo.setWidth 15 := by
  have hlow : t &&& 0x00FF#15 &&& 0x7F00#15 = 0#15 := by
    rw [BitVec.and_assoc, show 0x00FF#15 &&& 0x7F00#15 = 0#15 by decide, BitVec.and_zero]
  have hhigh : h <<< 8 &&& 0x7F00#15 = h <<< 8 := by
    rw [show 0x7F00#15 = BitVec.allOnes 15 <<< 8 by decide, ← BitVec.shiftLeft_and_distrib, BitVec.and_allOnes]
  rw [BitVec.and_or_distrib_right, hlow, hhigh, BitVec.zero_or]

/-- Two PPUADDR writes from a clear toggle set `t` and `v` whatever they were, and nothing else. -/
theorem Ppu.writeAddr_writeAddr {p : Ppu} (hw : p.w = false) (hi lo : Byte) :
    (p.writeAddr hi).writeAddr lo = { p with t := ppuAddrOf hi lo, v := ppuAddrOf hi lo, w := false } := by
  have ht : (((p.t &&& 0x00FF) ||| ((hi &&& 0x3F).setWidth 15 <<< 8)) &&& 0x7F00) ||| lo.setWidth 15
      = ppuAddrOf hi lo := upperBits_or_lowByte p.t ((hi &&& 0x3F).setWidth 15) lo
  simp only [Ppu.writeAddr, hw, Bool.false_eq_true, if_false, if_true, ht]

theorem toNat_ppuAddrOf (hi lo : Byte) :
    ((ppuAddrOf hi lo).setWidth 14).toNat = (hi &&& 0x3F).toNat * 256 + lo.toNat := by
  have hlt : (hi &&& 0x3F).toNat < 64 := by
    rw [BitVec.toNat_and]; exact Nat.and_lt_two_pow (n := 6) _ (by decide)
  have hhi : ((hi &&& 0x3F).setWidth 15 <<< 8).toNat = (hi &&& 0x3F).toNat <<< 8 := by
    rw [BitVec.toNat_shiftLeft, BitVec.toNat_setWidth, Nat.shiftLeft_eq, Nat.shiftLeft_eq]
    omega
  have hlo : (lo.setWidth 15).toNat = lo.toNat := by
    rw [BitVec.toNat_setWidth]; omega
  rw [ppuAddrOf, BitVec.toNat_setWidth, BitVec.toNat_or, hhi, hlo, ← Nat.shiftLeft_add_eq_or_of_lt lo.isLt,
    Nat.shiftLeft_eq]
  omega

/-- The address PPUDATA accesses after two PPUADDR writes. -/
theorem toNat_dataAddr_writeAddr {p : Ppu} (hw : p.w = false) (hi lo : Byte) :
    ((p.writeAddr hi).writeAddr lo).dataAddr.toNat = (hi &&& 0x3F).toNat * 256 + lo.toNat := by
  rw [Ppu.writeAddr_writeAddr hw]
  exact toNat_ppuAddrOf hi lo

@[simp] theorem Ppu.writeAddr_ciram (p : Ppu) (val : Byte) : (p.writeAddr val).ciram = p.ciram := by
  unfold Ppu.writeAddr
  split <;> rfl

@[simp] theorem Ppu.writeAddr_palette (p : Ppu) (val : Byte) : (p.writeAddr val).palette = p.palette := by
  unfold Ppu.writeAddr
  split <;> rfl

/-! ### PPUDATA (61 R519, R520) -/

/-- A write of the PPU's memory moves none of the registers that PPUADDR and PPUDATA use. -/
theorem ppuBusWrite_registers (p : Ppu) (c : Cart) (a : BitVec 14) (val : Byte) :
    (ppuBusWrite p c a val).1.v = p.v ∧ (ppuBusWrite p c a val).1.ctrl = p.ctrl
      ∧ (ppuBusWrite p c a val).1.w = p.w := by
  unfold ppuBusWrite nametableWrite
  repeat' split
  all_goals exact ⟨rfl, rfl, rfl⟩

theorem dataWrite_v (p : Ppu) (c : Cart) (val : Byte) :
    (ppuRegWrite p c 7 val).1.v = p.v + (if p.ctrl.getLsbD 2 then 32 else 1) := by
  obtain ⟨hv, hctrl, -⟩ := ppuBusWrite_registers { p with openBus := val } c p.dataAddr val
  show (ppuBusWrite { p with openBus := val } c p.dataAddr val).1.bumpV.v = _
  rw [Ppu.bumpV, hv, hctrl]

theorem dataWrite_w (p : Ppu) (c : Cart) (val : Byte) : (ppuRegWrite p c 7 val).1.w = p.w :=
  (ppuBusWrite_registers { p with openBus := val } c p.dataAddr val).2.2

theorem dataRead_v (p : Ppu) (c : Cart) :
    (ppuRegRead p c 7).2.1.v = p.v + (if p.ctrl.getLsbD 2 then 32 else 1) := by
  show (readData p c).2.1.v = _
  unfold readData
  dsimp only
  split <;> rfl

/-- Below the palette a read delivers what the one before it put in the buffer. -/
theorem readData_buffered {p : Ppu} (h : p.dataAddr.toNat < 0x3F00) (c : Cart) : (readData p c).1 = p.readBuffer := by
  simp only [readData, if_pos h]

theorem readBuffer_readData {p : Ppu} (h : p.dataAddr.toNat < 0x3F00) (c : Cart) :
    (readData p c).2.1.readBuffer = (ppuBusRead p c p.dataAddr).1 := by
  simp only [readData, if_pos h]

/-- In the palette a read delivers the entry at once, under the top two bits of the open bus. -/
theorem readData_palette {p : Ppu} (h : 0x3F00 ≤ p.dataAddr.toNat) (c : Cart) :
    (readData p c).1 = ((p.openBus &&& 0xC0) ||| (p.paletteRead p.dataAddr).setWidth 8) := by
  simp only [readData, if_neg (Nat.not_lt.2 h)]

theorem dataWrite_ciram {p : Ppu} {c : Cart} {page : Nat} (h₀ : 0x2000 ≤ p.dataAddr.toNat)
    (h₁ : p.dataAddr.toNat < 0x3F00) (hp : ciramPage c.mirroring (nametableOf p.dataAddr) = some page) (val : Byte) :
    (ppuRegWrite p c 7 val).1.ciram = memSet p.ciram (page * 0x400 + p.dataAddr.toNat % 0x400) val := by
  show (ppuBusWrite { p with openBus := val } c p.dataAddr val).1.ciram = _
  rw [ppuBusWrite_ciram _ h₀ h₁ _ hp]

theorem dataWrite_palette {p : Ppu} (h : 0x3F00 ≤ p.dataAddr.toNat) (c : Cart) (val : Byte) :
    (ppuRegWrite p c 7 val).1.palette = cellSet 0 p.palette (paletteIndex p.dataAddr) (val.setWidth 6) := by
  show (ppuBusWrite { p with openBus := val } c p.dataAddr val).1.palette = _
  rw [ppuBusWrite_palette _ c h]
  rfl

/-- A palette entry written through PPUDATA is read under every address of the same entry. -/
theorem paletteRead_of_dataWrite {p r : Ppu} {c : Cart} {val : Byte} (h : 0x3F00 ≤ p.dataAddr.toNat)
    (hr : r.palette = (ppuRegWrite p c 7 val).1.palette) {a : BitVec 14} (ha : paletteIndex a = paletteIndex p.dataAddr) :
    r.paletteRead a = val.setWidth 6 := by
  rw [Ppu.paletteRead, hr, dataWrite_palette h, cellGet_cellSet, if_pos ha]

/-- A nametable byte written through PPUDATA enters the read buffer when a PPU with that nametable RAM reads its address. -/
theorem readBuffer_of_dataWrite {p r : Ppu} {c : Cart} {val : Byte} (hm : c.mirroring ≠ .fourScreen)
    (h₀ : 0x2000 ≤ p.dataAddr.toNat) (h₁ : p.dataAddr.toNat < 0x3F00) (ha : r.dataAddr = p.dataAddr)
    (hr : r.ciram = (ppuRegWrite p c 7 val).1.ciram) : (readData r c).2.1.readBuffer = val := by
  obtain ⟨page, hp⟩ : ∃ page, ciramPage c.mirroring (nametableOf p.dataAddr) = some page :=
    Option.ne_none_iff_exists'.1 fun h => hm ((ciramPage_eq_none_iff _ _).1 h).1
  rw [readBuffer_readData (by rwa [ha]), ha, ppuBusRead_ciram r h₀ h₁ hp, hr, dataWrite_ciram h₀ h₁ hp,
    memGet_memSet_same]

/-- A palette byte comes back with its low six bits (R115). -/
theorem setWidth_six_setWidth_eight (b : Byte) : (b.setWidth 6).setWidth 8 = b &&& 0x3F := by
  apply BitVec.eq_of_toNat_eq
  rw [BitVec.toNat_setWidth, BitVec.toNat_setWidth, BitVec.toNat_and]
  exact (Nat.mod_eq_of_lt (by omega)).trans (Nat.and_two_pow_sub_one_eq_mod b.toNat 6).symm

/-! ### The obligations -/

/-- Settles O46: the memory after a write cycle is read off by the names of the byte written; a register access looks at the
address modulo 8 only. -/
theorem ramAndPpuRegistersAreMirrored : Obligations.RamAndPpuRegistersAreMirrored := by
  intro s a b v
  refine ⟨fun ha => ⟨fun hb hab => ?_, fun hne => ?_⟩, fun ha ha' hb hb' hab => ?_⟩
  · exact memRead_of_memByte (by rw [memByte_memWrite_ram s ha, if_pos ⟨hb, hab⟩])
  · rw [memByte_memWrite_ram s ha, if_neg (by omega)]
  · rw [busRead_ppuReg s ha ha', busRead_ppuReg s hb hb', busWrite_ppuReg s ha ha', busWrite_ppuReg s hb hb', hab]
    exact ⟨rfl, rfl⟩

/-- Settles O47, range by range. -/
theorem undrivenReadsReturnTheBusLatch : Obligations.UndrivenReadsReturnTheBusLatch := by
  rintro s a (⟨h₀, h₁⟩ | ⟨h₀, h₁⟩ | ⟨h₀, hnone⟩)
  · rw [busRead_writeOnly s h₀ h₁]
  · rw [busRead_unallocated s h₀ h₁]
  · rw [busRead_cart s h₀, hnone, Option.getD_none]

/-- Settles O53: the second pair of PPUADDR writes selects the address of the first and leaves what the write stored. -/
theorem videoMemoryIsReadBack : Obligations.VideoMemoryIsReadBack := by
  intro p n hi lo v hw hm hhi c a q r
  have hq : ((p.writeAddr hi).writeAddr lo).dataAddr.toNat = a := toNat_dataAddr_writeAddr hw hi lo
  have hqw : q.w = false := (dataWrite_w _ c v).trans (by rw [Ppu.writeAddr_writeAddr hw])
  have hra : r.dataAddr.toNat = a := toNat_dataAddr_writeAddr hqw hi lo
  have hr : r.dataAddr = ((p.writeAddr hi).writeAddr lo).dataAddr := BitVec.eq_of_toNat_eq (hra.trans hq.symm)
  have hciram : r.ciram = q.ciram := by simp [r]
  have hpalette : r.palette = q.palette := by simp [r]
  refine ⟨fun ha => ?_, fun u hu => readData_buffered hu c, fun ha => ?_, fun ha => ?_,
    fun u k x => ⟨dataWrite_v u k x, dataRead_v u k⟩⟩
  · exact readBuffer_of_dataWrite hm (by omega) (by omega) hr hciram
  · rw [readData_palette (hra ▸ ha), paletteRead_of_dataWrite (by omega) hpalette (by rw [hr]),
      setWidth_six_setWidth_eight]
  · have haddr : ((p.writeAddr hi).writeAddr lo).dataAddr = 0x3F10 := BitVec.eq_of_toNat_eq (hq.trans ha)
    exact paletteRead_of_dataWrite (by omega) rfl (by rw [haddr]; decide)

/-- Settles O54: the mirroring table names either a page of the console's RAM or the cartridge's own. -/
theorem nametablesFollowTheMirroring : Obligations.NametablesFollowTheMirroring := by
  rintro p n a v _ _ h₀ h₁ rfl rfl
  refine ⟨fun g hg => ?_, fun hfour hk => ?_⟩
  · have hp : ciramPage (Cart.nrom n).mirroring (nametableOf a) = some g := (ciramPage_eq_some_iff _ _ _).2 hg
    exact ⟨ppuBusRead_ciram p h₀ h₁ hp, ppuBusWrite_ciram p h₀ h₁ v hp⟩
  · have hp : ciramPage n.mirroring (nametableOf a) = none := (ciramPage_eq_none_iff _ _).2 ⟨hfour, hk⟩
    have hcell : (a.toNat / 0x400 % 4 - 2) * 0x400 + a.toNat % 0x400 = a.toNat % 0x800 := by omega
    rw [hcell]
    exact ⟨ppuBusRead_ntRam p h₀ h₁ hp, ppuBusWrite_ntRam p h₀ h₁ v hp⟩

end Sys2Proof.Machine
end

section
/-!
PROOFS. The opcode map read in both directions (30_encoding.md R150-R156). The instructions the decoder reads are the well-formed
ones (`wellFormed_iff_isRow`), and a byte string decodes to such an instruction exactly when it begins with its encoding
(`decode_eq_instr_iff`).
-/

namespace Sys2Proof

/-! ### Operands and the bytes they are built from (30 R151, R152) -/

theorem lowByte_joinBytes (h l : Byte) : lowByte (joinBytes h l) = l := BitVec.extractLsb'_append_eq_right

theorem highByte_joinBytes (h l : Byte) : highByte (joinBytes h l) = h := BitVec.extractLsb'_append_eq_left

theorem joinBytes_highByte_lowByte (a : Addr) : joinBytes (highByte a) (lowByte a) = a := by
  have hhigh : (highByte a).toNat = a.toNat / 256 := by simp [highByte, Nat.shiftRight_eq_div_pow]; omega
  have hlow : (lowByte a).toNat = a.toNat % 256 := by simp [lowByte]
  apply BitVec.eq_of_toNat_eq
  rw [Machine.toNat_joinBytes, hhigh, hlow, Nat.div_add_mod']

theorem exists_joinBytes (a : Addr) : ∃ b1 b2, a = joinBytes b2 b1 :=
  ⟨lowByte a, highByte a, (joinBytes_highByte_lowByte a).symm⟩

/-- The memory operand in a mode, as the decoder builds it from the two bytes after the opcode. -/
def ModeKind.operand (b1 b2 : Byte) : ModeKind → MemMode
  | .zp => .zp b1
  | .zpX => .zpX b1
  | .zpY => .zpY b1
  | .abs => .abs (joinBytes b2 b1)
  | .absX => .absX (joinBytes b2 b1)
  | .absY => .absY (joinBytes b2 b1)
  | .indX => .indX b1
  | .indY => .indY b1

theorem MemMode.exists_operand (m : MemMode) : ∃ (k : ModeKind) (b1 b2 : Byte), m = k.operand b1 b2 := by
  cases m with
  | zp z => exact ⟨.zp, z, 0, rfl⟩
  | zpX z => exact ⟨.zpX, z, 0, rfl⟩
  | zpY z => exact ⟨.zpY, z, 0, rfl⟩
  | indX z => exact ⟨.indX, z, 0, rfl⟩
  | indY z => exact ⟨.indY, z, 0, rfl⟩
  | abs a => obtain ⟨b1, b2, rfl⟩ := exists_joinBytes a; exact ⟨.abs, b1, b2, rfl⟩
  | absX a => obtain ⟨b1, b2, rfl⟩ := exists_joinBytes a; exact ⟨.absX, b1, b2, rfl⟩
  | absY a => obtain ⟨b1, b2, rfl⟩ := exists_joinBytes a; exact ⟨.absY, b1, b2, rfl⟩

/-! ### What the rows of the opcode map are (30 R156) -/

/-- The values of a function of the opcode byte over the opcode map: a row per high nibble, a column per low nibble. -/
def overMap {α : Type} (f : Byte → α) : List (List α) :=
  (List.range 16).map fun hi => (List.range 16).map fun lo => f (BitVec.ofNat 8 (16 * hi + lo))

/-- Two functions of the opcode byte are equal when they agree over the map; where the operand bytes are variables too, so
that `decide` does not apply, evaluating the map's rows still compares them. -/
theorem eq_of_overMap_eq {α : Type} {f g : Byte → α} (h : overMap f = overMap g) (op : Byte) : f op = g op := by
  have hrow := List.map_inj_left.1 h (op.toNat / 16) (List.mem_range.2 (by omega))
  have hcell := List.map_inj_left.1 hrow (op.toNat % 16) (List.mem_range.2 (by omega))
  rwa [Nat.div_add_mod, BitVec.ofNat_toNat, BitVec.setWidth_eq] at hcell

theorem lengthOf_cases : ∀ op : Byte, lengthOf op = 1 ∨ lengthOf op = 2 ∨ lengthOf op = 3 := by decide +kernel

/-- What goes with an instruction of `n` bytes, one to three (30 R150). -/
def byLength {α : Type} (n : Nat) (one two three : α) : α :=
  match n with
  | 1 => one
  | 2 => two
  | _ => three

theorem wellFormed_decodeBytes (op b1 b2 : Byte) : (decodeBytes op b1 b2).wellFormed = true :=
  eq_of_overMap_eq (f := fun op => (decodeBytes op b1 b2).wellFormed) (g := fun _ => true) rfl op

theorem opcodeOf_decodeBytes (op b1 b2 : Byte) : opcodeOf (decodeBytes op b1 b2) = some op :=
  eq_of_overMap_eq (f := fun op => opcodeOf (decodeBytes op b1 b2)) (g := some) rfl op

theorem operandBytes_decodeBytes (op b1 b2 : Byte) :
    operandBytes (decodeBytes op b1 b2) = byLength (lengthOf op) [] [b1] [b1, b2] := by
  have h := eq_of_overMap_eq (f := fun op => operandBytes (decodeBytes op b1 b2))
    (g := fun op => byLength (lengthOf op) [] [b1] [lowByte (joinBytes b2 b1), highByte (joinBytes b2 b1)]) rfl op
  rwa [lowByte_joinBytes, highByte_joinBytes] at h

/-- The bytes past an instruction's length have no part in it. -/
theorem decodeBytes_eq_of_length (op b1 b2 : Byte) :
    decodeBytes op b1 b2 = byLength (lengthOf op) (decodeBytes op 0 0) (decodeBytes op b1 0) (decodeBytes op b1 b2) :=
  eq_of_overMap_eq (f := fun op => decodeBytes op b1 b2)
    (g := fun op => byLength (lengthOf op) (decodeBytes op 0 0) (decodeBytes op b1 0) (decodeBytes op b1 b2)) rfl op

theorem encode_decodeBytes (op b1 b2 : Byte) :
    encode (decodeBytes op b1 b2) = op :: byLength (lengthOf op) [] [b1] [b1, b2] := by
  rw [encode, opcodeOf_decodeBytes, operandBytes_decodeBytes]

theorem length_decodeBytes (op b1 b2 : Byte) : (decodeBytes op b1 b2).length = lengthOf op := by
  rw [Instr.length, operandBytes_decodeBytes]
  rcases lengthOf_cases op with hn | hn | hn <;> simp [byLength, hn]

/-! ### Every well-formed instruction is a row -/

/-- The instruction is what some opcode byte selects, with some bytes after it. -/
def Instr.IsRow (i : Instr) : Prop := ∃ op b1 b2, decodeBytes op b1 b2 = i

/-- The row to look at is the one of the instruction's own opcode byte. -/
theorem Instr.IsRow.intro {i : Instr} {op : Byte} (b1 b2 : Byte) (_ : opcodeOf i = some op)
    (h : decodeBytes op b1 b2 = i) : i.IsRow := ⟨op, b1, b2, h⟩

/-- For the instructions that carry their opcode byte: they are rows at every byte of a list along which the map gives them. -/
theorem isRow_of_contains {ops : List Byte} {f : Byte → Instr} (b1 b2 : Byte)
    (h : ops.map (fun op => decodeBytes op b1 b2) = ops.map f) {op : Byte} (hop : ops.contains op = true) : (f op).IsRow :=
  ⟨op, b1, b2, List.map_inj_left.1 h op (List.contains_iff_mem.1 hop)⟩

theorem isRow_kil {op : Byte} (h : (Instr.kil op).wellFormed = true) : (Instr.kil op).IsRow :=
  isRow_of_contains (f := .kil) 0 0 rfl h

theorem isRow_anc {op b : Byte} (h : (Instr.anc op b).wellFormed = true) : (Instr.anc op b).IsRow := by
  rcases Bool.or_eq_true_iff.1 h with h | h <;> rw [eq_of_beq h] <;> exact .intro b 0 rfl rfl

theorem isRow_nop {op : Byte} {o : NopOperand} (h : (Instr.nop op o).wellFormed = true) : (Instr.nop op o).IsRow := by
  cases o with
  | implied => exact isRow_of_contains (f := (.nop · .implied)) 0 0 rfl h
  | read r =>
    cases r with
    | imm b => exact isRow_of_contains (f := (.nop · (.read (.imm b)))) b 0 rfl h
    | mem m =>
      obtain ⟨k, b1, b2, rfl⟩ := m.exists_operand
      cases k with
      | zp => exact isRow_of_contains (f := (.nop · (.read (.mem (.zp b1))))) b1 0 rfl h
      | zpX => exact isRow_of_contains (f := (.nop · (.read (.mem (.zpX b1))))) b1 0 rfl h
      | abs => rw [eq_of_beq h]; exact .intro b1 b2 rfl rfl
      | absX => exact isRow_of_contains (f := (.nop · (.read (.mem (.absX (joinBytes b2 b1)))))) b1 b2 rfl h
      | zpY | absY | indX | indY => cases h

theorem isRow_of_wellFormed {i : Instr} : i.wellFormed = true → i.IsRow := by
  cases i with
  | lda o | ldx o | ldy o | adc o | sbc o | and o | ora o | eor o | cmp o | cpx o | cpy o | bit o =>
    cases o with
    | imm b => rintro ⟨⟩ <;> exact .intro b 0 rfl rfl
    | mem m =>
      obtain ⟨k, b1, b2, rfl⟩ := m.exists_operand
      cases k <;> rintro ⟨⟩ <;> exact .intro b1 b2 rfl rfl
  | asl o | lsr o | rol o | ror o =>
    cases o with
    | acc => exact fun _ => .intro 0 0 rfl rfl
    | mem m =>
      obtain ⟨k, b1, b2, rfl⟩ := m.exists_operand
      cases k <;> rintro ⟨⟩ <;> exact .intro b1 b2 rfl rfl
  | sta m | stx m | sty m | inc m | dec m | lax m | sax m | slo m | rla m | sre m | rra m | dcp m | isb m | sha m =>
    obtain ⟨k, b1, b2, rfl⟩ := m.exists_operand
    cases k <;> rintro ⟨⟩ <;> exact .intro b1 b2 rfl rfl
  | jmp a | jmpInd a | jsr a | las a | shx a | shy a | tas a =>
    obtain ⟨b1, b2, rfl⟩ := exists_joinBytes a
    exact fun _ => .intro b1 b2 rfl rfl
  | bpl b | bmi b | bvc b | bvs b | bcc b | bcs b | bne b | beq b | sbcEB b | alr b | arr b | axs b | xaa b | lxa b =>
    exact fun _ => .intro b 0 rfl rfl
  | tax | tay | txa | tya | tsx | txs | inx | iny | dex | dey | rts | rti | brk | pha | php | pla | plp | clc | sec | cli | sei
  | cld | sed | clv => exact fun _ => .intro 0 0 rfl rfl
  | nop op o => exact isRow_nop
  | kil op => exact isRow_kil
  | anc op b => exact isRow_anc

theorem wellFormed_iff_isRow {i : Instr} : i.wellFormed = true ↔ i.IsRow := by
  refine ⟨isRow_of_wellFormed, ?_⟩
  rintro ⟨op, b1, b2, rfl⟩
  exact wellFormed_decodeBytes op b1 b2

/-! ### The decoder -/

theorem decode_operands (op b1 b2 : Byte) (rest : List Byte) :
    decode (op :: (byLength (lengthOf op) [] [b1] [b1, b2] ++ rest)) = .instr (decodeBytes op b1 b2) rest := by
  rw [decodeBytes_eq_of_length op b1 b2]
  rcases lengthOf_cases op with hn | hn | hn <;> simp [decode, byLength, hn]

theorem exists_of_decode_eq {bytes rest : List Byte} {i : Instr} (h : decode bytes = .instr i rest) :
    ∃ op b1 b2, decodeBytes op b1 b2 = i ∧ bytes = op :: (byLength (lengthOf op) [] [b1] [b1, b2] ++ rest) := by
  cases bytes with
  | nil => cases h
  | cons op tail =>
    rcases lengthOf_cases op with hn | hn | hn
    · simp only [decode, hn] at h
      cases h
      exact ⟨op, 0, 0, rfl, by simp [byLength, hn]⟩
    · cases tail with
      | nil => simp [decode, hn] at h
      | cons b1 tail =>
        simp only [decode, hn] at h
        cases h
        exact ⟨op, b1, 0, rfl, by simp [byLength, hn]⟩
    · match tail with
      | [] | [_] => simp [decode, hn] at h
      | b1 :: b2 :: tail =>
        simp only [decode, hn] at h
        cases h
        exact ⟨op, b1, b2, rfl, by simp [byLength, hn]⟩

/-- A byte string decodes to the well-formed instruction whose encoding it begins with, and to nothing else. -/
theorem decode_eq_instr_iff {bytes rest : List Byte} {i : Instr} :
    decode bytes = .instr i rest ↔ i.wellFormed = true ∧ encode i ++ rest = bytes := by
  constructor
  · intro h
    obtain ⟨op, b1, b2, rfl, rfl⟩ := exists_of_decode_eq h
    exact ⟨wellFormed_decodeBytes op b1 b2, by rw [encode_decodeBytes, List.cons_append]⟩
  · rintro ⟨hwf, rfl⟩
    obtain ⟨op, b1, b2, rfl⟩ := wellFormed_iff_isRow.1 hwf
    rw [encode_decodeBytes, List.cons_append, decode_operands]

/-! ### The obligations -/

/-- Settles O1: a well-formed instruction is a row of the map, and the row's opcode byte asks for the operand bytes written. -/
theorem decodeOfEncodeIsTheInstruction : Obligations.DecodeOfEncodeIsTheInstruction := by
  intro i rest hwf
  exact decode_eq_instr_iff.2 ⟨hwf, rfl⟩

/-- Settles O2: what decodes is what the map gives for the bytes read. -/
theorem encodeOfDecodeGivesTheBytesBack : Obligations.EncodeOfDecodeGivesTheBytesBack := by
  intro bytes rest i h
  exact decode_eq_instr_iff.1 h

/-- Settles O3: the two bytes after the opcode are split into the operand and what is left over. -/
theorem everyOpcodeByteDecodes : Obligations.EveryOpcodeByteDecodes := by
  intro op b1 b2 rest
  refine ⟨decodeBytes op b1 b2, ?_, length_decodeBytes op b1 b2, ?_⟩
  · rcases lengthOf_cases op with hn | hn | hn <;> simpa [byLength, hn] using decode_operands op b1 b2 _
  · rcases lengthOf_cases op with hn | hn | hn <;> simp [hn]

end Sys2Proof
end

section
/-!
PROOFS. The addressing modes (40_addressing.md R200-R220): where their cycles end, what they read there, how many cycles they
take, and the instruction that a step fetches (R200).
-/

namespace Sys2Proof.Machine

/-! ### The two bytes of an address, as numbers -/

theorem toNat_lowByte (a : Addr) : (lowByte a).toNat = a.toNat % 256 := by simp [lowByte]

theorem toNat_highByte (a : Addr) : (highByte a).toNat = a.toNat / 256 := by
  simp only [highByte, BitVec.extractLsb'_toNat, Nat.shiftRight_eq_div_pow]
  omega

/-- Two addresses are on one page when their high bytes agree. -/
theorem highByte_eq_iff (a b : Addr) : highByte a = highByte b ↔ a.toNat / 256 = b.toNat / 256 := by
  rw [← BitVec.toNat_inj, toNat_highByte, toNat_highByte]

theorem crosses_iff (base : Addr) (idx : Byte) : crosses base idx = true ↔ 256 ≤ base.toNat % 256 + idx.toNat := by
  rw [crosses, decide_eq_true_iff, toNat_lowByte]

/-! ### Cycles of the read template (R217) -/

theorem costs_readIndexed (s : State) (base : Addr) (idx : Byte) :
    Costs (1 + crossCycle base idx) s (s.readIndexed base idx).2 := by
  unfold State.readIndexed crossCycle
  by_cases h : 256 ≤ base.toNat % 256 + idx.toNat
  · rw [if_pos h, if_pos ((crosses_iff base idx).2 h)]
    exact (costs_dummyRead s _).trans (costs_memRead _ _)
  · rw [if_neg h, if_neg (mt (crosses_iff base idx).1 h)]
    exact costs_memRead s _

/-- The read template takes its mode's cycles, one more on a page cross. -/
theorem costs_readMem (s : State) (m : MemMode) : Costs (s.readCycles m) s (s.readMem m).2 := by
  cases m with
  | zp z | abs a => exact costs_memRead s _
  | zpX z | zpY z => exact (costs_dummyRead s _).trans (costs_memRead _ _)
  | absX a | absY a => exact costs_readIndexed s a _
  | indX z => exact (costs_pointerX s z).trans (costs_memRead _ _)
  | indY z =>
    have h := (costs_pointerY s z).trans (costs_readIndexed _ (s.pointerY z).1 s.y)
    simpa only [State.readMem, State.readCycles, pointerY_fst, ← Nat.add_assoc] using h

theorem costs_readOperand (s : State) (o : ReadOperand) : Costs (s.operandCycles o) s (s.readOperand o).2 := by
  cases o with
  | imm i => exact Costs.refl s
  | mem m => exact costs_readMem s m

/-! ### Cycles of the write and read-modify-write templates (R217, R218, R220) -/

/-- Finding the effective address takes all cycles of the write template but the write. -/
theorem costs_locate (s : State) (m : MemMode) : Costs (writeCycles m - 1) s (s.locate m).2 := by
  cases m with
  | zp z | abs a => exact Costs.refl s
  | zpX z | zpY z | absX a | absY a => exact costs_dummyRead s _
  | indX z => exact costs_pointerX s z
  | indY z => exact (costs_pointerY s z).trans (costs_dummyRead _ _)

theorem writeCycles_pos (m : MemMode) : 0 < writeCycles m := by cases m <;> simp [writeCycles]

theorem takes_store (s : State) (m : MemMode) (v : Byte) : Takes (writeCycles m) s (s.store m v) := by
  intro hn
  rw [State.store, cycles_memWrite, (costs_locate s m hn).2, Nat.add_assoc, Nat.sub_add_cancel (writeCycles_pos m)]

/-- A modifier that changes registers only takes no cycle of its own: the template reads once and writes twice. -/
theorem takes_modify (s : State) (m : MemMode) {f : Modifier} (hf : ∀ v u, CpuOnly u (f v u).2) :
    Takes (writeCycles m + 2) s (s.modify m f) := by
  intro hn
  have hread := ((costs_locate s m).trans (costs_memRead (s.locate m).2 (s.locate m).1) hn).2
  have hpos := writeCycles_pos m
  simp only [State.modify, cycles_memWrite, (hf _ _).cycles, hread]
  omega

theorem cpuOnly_onFlags (g : Byte → Flags → Byte × Flags) (v : Byte) (s : State) : CpuOnly s (onFlags g v s).2 :=
  cpuOnly_withP s _

theorem cpuOnly_shiftThen (g : Byte → Flags → Byte × Flags) (combine : Byte → Byte → Byte) (v : Byte) (s : State) :
    CpuOnly s (shiftThen g combine v s).2 := (cpuOnly_withP s _).trans (cpuOnly_setA _ _)

theorem cpuOnly_rorThenAdd (v : Byte) (s : State) : CpuOnly s (rorThenAdd v s).2 :=
  (cpuOnly_withP s _).trans (cpuOnly_addA _ _)

theorem cpuOnly_decThenCompare (v : Byte) (s : State) : CpuOnly s (decThenCompare v s).2 := cpuOnly_compare s _ _

theorem cpuOnly_incThenSub (v : Byte) (s : State) : CpuOnly s (incThenSub v s).2 := cpuOnly_addA s _

/-! ### Branches (R213) -/

/-- Each branch instruction is the relative template under its own condition (44 R340-R348). -/
theorem exec_branch {s : State} {r : Byte} {i : Instr} {taken : Bool}
    (h : (i, taken) ∈ [(Instr.bpl r, !s.p.n), (.bmi r, s.p.n), (.bvc r, !s.p.v), (.bvs r, s.p.v), (.bcc r, !s.p.c),
      (.bcs r, s.p.c), (.bne r, !s.p.z), (.beq r, s.p.z)]) :
    exec i s = .next (s.branch taken r) := by
  simp only [List.mem_cons, Prod.mk.injEq, List.not_mem_nil, or_false] at h
  rcases h with ⟨rfl, rfl⟩ | ⟨rfl, rfl⟩ | ⟨rfl, rfl⟩ | ⟨rfl, rfl⟩ | ⟨rfl, rfl⟩ | ⟨rfl, rfl⟩ | ⟨rfl, rfl⟩ | ⟨rfl, rfl⟩ <;> rfl

/-- Cycles of a branch after its own bytes: none when not taken, one within the page, two into another. -/
def branchCycles (s : State) (taken : Bool) (r : Byte) : Nat :=
  if taken then if (addSigned s.pc r).toNat / 256 = s.pc.toNat / 256 then 1 else 2 else 0

theorem costs_branch (s : State) (taken : Bool) (r : Byte) : Costs (branchCycles s taken r) s (s.branch taken r) := by
  unfold State.branch branchCycles
  cases taken with
  | false => exact Costs.refl s
  | true =>
    simp only [if_true, highByte_eq_iff]
    split
    · exact (costs_dummyRead s _).trans (cpuOnly_withPc _ _).costs
    · exact ((costs_dummyRead s _).trans (costs_dummyRead _ _)).trans (cpuOnly_withPc _ _).costs

/-! ### The boundary, where it chooses the instruction at PC (60 R454) -/

theorem step_eq_exec_fetchInstr {s : State} (hreset : s.resetPending = false) (hjam : s.jammed = false)
    (hnmi : s.nmiPending = false) (hirq : (s.irqLine && !s.p.i) = false) :
    step s = exec s.fetchInstr.1 s.fetchInstr.2 := by
  simp [step, State.cpuStep, State.runInstruction, hreset, hjam, hnmi, hirq]

/-! ### Fetching bytes (R200) -/

/-- From `s` to `u` the `n` bytes at PC were fetched: only PC, the clock and the devices moved. -/
structure Fetches (n : Nat) (s u : State) : Prop where
  cpu : u.cpu = { s.cpu with pc := s.pc + BitVec.ofNat 16 n }
  stores : StoresOnly [] s u
  costs : Costs n s u

theorem Fetches.memByte {n : Nat} {s u : State} (h : Fetches n s u) (a : Addr) : u.memByte a = s.memByte a :=
  h.stores.1 a (by simp)

theorem Fetches.pc {n : Nat} {s u : State} (h : Fetches n s u) : u.pc = s.pc + BitVec.ofNat 16 n :=
  congrArg CpuView.pc h.cpu

theorem Fetches.zero (s : State) : Fetches 0 s s := ⟨by simp [State.cpu], StoresOnly.refl s, Costs.refl s⟩

theorem Fetches.fetchByte {n : Nat} {s u : State} (h : Fetches n s u) : Fetches (n + 1) s u.fetchByte.2 := by
  obtain ⟨hcpu, hstores, -⟩ := fetchByte_spec u
  refine ⟨?_, by simpa using h.stores.trans hstores, h.costs.trans (costs_fetchByte u)⟩
  rw [hcpu, h.cpu, h.pc, BitVec.ofNat_add, BitVec.add_assoc]
  rfl

/-- The next byte fetched is the one that stood there before the fetch began. -/
theorem Fetches.fetchByte_fst {n : Nat} {s u : State} {b : Byte} (h : Fetches n s u)
    (hb : s.memByte (s.pc + BitVec.ofNat 16 n) = some b) : u.fetchByte.1 = b :=
  (fetchByte_spec u).2.2 b (by rw [h.memByte, h.pc, hb])

/-! ### Fetching an instruction (R200, 44 R351, 46 R429) -/

/-- The bytes fetched before an instruction's own cycles, opcode included: all of them but JSR's third. -/
def fetchedBytes (op : Byte) : Nat := if op = 0x20 then 2 else lengthOf op

theorem fetchedOperands_of_running {policy : UndocPolicy} {op : Byte}
    (h : otherUndocOpcodes.contains op = true → policy = .nmos) : fetchedOperands policy op = fetchedBytes op - 1 := by
  have hrun : (otherUndocOpcodes.contains op && policy != .nmos) = false := by
    cases hc : otherUndocOpcodes.contains op with
    | false => rfl
    | true => rw [h hc]; rfl
  simp only [fetchedOperands, fetchedBytes, hrun, Bool.false_eq_true, if_false]
  split <;> rfl

/-- What JSR's last cycle will read is the byte at PC, unless its pushes go there. -/
theorem jsrHigh_of_memByte {s : State} {b : Byte} (hb : s.memByte s.pc = some b)
    (hhigh : sameByte (stackAddr s.sp) s.pc = false) (hlow : sameByte (stackAddr (s.sp - 1)) s.pc = false) :
    s.jsrHigh = b := by
  refine memRead_of_memByte ?_
  rw [State.jsrPush, memByte_push, memByte_push, push_sp, dummyRead_sp, dummyRead_memByte, hhigh, hlow]
  exact hb

section FetchInstr

variable {s : State} {op b1 b2 : Byte} (hop : s.fetchByte.1 = op)

include hop

theorem fetchInstr_of_zero (hn : fetchedOperands s.undocPolicy op = 0) :
    s.fetchInstr = (decodeBytes op 0 0, s.fetchByte.2) := by
  simp only [State.fetchInstr, hop, hn]

variable (h1 : s.fetchByte.2.fetchByte.1 = b1)

include h1

theorem fetchInstr_of_one (hn : fetchedOperands s.undocPolicy op = 1) :
    s.fetchInstr
      = (decodeBytes op b1 (s.fetchByte.2.fetchByte.2.pendingHigh op), s.fetchByte.2.fetchByte.2) := by
  simp only [State.fetchInstr, hop, h1, hn]

theorem fetchInstr_of_two (h2 : s.fetchByte.2.fetchByte.2.fetchByte.1 = b2)
    (hn : fetchedOperands s.undocPolicy op = 2) :
    s.fetchInstr = (decodeBytes op b1 b2, s.fetchByte.2.fetchByte.2.fetchByte.2) := by
  simp only [State.fetchInstr, hop, h1, h2, hn]

end FetchInstr

/-- The bytes of an instruction, by position. -/
theorem getElem?_instrBytes (op b1 b2 : Byte) :
    let bytes := op :: byLength (lengthOf op) [] [b1] [b1, b2]
    bytes.length = lengthOf op ∧ (1 < lengthOf op → bytes[1]? = some b1) ∧ (2 < lengthOf op → bytes[2]? = some b2) := by
  rcases lengthOf_cases op with hlen | hlen | hlen <;> simp [byLength, hlen]

/-- The instruction fetched is the one that the bytes at PC select: JSR's third byte is read ahead, an instruction's missing
bytes have no part in it. -/
theorem fetchInstr_spec {s : State} {op b1 b2 : Byte} (hop : s.memByte s.pc = some op)
    (h1 : 1 < lengthOf op → s.memByte (s.pc + 1) = some b1) (h2 : 2 < lengthOf op → s.memByte (s.pc + 2) = some b2)
    (hrun : otherUndocOpcodes.contains op = true → s.undocPolicy = .nmos)
    (hjsr : op = 0x20 →
      sameByte (stackAddr s.sp) (s.pc + 2) = false ∧ sameByte (stackAddr (s.sp - 1)) (s.pc + 2) = false) :
    s.fetchInstr.1 = decodeBytes op b1 b2 ∧ Fetches (fetchedBytes op) s s.fetchInstr.2 := by
  have f1 := (Fetches.zero s).fetchByte
  have f2 := f1.fetchByte
  have e0 : s.fetchByte.1 = op := (Fetches.zero s).fetchByte_fst (by simpa using hop)
  have hn := fetchedOperands_of_running hrun
  rw [decodeBytes_eq_of_length op b1 b2]
  by_cases hj : op = 0x20
  · subst hj
    have hlen : lengthOf 0x20 = 3 := rfl
    have hhigh : s.fetchByte.2.fetchByte.2.jsrHigh = b2 := by
      have hsp : s.fetchByte.2.fetchByte.2.sp = s.sp := congrArg CpuView.sp f2.cpu
      refine jsrHigh_of_memByte ?_ ?_ ?_ <;> rw [f2.pc]
      · rw [f2.memByte]; exact h2 (by decide)
      · rw [hsp]; exact (hjsr rfl).1
      · rw [hsp]; exact (hjsr rfl).2
    rw [fetchInstr_of_one e0 (f1.fetchByte_fst (h1 (by decide))) hn, State.pendingHigh, if_pos rfl, hhigh, hlen]
    exact ⟨rfl, f2⟩
  · rw [fetchedBytes, if_neg hj] at hn ⊢
    rcases lengthOf_cases op with hlen | hlen | hlen <;> rw [hlen] at h1 h2 hn ⊢
    · rw [fetchInstr_of_zero e0 hn]
      exact ⟨rfl, f1⟩
    · rw [fetchInstr_of_one e0 (f1.fetchByte_fst (h1 (by omega))) hn, State.pendingHigh, if_neg hj]
      exact ⟨rfl, f2⟩
    · rw [fetchInstr_of_two e0 (f1.fetchByte_fst (h1 (by omega))) (f2.fetchByte_fst (h2 (by omega))) hn]
      exact ⟨rfl, f2.fetchByte⟩

/-! ### The obligations -/

/-- Settles O18: reads alone find the address. -/
theorem effectiveAddresses : Obligations.EffectiveAddresses := by
  intro s m
  exact ⟨locate_fst s m, (quiet_locate s m).cpu, (quiet_locate s m).storesOnly⟩

/-- Settles O19: the reads before the last one leave plain memory as it was. -/
theorem operandsAreReadAtTheEffectiveAddress : Obligations.OperandsAreReadAtTheEffectiveAddress := by
  intro s
  exact ⟨fun _ => rfl, fun _ _ h => ⟨readMem_of_memByte h, rmwByte_of_memByte h⟩⟩

/-- Settles O20: the templates' cycles added up, the modifiers of the twelve instructions taking none. -/
theorem cyclesOfTheAddressingModes : Obligations.CyclesOfTheAddressingModes := by
  intro s hs
  refine ⟨fun m => (costs_readMem s m hs).2, fun m v => takes_store s m v hs, fun m f hf => ?_⟩
  have hcpu : ∀ v u, CpuOnly u (f v u).2 := by
    rcases hf with ⟨g, rfl⟩ | ⟨g, combine, rfl⟩ | rfl | rfl | rfl
    · exact cpuOnly_onFlags g
    · exact cpuOnly_shiftThen g combine
    · exact cpuOnly_rorThenAdd
    · exact cpuOnly_decThenCompare
    · exact cpuOnly_incThenSub
  exact takes_modify s m hcpu hs

/-- Settles O32: every branch is the relative template. -/
theorem branchesTestOneFlag : Obligations.BranchesTestOneFlag := by
  intro s r i taken h
  obtain ⟨hcpu, hstores⟩ := branch_spec s taken r
  exact ⟨s.branch taken r, exec_branch h, hstores, hcpu, (costs_branch s taken r).takes⟩

/-- Settles O5: the boundary chooses the instruction, and the fetch answers what the bytes at PC select. -/
theorem stepRunsTheInstructionAtPc : Obligations.StepRunsTheInstructionAtPc := by
  intro s bytes i hreset hjam hnmi hirq hdecode hbytes hrun hjsr
  obtain ⟨op, b1, b2, rfl, rfl⟩ := exists_of_decode_eq hdecode
  obtain ⟨hlength, hget1, hget2⟩ := getElem?_instrBytes op b1 b2
  rw [List.append_nil, hlength] at hbytes
  have hop : s.memByte s.pc = some op := by
    simpa using hbytes 0 (by have := lengthOf_cases op; omega)
  obtain ⟨hinstr, hfetch⟩ := fetchInstr_spec hop (fun h => (hbytes 1 h).trans (hget1 h))
    (fun h => (hbytes 2 h).trans (hget2 h)) (hrun op rfl) (by rintro rfl; exact hjsr (joinBytes b2 b1) rfl)
  refine ⟨s.fetchInstr.2, fetchedBytes op, ?_, hfetch.stores, ?_, hfetch.cpu, hfetch.costs.takes,
    fun hs => (hfetch.costs hs).1⟩
  · rw [step_eq_exec_fetchInstr hreset hjam hnmi hirq, hinstr]
  · rw [List.append_nil, hlength]; simp [fetchedBytes]

end Sys2Proof.Machine
end

section
/-!
PROOFS. Loads, stores and transfers (41_load_store_transfer.md R250-R263, 46_undocumented.md R410, R411). An instruction that
only reads the bus is read cycles and then a change of the registers (`exists_next_of_reads`); a store is the write template.
-/

namespace Sys2Proof.Machine

/-! ### Read cycles, then a change of the registers -/

section Reads

variable {i : Instr} {s u t : State} {c : CpuView}

/-- The registers an instruction leaves are worked out from those before its read cycles, which change none. -/
theorem exists_next_of_reads {n : Nat} (hread : Quiet s u) (hcosts : Costs n s u) (hexec : exec i s = .next t)
    (hregs : CpuOnly u t) (hcpu : u.cpu = s.cpu → t.cpu = c) :
    ∃ t, exec i s = .next t ∧ StoresOnly [] s t ∧ Takes n s t ∧ t.cpu = c :=
  ⟨t, hexec, hread.storesOnly.cpuOnly hregs, (hcosts.trans hregs.costs).takes, hcpu hread.cpu⟩

/-- A read-class instruction (40 R203-R211). -/
theorem exists_next_of_readOperand (o : ReadOperand) (hexec : exec i s = .next t) (hregs : CpuOnly (s.readOperand o).2 t)
    (hcpu : (s.readOperand o).2.cpu = s.cpu → t.cpu = c) :
    ∃ t, exec i s = .next t ∧ StoresOnly [] s t ∧ Takes (s.operandCycles o) s t ∧ t.cpu = c :=
  exists_next_of_reads (quiet_readOperand s o) (costs_readOperand s o) hexec hregs hcpu

/-- An instruction without an operand that stores nothing (40 R201). -/
theorem exists_next_of_implied (hexec : exec i s = .next t) (hregs : CpuOnly s.implied t)
    (hcpu : s.implied.cpu = s.cpu → t.cpu = c) :
    ∃ t, exec i s = .next t ∧ StoresOnly [] s t ∧ Takes 1 s t ∧ t.cpu = c :=
  exists_next_of_reads (quiet_implied s) (costs_implied s) hexec hregs hcpu

end Reads

/-! ### A register set on a state whose CPU is that of `s` -/

section SetRegister

variable {s u : State} (h : u.cpu = s.cpu) (v : Byte)

include h

theorem nz_of_cpu_eq : u.p.nz v = { s.p with n := v.getLsbD 7, z := v == 0 } := by
  rw [show u.p = s.p from congrArg CpuView.p h]
  rfl

theorem setA_cpu_of_cpu_eq :
    (u.setA v).cpu = { s.cpu with a := v, p := { s.p with n := v.getLsbD 7, z := v == 0 } } := by
  rw [State.setA_cpu, h, nz_of_cpu_eq h]

theorem setX_cpu_of_cpu_eq :
    (u.setX v).cpu = { s.cpu with x := v, p := { s.p with n := v.getLsbD 7, z := v == 0 } } := by
  rw [State.setX_cpu, h, nz_of_cpu_eq h]

theorem setY_cpu_of_cpu_eq :
    (u.setY v).cpu = { s.cpu with y := v, p := { s.p with n := v.getLsbD 7, z := v == 0 } } := by
  rw [State.setY_cpu, h, nz_of_cpu_eq h]

theorem withX_cpu_of_cpu_eq : (u.withX v).cpu = (s.withX v).cpu := by
  rw [State.withX_cpu, State.withX_cpu, h]

theorem withSp_cpu_of_cpu_eq : (u.withSp v).cpu = (s.withSp v).cpu := by
  rw [State.withSp_cpu, State.withSp_cpu, h]

end SetRegister

/-! ### The write template (R263, 40 R218) -/

/-- An instruction that is the write template changes no register, and stores its value at the address the template finds. -/
theorem exists_next_of_store {i : Instr} {s : State} {m : MemMode} {v : Byte} (hexec : exec i s = .next (s.store m v)) :
    ∃ t, exec i s = .next t ∧ t.cpu = s.cpu ∧ StoresOnly [(s.locate m).1] s t ∧ Takes (writeCycles m) s t
      ∧ (s.writable (s.locate m).1 = true → t.memByte (s.locate m).1 = some v) := by
  rw [locate_fst]
  exact ⟨s.store m v, hexec, store_cpu s m v, storesOnly_store s m v, takes_store s m v, memByte_store v⟩

/-- Each store is the write template with its own value (R253-R255, 46 R411). -/
theorem exec_store {s : State} {m : MemMode} {i : Instr} {v : Byte}
    (h : (i, v) ∈ [(Instr.sta m, s.a), (.stx m, s.x), (.sty m, s.y), (.sax m, s.a &&& s.x)]) :
    exec i s = .next (s.store m v) := by
  simp only [List.mem_cons, Prod.mk.injEq, List.not_mem_nil, or_false] at h
  rcases h with ⟨rfl, rfl⟩ | ⟨rfl, rfl⟩ | ⟨rfl, rfl⟩ | ⟨rfl, rfl⟩ <;> rfl

/-! ### The obligations -/

/-- Settles O4: the words are evaluated. -/
theorem specEncodingsDecodeToTheirInstructions : Obligations.SpecEncodingsDecodeToTheirInstructions := by
  unfold Obligations.SpecEncodingsDecodeToTheirInstructions
  decide

/-- Settles O21: the read template, then the register set with N and Z; LAX sets X before it. -/
theorem loadsSetTheRegisterAndNZ : Obligations.LoadsSetTheRegisterAndNZ := by
  intro s
  refine ⟨fun o => ?lda, fun o => ?ldx, fun o => ?ldy, fun m => ?lax⟩
  case lda => exact exists_next_of_readOperand o rfl (cpuOnly_setA _ _) (setA_cpu_of_cpu_eq · _)
  case ldx => exact exists_next_of_readOperand o rfl (cpuOnly_setX _ _) (setX_cpu_of_cpu_eq · _)
  case ldy => exact exists_next_of_readOperand o rfl (cpuOnly_setY _ _) (setY_cpu_of_cpu_eq · _)
  case lax =>
    exact exists_next_of_readOperand (.mem m) rfl ((cpuOnly_withX _ _).trans (cpuOnly_setA _ _))
      fun h => setA_cpu_of_cpu_eq (withX_cpu_of_cpu_eq h _) _

/-- Settles O22: every store is the write template, whose last cycle is the bus write. -/
theorem storesWriteTheRegisterOnly : Obligations.StoresWriteTheRegisterOnly := by
  intro s m
  refine ⟨exists_next_of_store ?sta, exists_next_of_store ?stx, exists_next_of_store ?sty, exists_next_of_store ?sax,
    fun i v h => exec_store h⟩
  all_goals exact exec_store (by simp)

/-- Settles O23: the implied template, then the register set, with N and Z for all but TXS. -/
theorem transfersCopyARegister : Obligations.TransfersCopyARegister := by
  intro s
  refine ⟨?tax, ?tay, ?txa, ?tya, ?tsx, ?txs⟩
  case tax | tsx => exact exists_next_of_implied rfl (cpuOnly_setX _ _) (setX_cpu_of_cpu_eq · _)
  case tay => exact exists_next_of_implied rfl (cpuOnly_setY _ _) (setY_cpu_of_cpu_eq · _)
  case txa | tya => exact exists_next_of_implied rfl (cpuOnly_setA _ _) (setA_cpu_of_cpu_eq · _)
  case txs => exact exists_next_of_implied rfl (cpuOnly_withSp _ _) (withSp_cpu_of_cpu_eq · _)

end Sys2Proof.Machine
end

section
/-!
PROOFS. Arithmetic, logic, compares and BIT (42_arith_logic.md R280-R291) and opcode $EB (46_undocumented.md R412). Each is the
read-class template and then a change of A or P: what `addCore` and `compareCore` compute is said of bytes and flags alone, and
the obligations put it on the machine.
-/

namespace Sys2Proof.Machine

/-! ### `AddCore` as a sum, and as a difference of a complemented operand (R280, R283) -/

section AddCore

variable (a m : Byte) (p : Flags)

theorem toNat_addCore : (addCore a m p).1.toNat = (a.toNat + m.toNat + p.c.toNat) % 256 := BitVec.toNat_ofNat ..

/-- Bit 7 of `(a ^ r) & (m ^ r)`: the operands have one sign and the result the other. -/
theorem negative_and_xor_xor (r : Byte) : negative ((a ^^^ r) &&& (m ^^^ r)) =
    (a.getLsbD 7 == m.getLsbD 7 && r.getLsbD 7 != a.getLsbD 7) := by
  simp only [negative, BitVec.getLsbD_and, BitVec.getLsbD_xor]
  cases a.getLsbD 7 <;> cases m.getLsbD 7 <;> cases r.getLsbD 7 <;> rfl

theorem addCore_snd :
    (addCore a m p).2 = { p with
      n := (addCore a m p).1.getLsbD 7
      v := a.getLsbD 7 == m.getLsbD 7 && (addCore a m p).1.getLsbD 7 != a.getLsbD 7
      z := (addCore a m p).1 == 0
      c := decide (255 < a.toNat + m.toNat + p.c.toNat) } := by
  rw [← negative_and_xor_xor]
  rfl

theorem xor_0xFF_eq_not : m ^^^ 0xFF = ~~~m := BitVec.xor_allOnes

theorem addCore_xor_0xFF_fst : (addCore a (m ^^^ 0xFF) p).1 = a - m - (if p.c then 0 else 1) := by
  apply BitVec.eq_of_toNat_eq
  rw [toNat_addCore, xor_0xFF_eq_not, BitVec.toNat_not]
  cases p.c <;> simp <;> omega

/-- No borrow: the complemented sum exceeds 255. -/
theorem lt_add_xor_0xFF_iff :
    255 < a.toNat + (m ^^^ 0xFF).toNat + p.c.toNat ↔ m.toNat + (!p.c).toNat ≤ a.toNat := by
  rw [xor_0xFF_eq_not, BitVec.toNat_not]
  cases p.c <;> simp <;> omega

theorem addCore_xor_0xFF_snd :
    (addCore a (m ^^^ 0xFF) p).2 = { p with
      n := (addCore a (m ^^^ 0xFF) p).1.getLsbD 7
      v := a.getLsbD 7 != m.getLsbD 7 && (addCore a (m ^^^ 0xFF) p).1.getLsbD 7 != a.getLsbD 7
      z := (addCore a (m ^^^ 0xFF) p).1 == 0
      c := decide (m.toNat + (!p.c).toNat ≤ a.toNat) } := by
  have hsign : (a.getLsbD 7 == (m ^^^ 0xFF).getLsbD 7) = (a.getLsbD 7 != m.getLsbD 7) := by
    rw [xor_0xFF_eq_not, BitVec.getLsbD_not]
    cases a.getLsbD 7 <;> cases m.getLsbD 7 <;> rfl
  rw [addCore_snd, hsign, decide_eq_decide.mpr (lt_add_xor_0xFF_iff a m p)]

end AddCore

/-- R281: the difference is zero when the register is the operand. -/
theorem compareCore_eq (r m : Byte) (p : Flags) :
    compareCore r m p = { p with n := (r - m).getLsbD 7, z := r == m, c := decide (m.toNat ≤ r.toNat) } := by
  have hz : (r - m == 0) = (r == m) := by
    rw [Bool.eq_iff_iff, beq_iff_eq, beq_iff_eq]
    constructor <;> intro h <;> bv_omega
  rw [← hz]
  rfl

/-! ### The instructions on the registers before their read cycles -/

section Instructions

variable (s : State) (o : ReadOperand)

theorem exec_adc : exec (.adc o) s = .next ((s.readOperand o).2.addA (s.operand o)) := rfl

theorem exec_sbc : exec (.sbc o) s = .next ((s.readOperand o).2.addA (s.operand o ^^^ 0xFF)) := rfl

theorem exec_sbcEB (i : Byte) : exec (.sbcEB i) s = exec (.sbc (.imm i)) s := rfl

theorem exec_and : exec (.and o) s = .next ((s.readOperand o).2.setA (s.a &&& s.operand o)) := by
  rw [← readOperand_a s o]
  rfl

theorem exec_ora : exec (.ora o) s = .next ((s.readOperand o).2.setA (s.a ||| s.operand o)) := by
  rw [← readOperand_a s o]
  rfl

theorem exec_eor : exec (.eor o) s = .next ((s.readOperand o).2.setA (s.a ^^^ s.operand o)) := by
  rw [← readOperand_a s o]
  rfl

theorem exec_cmp : exec (.cmp o) s = .next ((s.readOperand o).2.compare s.a (s.operand o)) := by
  rw [← readOperand_a s o]
  rfl

theorem exec_cpx : exec (.cpx o) s = .next ((s.readOperand o).2.compare s.x (s.operand o)) := by
  rw [← readOperand_x s o]
  rfl

theorem exec_cpy : exec (.cpy o) s = .next ((s.readOperand o).2.compare s.y (s.operand o)) := by
  rw [← readOperand_y s o]
  rfl

theorem exec_bit : exec (.bit o) s = .next ((s.readOperand o).2.withP (bitCore s.a (s.operand o) s.p)) := by
  rw [← readOperand_a s o, ← readOperand_p s o]
  rfl

variable {s} {i : Instr}

/-- The read-class template, then `AddCore` (R280). -/
theorem exists_next_of_addA {m : Byte} (hexec : exec i s = .next ((s.readOperand o).2.addA m)) :
    ∃ t, exec i s = .next t ∧ StoresOnly [] s t ∧ Takes (s.operandCycles o) s t
      ∧ t.cpu = { s.cpu with a := (addCore s.a m s.p).1, p := (addCore s.a m s.p).2 } := by
  refine exists_next_of_readOperand o hexec (cpuOnly_addA _ m) fun h => ?_
  rw [State.addA_cpu, h, readOperand_a, readOperand_p]

/-- The read-class template, then A and its N and Z. -/
theorem exists_next_of_setA {v : Byte} (hexec : exec i s = .next ((s.readOperand o).2.setA v)) :
    ∃ t, exec i s = .next t ∧ StoresOnly [] s t ∧ Takes (s.operandCycles o) s t
      ∧ t.cpu = { s.cpu with a := v, p := { s.p with n := t.a.getLsbD 7, z := t.a == 0 } } := by
  obtain ⟨t, hnext, hstores, htakes, hcpu⟩ :=
    exists_next_of_readOperand o hexec (cpuOnly_setA _ v) (setA_cpu_of_cpu_eq · v)
  have ha : t.a = v := congrArg CpuView.a hcpu
  exact ⟨t, hnext, hstores, htakes, by rw [ha, hcpu]⟩

/-- The read-class template, then `CompareCore` (R281). -/
theorem exists_next_of_compare {r m : Byte} (hexec : exec i s = .next ((s.readOperand o).2.compare r m)) :
    ∃ t, exec i s = .next t ∧ StoresOnly [] s t ∧ Takes (s.operandCycles o) s t
      ∧ t.cpu = { s.cpu with
          p := { s.p with n := (r - m).getLsbD 7, z := r == m, c := decide (m.toNat ≤ r.toNat) } } := by
  refine exists_next_of_readOperand o hexec (cpuOnly_compare _ r m) fun h => ?_
  rw [State.compare_cpu, h, readOperand_p, compareCore_eq]

end Instructions

/-! ### The obligations -/

/-- Settles O24: the read template, then `addCore`, which never looks at D. -/
theorem adcAddsWithCarry : Obligations.AdcAddsWithCarry := by
  intro s o
  obtain ⟨t, hnext, hstores, htakes, hcpu⟩ := exists_next_of_addA o (exec_adc s o)
  have ha : t.a = (addCore s.a (s.operand o) s.p).1 := congrArg CpuView.a hcpu
  refine ⟨t, hnext, hstores, htakes, ?sum, ?cpu⟩
  case sum => rw [ha, toNat_addCore]
  case cpu => rw [hcpu, ha, ← addCore_snd]

/-- Settles O25: `addCore` of the complemented operand is the difference; $EB is the immediate SBC. -/
theorem sbcSubtractsWithBorrow : Obligations.SbcSubtractsWithBorrow := by
  intro s o
  obtain ⟨t, hnext, hstores, htakes, hcpu⟩ := exists_next_of_addA o (exec_sbc s o)
  have ha : t.a = (addCore s.a (s.operand o ^^^ 0xFF) s.p).1 := congrArg CpuView.a hcpu
  refine ⟨t, hnext, hstores, htakes, ?cpu, ?eb⟩
  case cpu => rw [hcpu, ha, ← addCore_xor_0xFF_fst, ← addCore_xor_0xFF_snd]
  case eb =>
    rintro i rfl
    exact (exec_sbcEB s i).trans hnext

/-- Settles O26: the read template, then A set with N and Z. -/
theorem logicOpsCombineIntoA : Obligations.LogicOpsCombineIntoA := fun s o =>
  ⟨exists_next_of_setA o (exec_and s o), exists_next_of_setA o (exec_ora s o), exists_next_of_setA o (exec_eor s o)⟩

/-- Settles O27: the read template, then `compareCore` of A, X or Y. -/
theorem comparesSetNZC : Obligations.ComparesSetNZC := fun s o =>
  ⟨exists_next_of_compare o (exec_cmp s o), exists_next_of_compare o (exec_cpx s o),
    exists_next_of_compare o (exec_cpy s o)⟩

/-- Settles O28: the read template, then the flags that `bitCore` computes. -/
theorem bitTestsTheOperand : Obligations.BitTestsTheOperand := by
  intro s o
  refine exists_next_of_readOperand o (exec_bit s o) (cpuOnly_withP _ _) fun h => ?_
  rw [State.withP_cpu, h]
  rfl

end Sys2Proof.Machine
end

section
/-!
PROOFS. Shifts, rotates, increments and decrements (43_shift_incdec.md R310-R319). A read-modify-write instruction is its
template around a modifier of the byte (`exists_next_of_modify`); one on a register is the implied template around the same
modifier of A, or a step of X or Y.
-/

namespace Sys2Proof.Machine

/-! ### What the operations answer, flags included (R310-R319) -/

section Cores

variable (v : Byte) (p : Flags)

/-- Bit 7 of a byte shifted right is clear. -/
theorem withNz_lsrCore :
    withNz (lsrCore v p) = (v >>> 1, { p with n := false, z := v >>> 1 == 0, c := v.getLsbD 0 }) := by
  have hn : negative (v >>> 1) = false := by simp [negative]
  rw [withNz, lsrCore, Flags.nz, hn]

theorem rolCore_eq : rolCore v p = (v <<< 1 ||| (if p.c then 1 else 0), { p with c := v.getLsbD 7 }) := by
  unfold rolCore
  cases p.c <;> rfl

theorem rorCore_eq : rorCore v p = (v >>> 1 ||| (if p.c then 0x80 else 0), { p with c := v.getLsbD 0 }) := by
  unfold rorCore
  cases p.c <;> rfl

theorem withNz_rolCore :
    withNz (rolCore v p) = (v <<< 1 ||| (if p.c then 1 else 0),
      { p with
        n := (v <<< 1 ||| if p.c then 1 else 0).getLsbD 7
        z := (v <<< 1 ||| if p.c then 1 else 0) == 0
        c := v.getLsbD 7 }) := by
  rw [withNz, rolCore_eq]
  rfl

/-- Bit 7 of a byte rotated right is the carry rotated in. -/
theorem negative_ror (c : Bool) : negative (v >>> 1 ||| if c then 0x80 else 0) = c := by
  cases c <;> simp [negative]

theorem withNz_rorCore :
    withNz (rorCore v p) = (v >>> 1 ||| (if p.c then 0x80 else 0),
      { p with n := p.c, z := (v >>> 1 ||| if p.c then 0x80 else 0) == 0, c := v.getLsbD 0 }) := by
  rw [withNz, rorCore_eq, Flags.nz, negative_ror]

theorem add_one_beq_zero : (v + 1 == 0) = (v == 0xFF) := by
  rw [Bool.eq_iff_iff, beq_iff_eq, beq_iff_eq]
  bv_omega

theorem sub_one_beq_zero : (v - 1 == 0) = (v == 1) := by
  rw [Bool.eq_iff_iff, beq_iff_eq, beq_iff_eq]
  bv_omega

end Cores

/-! ### The read-modify-write template (R320, 40 R220) -/

/-- The modifier writes no part of the machine but A and P. -/
def Modifier.ChangesOnlyAP (f : Modifier) : Prop := ∀ v u, (f v u).2 = { u with a := (f v u).2.a, p := (f v u).2.p }

theorem changesOnlyAP_onFlags (g : Byte → Flags → Byte × Flags) : Modifier.ChangesOnlyAP (onFlags g) := fun _ _ => rfl

section Modify

variable {i : Instr} {s : State} {m : MemMode} {f : Modifier} {r : Byte} (hf : f.ChangesOnlyAP)

include hf

theorem Modifier.ChangesOnlyAP.cpuOnly (v : Byte) (u : State) : CpuOnly u (f v u).2 := by
  rw [hf v u]
  exact ⟨rfl, rfl, rfl, rfl, rfl, rfl, rfl, rfl, rfl⟩

/-- The template's two writes, where the modifier answers `r` on the registers before the instruction. -/
theorem writesTwice_modify (hr : ∀ u, u.cpu = s.cpu → (f (s.rmwByte m) u).1 = r) : WritesTwice s m r (s.modify m f) := by
  have hu : (((s.locate m).2.memRead (s.locate m).1).2.memWrite (s.locate m).1 (s.rmwByte m)).cpu = s.cpu := by
    rw [memWrite_cpu, memRead_cpu, (quiet_locate s m).cpu]
  have ht : s.modify m f = (f (s.rmwByte m)
      (((s.locate m).2.memRead (s.locate m).1).2.memWrite (s.locate m).1 (s.rmwByte m))).2.memWrite (s.locate m).1 r := by
    rw [← hr _ hu]
    rfl
  have ha : (s.modify m f).a = _ := ht ▸ congrArg CpuView.a (memWrite_cpu _ _ _)
  have hp : (s.modify m f).p = _ := ht ▸ congrArg CpuView.p (memWrite_cpu _ _ _)
  unfold WritesTwice
  dsimp only
  rw [ha, hp, ht]
  exact congrArg (State.memWrite · _ r) (hf _ _)

/-- An instruction that is the read-modify-write template: its result and registers are worked out from the byte read and the
registers before it, since the template's own cycles change none. -/
theorem exists_next_of_modify {c : Byte → CpuView} (hexec : exec i s = .next (s.modify m f))
    (hr : ∀ u, u.cpu = s.cpu → (f (s.rmwByte m) u).1 = r)
    (hc : ∀ u, u.cpu = s.cpu → (f (s.rmwByte m) u).2.cpu = c r) :
    ∃ t r', exec i s = .next t ∧ r' = r ∧ StoresOnly [(s.locate m).1] s t ∧ WritesTwice s m r' t
      ∧ Takes (writeCycles m + 2) s t ∧ (s.writable (s.locate m).1 = true → t.memByte (s.locate m).1 = some r')
      ∧ t.cpu = c r' := by
  obtain ⟨u, hu, hcpu, hstores, hmem⟩ := modify_spec s m f hf.cpuOnly
  rw [← locate_fst] at hstores hmem
  rw [hr u hu] at hmem
  exact ⟨_, r, hexec, rfl, hstores, writesTwice_modify hf hr, takes_modify s m hf.cpuOnly, hmem, hcpu.trans (hc u hu)⟩

end Modify

/-- A memory form (40 R204-R208): only P changes. -/
theorem exists_next_of_onFlags {i : Instr} {s : State} {m : MemMode} {g : Byte → Flags → Byte × Flags} {r : Byte}
    {p : Byte → Flags} (hexec : exec i s = .next (s.modify m (onFlags g))) (hg : g (s.rmwByte m) s.p = (r, p r)) :
    ∃ t r', exec i s = .next t ∧ r' = r ∧ StoresOnly [(s.locate m).1] s t ∧ WritesTwice s m r' t
      ∧ Takes (writeCycles m + 2) s t ∧ (s.writable (s.locate m).1 = true → t.memByte (s.locate m).1 = some r')
      ∧ t.cpu = { s.cpu with p := p r' } := by
  have hgu : ∀ u : State, u.cpu = s.cpu → g (s.rmwByte m) u.p = (r, p r) := fun u hu => by
    rw [show u.p = s.p from congrArg CpuView.p hu, hg]
  refine exists_next_of_modify (changesOnlyAP_onFlags g) (c := fun b => { s.cpu with p := p b }) hexec
    (fun u hu => congrArg Prod.fst (hgu u hu)) fun u hu => ?_
  rw [onFlags, State.withP_cpu, hu, hgu u hu]

/-! ### The implied and accumulator templates (40 R201, R202) -/

/-- `exists_next_of_implied` for registers that are stated by those of the state reached. -/
theorem exists_next_of_implied_self {i : Instr} {s t : State} {c : State → CpuView} (hexec : exec i s = .next t)
    (hregs : CpuOnly s.implied t) (hcpu : s.implied.cpu = s.cpu → t.cpu = c t) :
    ∃ t, exec i s = .next t ∧ StoresOnly [] s t ∧ Takes 1 s t ∧ t.cpu = c t :=
  ⟨t, hexec, (quiet_implied s).storesOnly.cpuOnly hregs, ((costs_implied s).trans hregs.costs).takes,
    hcpu (quiet_implied s).cpu⟩

/-- An accumulator form: A and P change. -/
theorem exists_next_of_modifyAcc {i : Instr} {s : State} {g : Byte → Flags → Byte × Flags} {r : Byte} {p : State → Flags}
    (hexec : exec i s = .next (s.modifyAcc (onFlags g))) (hg : ∀ t : State, t.a = r → g s.a s.p = (r, p t)) :
    ∃ t, exec i s = .next t ∧ StoresOnly [] s t ∧ Takes 1 s t ∧ t.cpu = { s.cpu with a := r, p := p t } := by
  refine exists_next_of_implied_self hexec ((cpuOnly_onFlags g _ _).trans (cpuOnly_withA _ _)) fun himplied => ?_
  have hcpu : (s.modifyAcc (onFlags g)).cpu = { s.cpu with a := (g s.a s.p).1, p := (g s.a s.p).2 } := by
    rw [← State.cpu_a s, ← State.cpu_p s, ← himplied]
    rfl
  have ha : (s.modifyAcc (onFlags g)).a = r :=
    (congrArg CpuView.a hcpu).trans (congrArg Prod.fst (hg (s.withA r) rfl))
  rw [hcpu, hg _ ha]

/-! ### Steps of X and Y (R316-R319) -/

section IndexSteps

variable {i : Instr} {s : State} {v : Byte} {z : Bool} (hz : (v == 0) = z)

include hz

theorem exists_next_of_implied_setX (hexec : exec i s = .next (s.implied.setX v)) :
    ∃ t, exec i s = .next t ∧ StoresOnly [] s t ∧ Takes 1 s t
      ∧ t.cpu = { s.cpu with x := v, p := { s.p with n := t.x.getLsbD 7, z := z } } :=
  exists_next_of_implied_self hexec (cpuOnly_setX _ v) fun h => hz ▸ setX_cpu_of_cpu_eq h v

theorem exists_next_of_implied_setY (hexec : exec i s = .next (s.implied.setY v)) :
    ∃ t, exec i s = .next t ∧ StoresOnly [] s t ∧ Takes 1 s t
      ∧ t.cpu = { s.cpu with y := v, p := { s.p with n := t.y.getLsbD 7, z := z } } :=
  exists_next_of_implied_self hexec (cpuOnly_setY _ v) fun h => hz ▸ setY_cpu_of_cpu_eq h v

end IndexSteps

/-! ### The obligations -/

/-- Settles O29: each is the read-modify-write template around its own modifier of the byte and P. -/
theorem memoryShiftsAndIncrements : Obligations.MemoryShiftsAndIncrements := by
  intro s m
  refine ⟨?asl, ?lsr, ?rol, ?ror, ?inc, ?dec⟩
  case asl | inc | dec => exact exists_next_of_onFlags rfl rfl
  case lsr => exact exists_next_of_onFlags rfl (withNz_lsrCore _ _)
  case rol => exact exists_next_of_onFlags rfl (withNz_rolCore _ _)
  case ror => exact exists_next_of_onFlags rfl (withNz_rorCore _ _)

/-- Settles O30: the implied template around the modifiers of the memory forms, applied to A. -/
theorem accumulatorShifts : Obligations.AccumulatorShifts := by
  intro s
  refine ⟨?asl, ?lsr, ?rol, ?ror⟩
  case asl => exact exists_next_of_modifyAcc rfl fun t ha => by rw [ha]; rfl
  case lsr => exact exists_next_of_modifyAcc rfl fun t ha => by rw [ha, withNz_lsrCore]
  case rol => exact exists_next_of_modifyAcc rfl fun t ha => by rw [ha, withNz_rolCore]
  case ror => exact exists_next_of_modifyAcc rfl fun t ha => by rw [ha, withNz_rorCore]

/-- Settles O31: the implied template, then the step; it reaches 0 from $FF upwards and from 1 downwards. -/
theorem registerIncrementsAndDecrements : Obligations.RegisterIncrementsAndDecrements := by
  intro s
  refine ⟨?inx, ?iny, ?dex, ?dey⟩
  case inx => exact exists_next_of_implied_setX (add_one_beq_zero s.x) rfl
  case iny => exact exists_next_of_implied_setY (add_one_beq_zero s.y) rfl
  case dex => exact exists_next_of_implied_setX (sub_one_beq_zero s.x) rfl
  case dey => exact exists_next_of_implied_setY (sub_one_beq_zero s.y) rfl

end Sys2Proof.Machine
end

section
/-!
PROOFS. Control flow (44_control_flow.md R349-R354): the jumps, JSR and RTS, BRK, and RTI with the interrupt entry it undoes
(60_exceptions.md R458). The stack's share of each is in `pullPc_spec`, `pullFlags_spec` and `saveAndEnter_spec`.
-/

namespace Sys2Proof.Machine

/-! ### JMP indirect (R350) -/

/-- Two reads that find the pointer, the second in the page of the first. -/
theorem jumpThrough_spec (s : State) (a : Addr) :
    ∃ l h, (s.jumpThrough a).cpu = { s.cpu with pc := joinBytes h l } ∧ StoresOnly [] s (s.jumpThrough a)
      ∧ (∀ b, s.memByte a = some b → l = b)
      ∧ (∀ b, s.memByte (joinBytes (highByte a) (lowByte a + 1)) = some b → h = b) := by
  refine ⟨(s.memRead a).1, ((s.memRead a).2.memRead (joinBytes (highByte a) (lowByte a + 1))).1, ?_, ?_,
    fun b => memRead_of_memByte, fun b hb => memRead_of_memByte ?_⟩
  · simp [State.jumpThrough]
  · exact ((quiet_memRead s a).trans (quiet_memRead _ _)).storesOnly.cpuOnly (cpuOnly_withPc _ _)
  · rw [memRead_memByte, hb]

theorem costs_jumpThrough (s : State) (a : Addr) : Costs 2 s (s.jumpThrough a) :=
  ((costs_memRead s a).trans (costs_memRead _ _)).trans (cpuOnly_withPc _ _).costs

/-! ### JSR and RTS (R351, R352) -/

/-- The pushes of JSR: PC, which stands at its last byte, high byte first. -/
theorem jsrPush_spec (s : State) :
    s.jsrPush.cpu = { s.cpu with sp := s.sp - 2 }
      ∧ s.jsrPush.memByte (stackAddr s.sp) = some (highByte s.pc)
      ∧ s.jsrPush.memByte (stackAddr (s.sp - 1)) = some (lowByte s.pc)
      ∧ StoresOnly [stackAddr s.sp, stackAddr (s.sp - 1)] s s.jsrPush := by
  have hsp : s.sp - 1#8 - 1#8 = s.sp - 2#8 := by bv_omega
  have hne : s.sp - 1#8 ≠ s.sp := (sp_sub_ne s.sp).1
  refine ⟨by simp [State.jsrPush, hsp], by simp [State.jsrPush, memByte_push, hne],
    by simp [State.jsrPush, memByte_push], ?_⟩
  have hpushes := (storesOnly_push (s.dummyRead (stackAddr s.sp)) (highByte s.pc)).trans (storesOnly_push _ (lowByte s.pc))
  simpa [State.jsrPush] using (storesOnly_dummyRead s (stackAddr s.sp)).trans hpushes

theorem costs_jsrPush (s : State) : Costs 3 s s.jsrPush :=
  ((costs_dummyRead s _).trans (costs_push _ _)).trans (costs_push _ _)

/-- RTS reads once more, where it has pulled PC to, and steps past it. -/
theorem returnFromSubroutine_spec (s : State) :
    s.returnFromSubroutine.cpu = { s.cpu with
        sp := s.sp + 2
        pc := joinBytes (s.ramByte (stackAddr (s.sp + 2))) (s.ramByte (stackAddr (s.sp + 1))) + 1 }
      ∧ StoresOnly [] s s.returnFromSubroutine := by
  obtain ⟨hcpu, hstores⟩ := pullPc_spec ((s.dummyRead s.pc).dummyRead (stackAddr s.sp))
  have hpc := congrArg CpuView.pc hcpu
  simp only [State.cpu_pc] at hpc
  constructor
  · simp [State.returnFromSubroutine, hcpu, hpc]
  · exact ((((quiet_dummyRead s _).trans (quiet_dummyRead _ _)).storesOnly.trans hstores).quiet
      (quiet_dummyRead _ _)).cpuOnly (cpuOnly_withPc _ _)

theorem costs_returnFromSubroutine (s : State) : Costs 5 s s.returnFromSubroutine :=
  ((((costs_dummyRead s _).trans (costs_dummyRead _ _)).trans (costs_pullPc _)).trans (costs_dummyRead _ _)).trans
    (cpuOnly_withPc _ _).costs

/-! ### RTI (R353) -/

@[simp] theorem pullFlags_ramByte (s : State) (a : Addr) : s.pullFlags.ramByte a = s.ramByte a := pull_ramByte s a

/-- Three pulls, of P, PC low and PC high. -/
theorem interruptReturn_spec (s : State) :
    s.interruptReturn.cpu = { s.cpu with
        sp := s.sp + 3
        pc := joinBytes (s.ramByte (stackAddr (s.sp + 3))) (s.ramByte (stackAddr (s.sp + 2)))
        p := .ofByte (s.ramByte (stackAddr (s.sp + 1))) }
      ∧ StoresOnly [] s s.interruptReturn := by
  obtain ⟨hflags, hflagsStores⟩ := pullFlags_spec ((s.dummyRead s.pc).dummyRead (stackAddr s.sp))
  obtain ⟨hpc, hpcStores⟩ := pullPc_spec ((s.dummyRead s.pc).dummyRead (stackAddr s.sp)).pullFlags
  have hsp := congrArg CpuView.sp hflags
  have h2 : s.sp + 1#8 + 1#8 = s.sp + 2#8 := by bv_omega
  have h3 : s.sp + 1#8 + 2#8 = s.sp + 3#8 := by bv_omega
  simp only [State.cpu_sp] at hsp
  constructor
  · simp [State.interruptReturn, hpc, hflags, hsp, h2, h3]
  · exact ((quiet_dummyRead s _).trans (quiet_dummyRead _ _)).storesOnly.trans (hflagsStores.trans hpcStores)

theorem costs_interruptReturn (s : State) : Costs 5 s s.interruptReturn :=
  (((costs_dummyRead s _).trans (costs_dummyRead _ _)).trans (costs_pullFlags _)).trans (costs_pullPc _)

/-! ### The interrupt entry (60 R458) -/

/-- `P_byte` keeps the six flags (10 R57). -/
theorem Flags.ofByte_byte (p : Flags) : Flags.ofByte p.byte = p := by
  obtain ⟨n, v, d, i, z, c⟩ := p
  revert n v d i z c
  decide

/-- Bit 5, which the entry sets in the byte it pushes, is discarded by the pull (10 R57). -/
theorem Flags.ofByte_or_0x20 (b : Byte) : Flags.ofByte (b ||| 0x20) = Flags.ofByte b := by simp [Flags.ofByte]

/-- What RTI needs of an entry: which registers it wrote, and the three bytes it left on the stack. -/
theorem interruptSequence_spec (s : State) (vec : Addr) :
    ∃ pc, (s.interruptSequence vec).cpu = { s.cpu with sp := s.sp - 3, p := { s.p with i := true }, pc := pc }
      ∧ (s.interruptSequence vec).ramByte (stackAddr s.sp) = highByte s.pc
      ∧ (s.interruptSequence vec).ramByte (stackAddr (s.sp - 1)) = lowByte s.pc
      ∧ (s.interruptSequence vec).ramByte (stackAddr (s.sp - 2)) = s.p.byte ||| 0x20 := by
  obtain ⟨l, h, hcpu, -, hpch, hpcl, hp, -⟩ :=
    saveAndEnter_spec ((s.dummyRead s.pc).dummyRead s.pc) (s.p.byte ||| 0x20) vec
  simp only [dummyRead_cpu, dummyRead_sp, dummyRead_pc, dummyRead_p, memByte_stackAddr, Option.some.injEq]
    at hcpu hpch hpcl hp
  exact ⟨_, hcpu, hpch, hpcl, hp⟩

/-! ### The obligations -/

/-- Settles O16: the pulls of RTI find the bytes that the entry pushed, and its S is the one from before the entry. -/
theorem rtiUndoesAnInterruptEntry : Obligations.RtiUndoesAnInterruptEntry := by
  intro s vec
  obtain ⟨pc, hcpu, hpch, hpcl, hp⟩ := interruptSequence_spec s vec
  have hsp : (s.interruptSequence vec).sp = s.sp - 3 := congrArg CpuView.sp hcpu
  have h1 : s.sp - 3 + 1 = s.sp - 2 := by bv_omega
  have h2 : s.sp - 3 + 2 = s.sp - 1 := by bv_omega
  have h3 : s.sp - 3 + 3 = s.sp := by bv_omega
  refine ⟨_, rfl, ?_⟩
  rw [(interruptReturn_spec _).1, hcpu, hsp, h1, h2, h3, hpch, hpcl, hp, joinBytes_highByte_lowByte,
    Flags.ofByte_or_0x20, Flags.ofByte_byte]
  rfl

/-- Settles O33: JMP only sets PC; JMP indirect reads its pointer before it does. -/
theorem jumpsSetPc : Obligations.JumpsSetPc := by
  intro s a
  obtain ⟨l, h, hcpu, hstores, hl, hh⟩ := jumpThrough_spec s a
  exact ⟨⟨_, rfl, (cpuOnly_withPc s a).storesOnly, (cpuOnly_withPc s a).costs.takes, rfl⟩,
    _, l, h, rfl, hstores, (costs_jumpThrough s a).takes, hcpu, hl, hh⟩

/-- Settles O34: JSR's last cycle is a read, which keeps what it pushed; RTS pulls it and steps past it. -/
theorem subroutineCallAndReturn : Obligations.SubroutineCallAndReturn := by
  intro s
  refine ⟨fun a => ?jsr, ?rts⟩
  case jsr =>
    obtain ⟨hcpu, hpch, hpcl, hstores⟩ := jsrPush_spec s
    have hread := quiet_dummyRead s.jsrPush s.pc
    refine ⟨_, rfl, ?_, ?_, ?_, (hstores.quiet hread).cpuOnly (cpuOnly_withPc _ a),
      (((costs_jsrPush s).trans (costs_dummyRead _ _)).trans (cpuOnly_withPc _ a).costs).takes⟩
    · rw [State.withPc_cpu, hread.cpu, hcpu]
    · rw [State.withPc_memByte, hread.memByte, hpch]
    · rw [State.withPc_memByte, hread.memByte, hpcl]
  case rts =>
    obtain ⟨hcpu, hstores⟩ := returnFromSubroutine_spec s
    exact ⟨_, rfl, hstores, (costs_returnFromSubroutine s).takes, hcpu⟩

/-- Settles O35: P is pulled before PC, and the pulls store nothing. -/
theorem rtiPullsStatusAndPc : Obligations.RtiPullsStatusAndPc := by
  intro s
  obtain ⟨hcpu, hstores⟩ := interruptReturn_spec s
  exact ⟨_, _, rfl, hstores, (costs_interruptReturn s).takes, rfl, hcpu⟩

/-- Settles O36: BRK reads and passes its padding byte, then saves and enters as an interrupt does. -/
theorem brkPushesAndVectors : Obligations.BrkPushesAndVectors := by
  intro s
  have hskip := (quiet_dummyRead s s.pc).storesOnly.cpuOnly (cpuOnly_withPc _ (s.pc + 1))
  obtain ⟨l, h, hcpu, hvec, hpch, hpcl, hp, hstores⟩ :=
    saveAndEnter_spec ((s.dummyRead s.pc).withPc (s.pc + 1)) (s.p.byte ||| 0x30) irqVector
  obtain ⟨hl, hh⟩ := hvec (by decide)
  simp only [State.withPc_cpu, State.withPc_sp, State.withPc_pc, State.withPc_p, State.withPc_memByte, dummyRead_cpu,
    dummyRead_sp, dummyRead_p, dummyRead_memByte] at hcpu hl hh hpch hpcl hp hstores
  exact ⟨_, l, h, rfl, hcpu, hl, hh, hpch, hpcl, hp, hskip.trans hstores,
    (((costs_dummyRead s s.pc).trans (cpuOnly_withPc _ (s.pc + 1)).costs).trans (costs_saveAndEnter _ _ irqVector)).takes⟩

end Sys2Proof.Machine
end

section
/-!
PROOFS. Stack operations, flag instructions and NOP (45_stack_flags_nop.md R370-R382, 46_undocumented.md R400-R406). A push is
the implied template and a store, a pull two reads and then a read at the new S; a flag instruction is the implied template
with P set after it, and a NOP is the reads of its template and nothing else.
-/

namespace Sys2Proof.Machine

/-! ### The byte of flags that PHP pushes (R371, 10 R57) -/

/-- A pull discards bits 5 and 4, which PHP sets in the byte it pushes. -/
theorem Flags.ofByte_or_0x30 (b : Byte) : Flags.ofByte (b ||| 0x30) = Flags.ofByte b := by simp [Flags.ofByte]

/-- The byte pushed, bit by bit: the six flags are those that a pull of it gives back. -/
theorem Flags.getLsbD_byte_or_0x30 (p : Flags) :
    (p.byte ||| 0x30).getLsbD 7 = p.n ∧ (p.byte ||| 0x30).getLsbD 6 = p.v ∧ (p.byte ||| 0x30).getLsbD 5 = true
      ∧ (p.byte ||| 0x30).getLsbD 4 = true ∧ (p.byte ||| 0x30).getLsbD 3 = p.d ∧ (p.byte ||| 0x30).getLsbD 2 = p.i
      ∧ (p.byte ||| 0x30).getLsbD 1 = p.z ∧ (p.byte ||| 0x30).getLsbD 0 = p.c := by
  have hflags : Flags.ofByte (p.byte ||| 0x30) = p := by rw [Flags.ofByte_or_0x30, Flags.ofByte_byte]
  exact ⟨congrArg Flags.n hflags, congrArg Flags.v hflags, by simp, by simp, congrArg Flags.d hflags,
    congrArg Flags.i hflags, congrArg Flags.z hflags, congrArg Flags.c hflags⟩

/-! ### The implied template (40 R201) changes no register and no RAM -/

@[simp] theorem implied_cpu (s : State) : s.implied.cpu = s.cpu := (quiet_implied s).cpu
@[simp] theorem implied_sp (s : State) : s.implied.sp = s.sp := congrArg CpuView.sp (implied_cpu s)
@[simp] theorem implied_p (s : State) : s.implied.p = s.p := congrArg CpuView.p (implied_cpu s)
@[simp] theorem implied_ramByte (s : State) (a : Addr) : s.implied.ramByte a = s.ramByte a := (quiet_implied s).ramByte a

/-! ### Pushes (R370, R371) -/

/-- An instruction that is the implied template and a push stores its byte at the stack address and steps S down. -/
theorem exists_next_of_push {i : Instr} {s : State} {v : Byte} (hexec : exec i s = .next (s.implied.push v)) :
    ∃ t, exec i s = .next t ∧ t.cpu = { s.cpu with sp := s.sp - 1 } ∧ t.memByte (stackAddr s.sp) = some v
      ∧ StoresOnly [stackAddr s.sp] s t ∧ Takes 2 s t := by
  refine ⟨_, hexec, ?cpu, ?byte, ?stores, ((costs_implied s).trans (costs_push _ v)).takes⟩
  case cpu => rw [push_cpu, implied_cpu, implied_sp]
  case byte => rw [memByte_push, implied_sp, sameByte_self, if_pos rfl]
  case stores => exact (quiet_implied s).storesOnly.trans (implied_sp s ▸ storesOnly_push s.implied v)

/-! ### Pulls (R372, R373) -/

/-- The two cycles before a pull store nothing: the implied template, and a read at the old S. -/
theorem quiet_implied_stackRead (s : State) : Quiet s (s.implied.dummyRead (stackAddr s.sp)) :=
  (quiet_implied s).trans (quiet_dummyRead _ _)

theorem costs_implied_stackRead (s : State) : Costs 2 s (s.implied.dummyRead (stackAddr s.sp)) :=
  (costs_implied s).trans (costs_dummyRead _ _)

@[simp] theorem pull_p (s : State) : s.pull.2.p = s.p := congrArg CpuView.p (pull_cpu s)

/-- PLA: A and its N and Z are those of the byte above S. -/
theorem exists_next_of_pla (s : State) :
    ∃ t, exec .pla s = .next t ∧ StoresOnly [] s t ∧ Takes 3 s t
      ∧ t.cpu = { s.cpu with
          sp := s.sp + 1
          a := s.ramByte (stackAddr (s.sp + 1))
          p := s.p.nz (s.ramByte (stackAddr (s.sp + 1))) } := by
  refine ⟨_, rfl, ?stores, ?cycles, ?cpu⟩
  case stores => exact ((quiet_implied_stackRead s).storesOnly.trans (storesOnly_pull _)).cpuOnly (cpuOnly_setA _ _)
  case cycles => exact (((costs_implied_stackRead s).trans (costs_pull _)).trans (cpuOnly_setA _ _).costs).takes
  case cpu => simp

/-- PLP: the six flags are those of the byte above S. -/
theorem exists_next_of_plp (s : State) :
    ∃ t, exec .plp s = .next t ∧ StoresOnly [] s t ∧ Takes 3 s t
      ∧ t.cpu = { s.cpu with sp := s.sp + 1, p := .ofByte (s.ramByte (stackAddr (s.sp + 1))) } := by
  obtain ⟨hcpu, hstores⟩ := pullFlags_spec (s.implied.dummyRead (stackAddr s.sp))
  refine ⟨_, rfl, (quiet_implied_stackRead s).storesOnly.trans hstores, ?cycles, ?cpu⟩
  case cycles => exact ((costs_implied_stackRead s).trans (costs_pullFlags _)).takes
  case cpu => simp [hcpu]

/-! ### Flag instructions (R374-R380) -/

/-- Each flag instruction is the implied template, then P with its one flag written. -/
theorem exec_flag {s : State} {i : Instr} {p : Flags}
    (h : (i, p) ∈ [(Instr.clc, { s.p with c := false }), (.sec, { s.p with c := true }), (.cli, { s.p with i := false }),
      (.sei, { s.p with i := true }), (.cld, { s.p with d := false }), (.sed, { s.p with d := true }),
      (.clv, { s.p with v := false })]) :
    exec i s = .next (s.implied.withP p) := by
  simp only [List.mem_cons, Prod.mk.injEq, List.not_mem_nil, or_false] at h
  rcases h with ⟨rfl, rfl⟩ | ⟨rfl, rfl⟩ | ⟨rfl, rfl⟩ | ⟨rfl, rfl⟩ | ⟨rfl, rfl⟩ | ⟨rfl, rfl⟩ | ⟨rfl, rfl⟩ <;> rfl

/-! ### The obligations -/

/-- Settles O37: a push is the implied template and a store at `$0100 + S`; the pulls read `$0100 + S + 1`. -/
theorem stackInstructionsUseTheStackPage : Obligations.StackInstructionsUseTheStackPage := by
  intro s
  refine ⟨exists_next_of_push rfl, ?php, _, rfl, exists_next_of_pla s, exists_next_of_plp s⟩
  case php =>
    obtain ⟨t, hnext, hcpu, hbyte, hstores, htakes⟩ := exists_next_of_push (i := .php) (s := s) rfl
    exact ⟨t, _, hnext, hcpu, hbyte, hstores, htakes, s.p.getLsbD_byte_or_0x30⟩

/-- Settles O38: the implied template leaves the registers as they were, and P is set after it. -/
theorem flagInstructionsWriteOneFlag : Obligations.FlagInstructionsWriteOneFlag := by
  intro s i p h
  refine exists_next_of_implied (exec_flag h) (cpuOnly_withP _ p) fun hcpu => ?_
  rw [State.withP_cpu, hcpu]

/-- Settles O39: a NOP is the reads of its template, and reads change no register and store nothing. -/
theorem nopsChangeNothing : Obligations.NopsChangeNothing := by
  intro s op o
  cases o with
  | implied => exact ⟨_, rfl, (quiet_implied s).storesOnly, implied_cpu s, (costs_implied s).takes⟩
  | read r =>
    exact ⟨_, rfl, (quiet_readOperand s r).storesOnly, (quiet_readOperand s r).cpu, (costs_readOperand s r).takes⟩

end Sys2Proof.Machine
end

section
/-!
PROOFS. The undocumented instructions but for NOPs, LAX, SAX and $EB (46_undocumented.md R413-R442). A combined instruction
is the read-modify-write template around a modifier that reads and writes A and P only (`exists_next_of_modify_self`); one of
the thirteen others is `otherUndoc` of its opcode, which the policy decides.
-/

namespace Sys2Proof.Machine

/-! ### KIL and the jam cycle (R427, 60 R454) -/

theorem step_of_jammed {s : State} (hjam : s.jammed = true) (hreset : s.resetPending = false) :
    step s = .next (s.dummyRead 0xFFFF) := by
  simp [step, State.cpuStep, hjam, hreset]

/-! ### Modifiers of memory, A and P (R413-R418) -/

/-- The modifier reads no part of the machine but A and P. -/
def Modifier.ReadsOnlyAP (f : Modifier) : Prop := ∀ v u (s : State),
  (f v { s with a := u.a, p := u.p }).1 = (f v u).1
    ∧ (f v { s with a := u.a, p := u.p }).2.a = (f v u).2.a
    ∧ (f v { s with a := u.a, p := u.p }).2.p = (f v u).2.p

theorem changesOnlyAP_shiftThen (g : Byte → Flags → Byte × Flags) (combine : Byte → Byte → Byte) :
    Modifier.ChangesOnlyAP (shiftThen g combine) := fun _ _ => rfl
theorem changesOnlyAP_rorThenAdd : Modifier.ChangesOnlyAP rorThenAdd := fun _ _ => rfl
theorem changesOnlyAP_decThenCompare : Modifier.ChangesOnlyAP decThenCompare := fun _ _ => rfl
theorem changesOnlyAP_incThenSub : Modifier.ChangesOnlyAP incThenSub := fun _ _ => rfl

theorem readsOnlyAP_shiftThen (g : Byte → Flags → Byte × Flags) (combine : Byte → Byte → Byte) :
    Modifier.ReadsOnlyAP (shiftThen g combine) := fun _ _ _ => ⟨rfl, rfl, rfl⟩
theorem readsOnlyAP_rorThenAdd : Modifier.ReadsOnlyAP rorThenAdd := fun _ _ _ => ⟨rfl, rfl, rfl⟩
theorem readsOnlyAP_decThenCompare : Modifier.ReadsOnlyAP decThenCompare := fun _ _ _ => ⟨rfl, rfl, rfl⟩
theorem readsOnlyAP_incThenSub : Modifier.ReadsOnlyAP incThenSub := fun _ _ _ => ⟨rfl, rfl, rfl⟩

section ModifyAP

variable {f : Modifier} (hf : f.ChangesOnlyAP) (hread : f.ReadsOnlyAP)

include hf hread

/-- What such a modifier answers is worked out on the registers before the instruction. -/
theorem Modifier.ReadsOnlyAP.eq_of_cpu_eq {s u : State} (h : u.cpu = s.cpu) (v : Byte) :
    (f v u).1 = (f v s).1 ∧ (f v u).2.cpu = (f v s).2.cpu := by
  obtain ⟨hresult, ha, hp⟩ := hread v u s
  rw [show u.a = s.a from congrArg CpuView.a h, show u.p = s.p from congrArg CpuView.p h] at hresult ha hp
  have hcpu : ∀ w : State, (f v w).2.cpu = { w.cpu with a := (f v w).2.a, p := (f v w).2.p } :=
    fun w => congrArg State.cpu (hf v w)
  exact ⟨hresult.symm, by rw [hcpu u, hcpu s, h, ← ha, ← hp]⟩

/-- An instruction that is the read-modify-write template around such a modifier; what is claimed of the state reached may
speak of its own registers. -/
theorem exists_next_of_modify_self {i : Instr} {s : State} {m : MemMode} {r : Byte} {C : State → Byte → Prop}
    (hexec : exec i s = .next (s.modify m f)) (hr : (f (s.rmwByte m) s).1 = r)
    (hC : ∀ t : State, t.cpu = (f (s.rmwByte m) s).2.cpu → C t r) :
    ∃ t r', exec i s = .next t ∧ r' = r ∧ StoresOnly [(s.locate m).1] s t ∧ WritesTwice s m r' t
      ∧ Takes (writeCycles m + 2) s t ∧ (s.writable (s.locate m).1 = true → t.memByte (s.locate m).1 = some r')
      ∧ C t r' := by
  obtain ⟨t, r', hnext, hr', hstores, hwrites, htakes, hmem, hcpu⟩ :=
    exists_next_of_modify hf (r := r) (c := fun _ => (f (s.rmwByte m) s).2.cpu) hexec
      (fun _ hu => (hread.eq_of_cpu_eq hf hu _).1.trans hr) fun _ hu => (hread.eq_of_cpu_eq hf hu _).2
  exact ⟨t, r', hnext, hr', hstores, hwrites, htakes, hmem, hr' ▸ hC t hcpu⟩

end ModifyAP

/-- SLO, RLA and SRE: A combined with the shifted byte, N and Z of A, and the shift's own carry. -/
theorem exists_next_of_shiftThen {i : Instr} {s : State} {m : MemMode} {g : Byte → Flags → Byte × Flags}
    {combine : Byte → Byte → Byte} {r : Byte} {c : Bool} (hexec : exec i s = .next (s.modify m (shiftThen g combine)))
    (hg : g (s.rmwByte m) s.p = (r, { s.p with c := c })) :
    ∃ t r', exec i s = .next t ∧ r' = r ∧ StoresOnly [(s.locate m).1] s t ∧ WritesTwice s m r' t
      ∧ Takes (writeCycles m + 2) s t ∧ (s.writable (s.locate m).1 = true → t.memByte (s.locate m).1 = some r')
      ∧ t.cpu = { s.cpu with
          a := combine s.a r', p := { s.p with n := t.a.getLsbD 7, z := t.a == 0, c := c } } := by
  refine exists_next_of_modify_self (changesOnlyAP_shiftThen g combine) (readsOnlyAP_shiftThen g combine) hexec
    (congrArg Prod.fst hg) fun t ht => ?_
  rw [shiftThen, hg] at ht
  have ha : t.a = combine s.a r := congrArg CpuView.a ht
  rw [ht, ha]
  rfl

/-! ### The thirteen others and the policy (R429, R442) -/

section Policy

variable {s : State} (op : Byte) (t : State)

theorem otherUndoc_of_nmos (h : s.undocPolicy = .nmos) : s.otherUndoc op t = .next t := by
  rw [State.otherUndoc, h]

theorem otherUndoc_of_nop1 (h : s.undocPolicy = .nop1) : s.otherUndoc op t = .next s.implied := by
  rw [State.otherUndoc, h]

theorem otherUndoc_of_refuse (h : s.undocPolicy = .refuse) : s.otherUndoc op t = .refused (.undocRefused op) := by
  rw [State.otherUndoc, h]

end Policy

/-- Each of the thirteen is `otherUndoc` of its opcode byte. -/
theorem exec_otherUndoc {i : Instr} {op : Byte} (s : State)
    (h : (∃ x : Byte, (i, op) ∈ [(Instr.anc 0x0B x, 0x0B), (.anc 0x2B x, 0x2B), (.alr x, 0x4B), (.arr x, 0x6B),
        (.axs x, 0xCB), (.xaa x, 0x8B), (.lxa x, 0xAB), (.sha (.indY x), 0x93)])
      ∨ (∃ a : Addr, (i, op) ∈ [(Instr.las a, (0xBB : Byte)), (.shx a, 0x9E), (.shy a, 0x9C), (.tas a, 0x9B),
        (.sha (.absY a), 0x9F)])) :
    ∃ t, exec i s = s.otherUndoc op t := by
  simp only [List.mem_cons, Prod.mk.injEq, List.not_mem_nil, or_false] at h
  obtain ⟨x, hx⟩ | ⟨a, ha⟩ := h
  · rcases hx with ⟨rfl, rfl⟩ | ⟨rfl, rfl⟩ | ⟨rfl, rfl⟩ | ⟨rfl, rfl⟩ | ⟨rfl, rfl⟩ | ⟨rfl, rfl⟩ | ⟨rfl, rfl⟩ | ⟨rfl, rfl⟩ <;>
      exact ⟨_, rfl⟩
  · rcases ha with ⟨rfl, rfl⟩ | ⟨rfl, rfl⟩ | ⟨rfl, rfl⟩ | ⟨rfl, rfl⟩ | ⟨rfl, rfl⟩ <;> exact ⟨_, rfl⟩

section Nmos

variable {i : Instr} {op : Byte} {s : State} (hpolicy : s.undocPolicy = .nmos)

include hpolicy

/-! ### The reads under `nmos` (R430-R436) -/

/-- Read cycles, then a change of the registers, which may be stated by those of the state reached. -/
theorem exists_next_of_nmos_reads {u t : State} {n : Nat} {c : State → CpuView} (hexec : exec i s = s.otherUndoc op t)
    (hread : Quiet s u) (hcosts : Costs n s u) (hregs : CpuOnly u t) (hcpu : u.cpu = s.cpu → t.cpu = c t) :
    ∃ t, exec i s = .next t ∧ StoresOnly [] s t ∧ Takes n s t ∧ t.cpu = c t :=
  ⟨t, hexec.trans (otherUndoc_of_nmos op t hpolicy), hread.storesOnly.cpuOnly hregs, (hcosts.trans hregs.costs).takes,
    hcpu hread.cpu⟩

/-- An immediate form: its operand came with the fetch, so the registers change and no cycle is left. -/
theorem exists_next_of_nmos_registers {t : State} {c : State → CpuView} (hexec : exec i s = s.otherUndoc op t)
    (hregs : CpuOnly s t) (hcpu : t.cpu = c t) :
    ∃ t, exec i s = .next t ∧ StoresOnly [] s t ∧ Takes 0 s t ∧ t.cpu = c t :=
  exists_next_of_nmos_reads hpolicy hexec (Quiet.refl s) (Costs.refl s) hregs fun _ => hcpu

/-! ### The high-byte stores under `nmos` (R437-R441) -/

/-- Read cycles that find the base, a change of the registers, then the dummy read and the store. -/
theorem exists_next_of_nmos_storeHigh {q u : State} {n : Nat} {base : Addr} {idx reg sp' : Byte}
    (hexec : exec i s = s.otherUndoc op (u.storeHigh base idx reg)) (hread : Quiet s q) (hcosts : Costs n s q)
    (hregs : CpuOnly q u) (hcpu : u.cpu = { s.cpu with sp := sp' }) :
    ∃ t v ea, exec i s = .next t ∧ v = reg &&& (highByte base + 1)
      ∧ ea = (if 256 ≤ (lowByte base).toNat + idx.toNat then joinBytes v (lowByte base + idx)
          else base + idx.setWidth 16)
      ∧ StoresOnly [ea] s t ∧ (s.writable ea = true → t.memByte ea = some v) ∧ t.cpu = { s.cpu with sp := sp' }
      ∧ Takes (n + 2) s t := by
  have hdummy := quiet_dummyRead u (unfixed base idx)
  refine ⟨_, highStoreValue base reg, highStoreAddr base idx reg, hexec.trans (otherUndoc_of_nmos op _ hpolicy), rfl,
    ?address, ?stores, fun hw => ?byte, ?cpu, ?cycles⟩
  case address => simp only [highStoreAddr, crosses, decide_eq_true_eq, indexed]
  case stores => exact ((hread.storesOnly.cpuOnly hregs).quiet hdummy).trans (storesOnly_memWrite _ _ _)
  case byte =>
    have hw' : (u.dummyRead (unfixed base idx)).writable (highStoreAddr base idx reg) = true := by
      rw [hdummy.writable, hregs.writable, hread.writable, hw]
    rw [State.storeHigh, memByte_memWrite, hw', sameByte_self, Bool.and_self, if_pos rfl]
  case cpu => rw [State.storeHigh, memWrite_cpu, dummyRead_cpu, hcpu]
  case cycles =>
    intro hn
    rw [State.storeHigh, cycles_memWrite,
      (((hcosts.trans hregs.costs).trans (costs_dummyRead u (unfixed base idx))) hn).2]
    rfl

end Nmos

/-! ### The obligations -/

/-- Settles O40: KIL is the implied template, then the latch; a jam cycle is one read. -/
theorem kilJamsTheCpuUntilReset : Obligations.KilJamsTheCpuUntilReset := by
  intro s
  refine ⟨fun op => ?kil, fun hjam hreset => ?jammed⟩
  case kil =>
    exact ⟨s.implied.jam, rfl, (quiet_implied s).storesOnly.cpuOnly (cpuOnly_jam _), by rw [State.jam_cpu, implied_cpu],
      ((costs_implied s).trans (cpuOnly_jam _).costs).takes⟩
  case jammed =>
    exact ⟨s.dummyRead 0xFFFF, step_of_jammed hjam hreset, dummyRead_cpu s _, storesOnly_dummyRead s _,
      cycles_memRead_lt s _, (costs_dummyRead s _).takes⟩

/-- Settles O41: the template around each shift and its combination with A. -/
theorem shiftAndCombine : Obligations.ShiftAndCombine := by
  intro s m
  refine ⟨?slo, ?rla, ?sre⟩
  case slo | sre => exact exists_next_of_shiftThen rfl rfl
  case rla => exact exists_next_of_shiftThen rfl (rolCore_eq _ _)

/-- Settles O42: the template, then `addCore` with the carry rotated out, `compareCore`, or `addCore` of the complemented
result. -/
theorem modifyAndCompute : Obligations.ModifyAndCompute := by
  intro s m
  refine ⟨?rra, ?dcp, ?isb⟩
  case rra =>
    refine exists_next_of_modify_self changesOnlyAP_rorThenAdd readsOnlyAP_rorThenAdd rfl
      (congrArg Prod.fst (rorCore_eq _ _)) fun t ht => ?_
    rw [rorThenAdd, rorCore_eq, State.addA_cpu] at ht
    have ha : t.a = _ := congrArg CpuView.a ht
    refine ⟨?sum, ?cpu⟩
    case sum => rw [ha]; exact toNat_addCore ..
    case cpu => rw [ht, ha, addCore_snd]; rfl
  case dcp =>
    refine exists_next_of_modify_self changesOnlyAP_decThenCompare readsOnlyAP_decThenCompare rfl rfl fun t ht => ?_
    rw [ht, decThenCompare, State.compare_cpu, compareCore_eq]
  case isb =>
    refine exists_next_of_modify_self changesOnlyAP_incThenSub readsOnlyAP_incThenSub rfl rfl fun t ht => ?_
    rw [incThenSub, State.addA_cpu] at ht
    have ha : t.a = _ := congrArg CpuView.a ht
    rw [ht, ha, ← addCore_xor_0xFF_fst, ← addCore_xor_0xFF_snd]

/-- Settles O43: the policy picks the NMOS meaning, which changes registers only, after LAS's read of its operand. -/
theorem otherReadInstructionsUnderNmos : Obligations.OtherReadInstructionsUnderNmos := by
  intro s i h
  refine ⟨fun op => ?anc, ?alr, ?arr, ?axs, ?xaa, ?lxa, fun b => ?las⟩
  case anc => exact exists_next_of_nmos_registers h rfl ((cpuOnly_setA _ _).trans (cpuOnly_withP _ _)) rfl
  case alr =>
    refine exists_next_of_nmos_registers h rfl ((cpuOnly_withA _ _).trans (cpuOnly_withP _ _)) ?_
    rw [withNz_lsrCore]
    rfl
  case arr =>
    refine exists_next_of_nmos_registers h rfl ((cpuOnly_withA _ _).trans (cpuOnly_withP _ _)) ?_
    rw [arrCore, rorCore_eq, Flags.nz, negative_ror]
    rfl
  case axs =>
    refine exists_next_of_nmos_registers h rfl ((cpuOnly_withX _ _).trans (cpuOnly_withP _ _)) ?_
    rw [axsCore, compareCore_eq]
    rfl
  case xaa => exact exists_next_of_nmos_registers h rfl (cpuOnly_setA _ _) rfl
  case lxa => exact exists_next_of_nmos_registers h rfl ((cpuOnly_withX _ _).trans (cpuOnly_setA _ _)) rfl
  case las =>
    exact exists_next_of_nmos_reads h rfl (quiet_readMem s (.absY b)) (costs_readMem s (.absY b))
      (((cpuOnly_withX _ _).trans (cpuOnly_withSp _ _)).trans (cpuOnly_setA _ _)) fun hcpu =>
        setA_cpu_of_cpu_eq (withSp_cpu_of_cpu_eq (withX_cpu_of_cpu_eq hcpu _) _) _

/-- Settles O44: all five find their base by reads alone; TAS sets S before its store. -/
theorem highByteStoresUnderNmos : Obligations.HighByteStoresUnderNmos := by
  intro s i base idx reg sp' hpolicy h
  simp only [List.mem_cons, Prod.mk.injEq, List.not_mem_nil, or_false, true_and] at h
  obtain (⟨rfl, rfl, rfl, rfl⟩ | ⟨rfl, rfl, rfl, rfl⟩ | ⟨rfl, rfl, rfl, rfl⟩ | ⟨rfl, rfl, rfl, rfl⟩)
    | ⟨z, rfl, rfl, rfl, rfl, rfl⟩ := h
  case inr =>
    rw [← pointerY_fst]
    exact exists_next_of_nmos_storeHigh hpolicy rfl (quiet_pointerY s z) (costs_pointerY s z) (CpuOnly.refl _)
      (quiet_pointerY s z).cpu
  case inl.inr.inr.inr =>
    exact exists_next_of_nmos_storeHigh hpolicy rfl (Quiet.refl s) (Costs.refl s) (cpuOnly_withSp s _) rfl
  all_goals exact exists_next_of_nmos_storeHigh hpolicy rfl (Quiet.refl s) (Costs.refl s) (CpuOnly.refl s) rfl

/-- Settles O45: `nop1` puts the implied template in the place of the NMOS meaning, `refuse` the refusal. -/
theorem otherInstructionsUnderNop1AndRefuse : Obligations.OtherInstructionsUnderNop1AndRefuse := by
  intro s i op h
  obtain ⟨t, hexec⟩ := exec_otherUndoc s h
  refine ⟨fun hnop1 => ?nop1, fun hrefuse => hexec.trans (otherUndoc_of_refuse op t hrefuse)⟩
  case nop1 =>
    exact ⟨s.implied, hexec.trans (otherUndoc_of_nop1 op t hnop1), (quiet_implied s).storesOnly, implied_cpu s,
      (costs_implied s).takes⟩

end Sys2Proof.Machine
end

section
/-!
PROOFS. The instruction boundary (60_exceptions.md R450, R454) and the taking of an NMI or IRQ (R458-R461). Both interrupts
are one sequence from the state whose NMI latch is clear (`step_of_interrupt`); with PPUCTRL bit 7 clear no dot makes an edge, so
that the latch stays clear (`State.NmiOff`).
-/

namespace Sys2Proof.Machine

/-! ### What the boundary chooses (R454) -/

theorem step_of_resetPending {s : State} (h : s.resetPending = true) : step s = .next s.resetSequence := by
  simp [step, State.cpuStep, h]

section Running

variable {s : State} (hreset : s.resetPending = false) (hjam : s.jammed = false)

include hreset hjam

theorem step_of_nmiPending (hnmi : s.nmiPending = true) : step s = .next s.nmiSequence := by
  simp [step, State.cpuStep, hreset, hjam, hnmi]

theorem step_of_irqLine (hnmi : s.nmiPending = false) (hirq : s.irqLine = true) (hi : s.p.i = false) :
    step s = .next s.irqSequence := by
  simp [step, State.cpuStep, hreset, hjam, hnmi, hirq, hi]

/-- An NMI, or else an unmasked IRQ, is the interrupt sequence with its vector, the NMI latch cleared: an IRQ is taken only where
it is clear already. -/
theorem step_of_interrupt {vec : Addr}
    (h : s.nmiPending = true ∧ vec = nmiVector
      ∨ s.nmiPending = false ∧ s.irqLine = true ∧ s.p.i = false ∧ vec = irqVector) :
    step s = .next (s.clearNmi.interruptSequence vec) := by
  rcases h with ⟨hnmi, rfl⟩ | ⟨hnmi, hirq, hi, rfl⟩
  · exact step_of_nmiPending hreset hjam hnmi
  · rw [step_of_irqLine hreset hjam hnmi hirq hi, State.irqSequence, State.clearNmi, ← hnmi]

end Running

/-- Everything but the instruction at PC answers a next state. -/
theorem step_eq_next_or_exec (s : State) :
    (∃ t, step s = .next t) ∨ step s = exec s.fetchInstr.1 s.fetchInstr.2 := by
  unfold step State.cpuStep
  split
  · exact .inl ⟨_, rfl⟩
  split
  · exact .inl ⟨_, rfl⟩
  split
  · exact .inl ⟨_, rfl⟩
  split
  · exact .inl ⟨_, rfl⟩
  · exact .inr rfl

/-! ### Where an instruction stops (R450, 46 R429) -/

/-- The instruction fetched is a row of the map, that of the opcode byte (30 R150). -/
theorem fetchInstr_fst (s : State) : ∃ b1 b2, s.fetchInstr.1 = decodeBytes s.fetchByte.1 b1 b2 := by
  unfold State.fetchInstr
  dsimp only
  split <;> exact ⟨_, _, rfl⟩

theorem fetchByte_undocPolicy (s : State) : s.fetchByte.2.undocPolicy = s.undocPolicy := (calm_memRead s s.pc).policy

theorem fetchInstr_undocPolicy (s : State) : s.fetchInstr.2.undocPolicy = s.undocPolicy := by
  unfold State.fetchInstr
  dsimp only
  split <;> simp only [fetchByte_undocPolicy]

/-- A row of the map answers a next state, or it is one of the thirteen and the policy decides. -/
theorem exec_eq_next_or_otherUndoc {i : Instr} {op : Byte} (hwf : i.wellFormed = true) (hop : opcodeOf i = some op)
    (s : State) :
    (∃ t, exec i s = .next t) ∨ (otherUndocOpcodes.contains op = true ∧ ∃ t, exec i s = s.otherUndoc op t) := by
  cases i with
  | anc o b =>
    rcases Bool.or_eq_true_iff.1 hwf with h | h
    all_goals
      obtain rfl := eq_of_beq h
      cases hop
      exact .inr ⟨by decide, _, rfl⟩
  | sha m =>
    cases m with
    | absY a | indY z => cases hop; exact .inr ⟨by decide, _, rfl⟩
    | zp z | zpX z | zpY z | abs a | absX a | indX z => cases hop
  | alr b | arr b | axs b | xaa b | lxa b | las a | shx a | shy a | tas a => cases hop; exact .inr ⟨by decide, _, rfl⟩
  | nop o r => cases r <;> exact .inl ⟨_, rfl⟩
  | _ => exact .inl ⟨_, rfl⟩

theorem otherUndoc_eq_next_or_refused (s : State) (op : Byte) (t : State) :
    (∃ u, s.otherUndoc op t = .next u)
      ∨ (s.undocPolicy = .refuse ∧ s.otherUndoc op t = .refused (.undocRefused op)) := by
  cases h : s.undocPolicy with
  | refuse => exact .inr ⟨rfl, otherUndoc_of_refuse op t h⟩
  | nop1 => exact .inl ⟨_, otherUndoc_of_nop1 op t h⟩
  | nmos => exact .inl ⟨_, otherUndoc_of_nmos op t h⟩

/-! ### The NMI latch while PPUCTRL bit 7 is clear (R460, 61 R546) -/

/-- The NMI output is held low, and no NMI is latched. -/
structure State.NmiOff (s : State) : Prop where
  disabled : s.ppu.ctrl.getLsbD 7 = false
  unlatched : s.nmiPending = false

/-- An update that stores nothing into PPUCTRL loses it only by setting the latch. -/
theorem State.NmiOff.of_settings {s t : State} (h : s.NmiOff) (hppu : t.ppu.settings = s.ppu.settings)
    (hnmi : t.nmiPending = s.nmiPending) : t.NmiOff :=
  ⟨(congrArg (·.ctrl.getLsbD 7) hppu).trans h.disabled, hnmi.trans h.unlatched⟩

theorem State.NmiOff.cpuOnly {s t : State} (h : s.NmiOff) (k : CpuOnly s t) : t.NmiOff :=
  h.of_settings (congrArg Ppu.settings k.ppu) k.nmi

/-- A dot makes no edge while PPUCTRL holds the output low. -/
theorem ppuDot_edge_of_disabled {p : Ppu} (h : p.ctrl.getLsbD 7 = false) (c : Cart) : (ppuDot p c).2.2 = false := by
  have hctrl : (dotBody p c).1.ctrl = p.ctrl := congrArg PpuSettings.ctrl (settings_dotBody p c)
  simp only [ppuDot, Ppu.nmiOutput, hctrl, h, Bool.and_false, Bool.false_and]

section NmiOff

variable {s : State} (h : s.NmiOff)

include h

theorem nmiOff_ppuDot : s.ppuDot.NmiOff :=
  h.of_settings (settings_ppuDot s.ppu s.cart) (by simp [State.ppuDot, ppuDot_edge_of_disabled h.disabled])

theorem nmiOff_busRead (a : Addr) : (s.busRead a).2.NmiOff := by
  refine h.of_settings (calm_busRead s a).ppu ?_
  unfold State.busRead
  repeat' split
  all_goals rfl

theorem nmiOff_tick : s.tick.NmiOff := by
  have hdots := nmiOff_ppuDot (nmiOff_ppuDot (nmiOff_ppuDot h))
  exact hdots.of_settings rfl rfl

theorem nmiOff_idle (n : Nat) : (s.idle n).NmiOff := by
  induction n generalizing s with
  | zero => exact h
  | succ n ih => exact ih (nmiOff_tick h)

theorem nmiOff_readAndTick (a : Addr) : (s.readAndTick a).2.NmiOff :=
  nmiOff_tick ((nmiOff_busRead h a).of_settings rfl rfl)

theorem nmiOff_dmcDeliver (b : Byte) : (s.dmcDeliver b).NmiOff := h.of_settings rfl rfl

theorem nmiOff_serveDmc : s.serveDmc.NmiOff := by
  simp only [State.serveDmc]
  exact nmiOff_dmcDeliver (nmiOff_readAndTick (nmiOff_idle h _) _) _

theorem nmiOff_serveDmcIfPending : s.serveDmcIfPending.NmiOff := by
  unfold State.serveDmcIfPending
  split
  · exact nmiOff_serveDmc h
  · exact h

theorem nmiOff_dmaWriteOam (b : Byte) : (s.dmaWriteOam b).NmiOff := nmiOff_tick (h.of_settings rfl rfl)

theorem nmiOff_oamCopy (page : Byte) (n : Nat) : (s.oamCopy page n).NmiOff := by
  induction n generalizing s with
  | zero => exact h
  | succ n ih =>
    simp only [State.oamCopy]
    exact ih (nmiOff_dmaWriteOam (nmiOff_readAndTick h _) _)

theorem nmiOff_oamDmaStart : s.oamDmaStart.NmiOff := h.of_settings rfl rfl

theorem nmiOff_serveOamIfPending : s.serveOamIfPending.NmiOff := by
  unfold State.serveOamIfPending
  split
  · exact nmiOff_oamCopy (nmiOff_idle (nmiOff_oamDmaStart h) _) _ _
  · exact h

theorem nmiOff_memRead (a : Addr) : (s.memRead a).2.NmiOff :=
  nmiOff_readAndTick
    (nmiOff_serveDmcIfPending (nmiOff_serveOamIfPending (nmiOff_serveDmcIfPending h))) a

/-- A push stores into internal RAM, not into PPUCTRL. -/
theorem nmiOff_push (v : Byte) : (s.push v).NmiOff := by
  have hram : (stackAddr s.sp).toNat < 0x2000 := by rw [toNat_stackAddr]; omega
  have hwrite : s.busWrite (stackAddr s.sp) v = { s with ram := memSet s.ram (ramIndex (stackAddr s.sp)) v } :=
    if_pos hram
  have hbus : ((s.busWrite (stackAddr s.sp) v).latch v).NmiOff := by
    rw [hwrite]
    exact h.of_settings rfl rfl
  exact (nmiOff_tick hbus).cpuOnly (cpuOnly_withSp _ _)

theorem nmiOff_enterVector (vec : Addr) : (s.enterVector vec).NmiOff :=
  (nmiOff_memRead ((nmiOff_memRead h vec).cpuOnly (cpuOnly_withP _ _)) (vec + 1)).cpuOnly (cpuOnly_withPc _ _)

theorem nmiOff_interruptSequence (vec : Addr) : (s.interruptSequence vec).NmiOff := by
  have hreads := nmiOff_memRead (nmiOff_memRead h s.pc) s.pc
  exact nmiOff_enterVector (nmiOff_push (nmiOff_push (nmiOff_push hreads _) _) _) vec

end NmiOff

/-! ### A cleared NMI latch changes nothing else (R460) -/

@[simp] theorem State.clearNmi_sp (s : State) : s.clearNmi.sp = s.sp := rfl
@[simp] theorem State.clearNmi_pc (s : State) : s.clearNmi.pc = s.pc := rfl
@[simp] theorem State.clearNmi_p (s : State) : s.clearNmi.p = s.p := rfl
@[simp] theorem State.clearNmi_memByte (s : State) (a : Addr) : s.clearNmi.memByte a = s.memByte a := rfl

theorem costs_clearNmi (s : State) : Costs 0 s s.clearNmi := fun hn => ⟨hn, rfl⟩

theorem nmiOff_clearNmi {s : State} (h : s.ppu.ctrl.getLsbD 7 = false) : s.clearNmi.NmiOff := ⟨h, rfl⟩

/-! ### The interrupt entry (R458) -/

/-- Two dummy reads, then what BRK does too: save PC and P, and enter through the vector. -/
theorem interruptSequence_entry (s : State) {vec : Addr} (hvec : 0x2000 ≤ vec.toNat ∧ vec.toNat < 0xFFFF) :
    ∃ l h, (s.interruptSequence vec).cpu
          = { s.cpu with sp := s.sp - 3, p := { s.p with i := true }, pc := joinBytes h l }
      ∧ (∀ b, s.memByte vec = some b → l = b) ∧ (∀ b, s.memByte (vec + 1) = some b → h = b)
      ∧ (s.interruptSequence vec).memByte (stackAddr s.sp) = some (highByte s.pc)
      ∧ (s.interruptSequence vec).memByte (stackAddr (s.sp - 1)) = some (lowByte s.pc)
      ∧ (s.interruptSequence vec).memByte (stackAddr (s.sp - 2)) = some (s.p.byte ||| 0x20)
      ∧ StoresOnly [stackAddr s.sp, stackAddr (s.sp - 1), stackAddr (s.sp - 2)] s (s.interruptSequence vec) := by
  have hreads := (quiet_dummyRead s s.pc).trans (quiet_dummyRead _ s.pc)
  obtain ⟨l, h, hcpu, hpointer, hpch, hpcl, hp, hstores⟩ :=
    saveAndEnter_spec ((s.dummyRead s.pc).dummyRead s.pc) (s.p.byte ||| 0x20) vec
  obtain ⟨hl, hh⟩ := hpointer hvec
  simp only [dummyRead_cpu, dummyRead_sp, dummyRead_pc, dummyRead_p, dummyRead_memByte] at hcpu hl hh hpch hpcl hp hstores
  exact ⟨l, h, hcpu, hl, hh, hpch, hpcl, hp, hreads.storesOnly.trans hstores⟩

theorem costs_interruptSequence (s : State) (vec : Addr) : Costs 7 s (s.interruptSequence vec) :=
  ((costs_dummyRead s s.pc).trans (costs_dummyRead _ s.pc)).trans (costs_saveAndEnter _ _ vec)

/-! ### The obligations -/

/-- Settles O6: the conditions of the five choices exclude each other. -/
theorem boundaryChoosesInOrder : Obligations.BoundaryChoosesInOrder := by
  intro s
  refine ⟨step_of_resetPending, fun hreset hjam => step_of_jammed hjam hreset, step_of_nmiPending, step_of_irqLine,
    fun hreset hjam hnmi hmasked => step_eq_exec_fetchInstr hreset hjam hnmi ?_⟩
  rcases hmasked with hline | hi
  · rw [hline, Bool.false_and]
  · rw [hi, Bool.not_true, Bool.and_false]

/-- Settles O7: only an instruction can stop, only as one of the thirteen that the policy refuses, and it is refused by the
opcode byte it was fetched with. -/
theorem stepStopsOnlyOnRefusedOpcodes : Obligations.StepStopsOnlyOnRefusedOpcodes := by
  intro s
  rcases step_eq_next_or_exec s with hnext | hstep
  · exact .inl hnext
  obtain ⟨b1, b2, hinstr⟩ := fetchInstr_fst s
  rw [hstep, hinstr]
  rcases exec_eq_next_or_otherUndoc (wellFormed_decodeBytes _ b1 b2) (opcodeOf_decodeBytes _ b1 b2) s.fetchInstr.2 with
    hnext | ⟨hother, t, hexec⟩
  · exact .inl hnext
  rw [hexec]
  rcases otherUndoc_eq_next_or_refused s.fetchInstr.2 s.fetchByte.1 t with hnext | ⟨hpolicy, hrefused⟩
  · exact .inl hnext
  · exact .inr ⟨(fetchInstr_undocPolicy s).symm.trans hpolicy, hother, hrefused⟩

/-- Settles O15: either interrupt is the sequence from the state with a clear NMI latch, and both vectors lie above the stack
page, so that the pushes do not change them. -/
theorem interruptEntrySavesPcAndStatus : Obligations.InterruptEntrySavesPcAndStatus := by
  intro s vec hreset hjam hchosen
  have hvec : 0x2000 ≤ vec.toNat ∧ vec.toNat < 0xFFFF := by
    rcases hchosen with ⟨-, rfl⟩ | ⟨-, -, -, rfl⟩ <;> decide
  obtain ⟨l, h, hcpu, hl, hh, hpch, hpcl, hp, hstores⟩ := interruptSequence_entry s.clearNmi hvec
  simp only [State.clearNmi_cpu, State.clearNmi_sp, State.clearNmi_pc, State.clearNmi_p, State.clearNmi_memByte]
    at hcpu hl hh hpch hpcl hp hstores
  exact ⟨_, l, h, step_of_interrupt hreset hjam hchosen, hcpu, hl, hh, hpch, hpcl, hp, hstores,
    fun hctrl => (nmiOff_interruptSequence (nmiOff_clearNmi hctrl) vec).unlatched,
    ((costs_clearNmi s).trans (costs_interruptSequence _ vec)).takes⟩

end Sys2Proof.Machine
end

section
/-!
PROOFS. Every step keeps the invariant (61_ppu.md R503, 62_apu.md R582, R589, R617, R631). `invAnswer_exec` goes over the
instructions: each is read and write cycles, which keep the invariant, and changes of the CPU's registers, which are no part
of it.
-/

namespace Sys2Proof.Machine

/-- An answer keeps the invariant: where it is a next state, that state has it. -/
def InvAnswer (r : Out) : Prop := ∀ t, r = .next t → t.Inv

theorem invAnswer_next {t : State} (h : t.Inv) : InvAnswer (.next t) := by
  rintro _ ⟨⟩
  exact h

section Sequences

variable {s : State} (h : s.Inv)

include h

/-! ### Reset, interrupts, calls and returns, and the high-byte stores -/

theorem inv_interruptSequence (vec : Addr) : (s.interruptSequence vec).Inv :=
  inv_saveAndEnter _ vec (inv_dummyRead _ (inv_dummyRead _ h))

theorem inv_resetSequence : s.resetSequence.Inv := by
  unfold State.resetSequence
  refine (cpuOnly_withPc _ _).inv (inv_memRead _ ((cpuOnly_withP _ _).inv (inv_memRead _ ((cpuOnly_withSp _ _).inv ?reads))))
  exact inv_dummyRead _ (inv_dummyRead _ (inv_dummyRead _ (inv_dummyRead _ (inv_dummyRead _ (inv_resetDevices h)))))

theorem inv_jumpThrough (pointer : Addr) : (s.jumpThrough pointer).Inv := by
  unfold State.jumpThrough
  exact (cpuOnly_withPc _ _).inv (inv_memRead _ (inv_memRead _ h))

theorem inv_jsrPush : s.jsrPush.Inv := inv_push _ (inv_push _ (inv_dummyRead _ h))

theorem inv_returnFromSubroutine : s.returnFromSubroutine.Inv := by
  unfold State.returnFromSubroutine
  exact (cpuOnly_withPc _ _).inv (inv_dummyRead _ (inv_pullPc (inv_dummyRead _ (inv_dummyRead _ h))))

theorem inv_interruptReturn : s.interruptReturn.Inv :=
  inv_pullPc (inv_pullFlags (inv_dummyRead _ (inv_dummyRead _ h)))

theorem inv_storeHigh (base : Addr) (idx reg : Byte) : (s.storeHigh base idx reg).Inv :=
  inv_memWrite _ _ (inv_dummyRead _ h)

theorem inv_shaBase (m : MemMode) : (s.shaBase m).2.Inv := by
  cases m with
  | indY z => exact inv_pointerY z h
  | _ => exact h

/-! ### Instructions -/

/-- The thirteen others are refused, or run as a NOP, or as the given NMOS behaviour (46 R429). -/
theorem invAnswer_otherUndoc (op : Byte) {t : State} (ht : t.Inv) : InvAnswer (s.otherUndoc op t) := by
  cases hp : s.undocPolicy with
  | refuse => rw [otherUndoc_of_refuse op t hp]; rintro _ ⟨⟩
  | nop1 => rw [otherUndoc_of_nop1 op t hp]; exact invAnswer_next (inv_implied h)
  | nmos => rw [otherUndoc_of_nmos op t hp]; exact invAnswer_next ht

theorem invAnswer_exec (i : Instr) : InvAnswer (exec i s) := by
  have hread : ∀ o : ReadOperand, (s.readOperand o).2.Inv := fun o => inv_readOperand o h
  have himplied := inv_implied h
  have hstack : (s.implied.dummyRead (stackAddr s.sp)).Inv := inv_dummyRead _ himplied
  cases i with
  | lda o | and o | ora o | eor o => exact invAnswer_next ((cpuOnly_setA _ _).inv (hread o))
  | ldx o => exact invAnswer_next ((cpuOnly_setX _ _).inv (hread o))
  | ldy o => exact invAnswer_next ((cpuOnly_setY _ _).inv (hread o))
  | adc o | sbc o => exact invAnswer_next ((cpuOnly_addA _ _).inv (hread o))
  | cmp o | cpx o | cpy o => exact invAnswer_next ((cpuOnly_compare _ _ _).inv (hread o))
  | bit o => exact invAnswer_next ((cpuOnly_withP _ _).inv (hread o))
  | lax m => exact invAnswer_next ((cpuOnly_setA _ _).inv ((cpuOnly_withX _ _).inv (inv_readMem m h)))
  | sbcEB b => exact invAnswer_next ((cpuOnly_addA _ _).inv h)
  | sta m | stx m | sty m | sax m => exact invAnswer_next (inv_store m _ h)
  | tax | tsx | inx | dex => exact invAnswer_next ((cpuOnly_setX _ _).inv himplied)
  | tay | iny | dey => exact invAnswer_next ((cpuOnly_setY _ _).inv himplied)
  | txa | tya => exact invAnswer_next ((cpuOnly_setA _ _).inv himplied)
  | txs => exact invAnswer_next ((cpuOnly_withSp _ _).inv himplied)
  | clc | sec | cli | sei | cld | sed | clv => exact invAnswer_next ((cpuOnly_withP _ _).inv himplied)
  | asl o | lsr o | rol o | ror o => exact invAnswer_next (inv_modifyOperand o _ (cpuOnly_onFlags _) h)
  | inc m | dec m => exact invAnswer_next (inv_modify m _ (cpuOnly_onFlags _) h)
  | slo m | rla m | sre m => exact invAnswer_next (inv_modify m _ (cpuOnly_shiftThen _ _) h)
  | rra m => exact invAnswer_next (inv_modify m _ cpuOnly_rorThenAdd h)
  | dcp m => exact invAnswer_next (inv_modify m _ cpuOnly_decThenCompare h)
  | isb m => exact invAnswer_next (inv_modify m _ cpuOnly_incThenSub h)
  | bpl r | bmi r | bvc r | bvs r | bcc r | bcs r | bne r | beq r => exact invAnswer_next (inv_branch _ r h)
  | jmp target => exact invAnswer_next ((cpuOnly_withPc _ _).inv h)
  | jmpInd pointer => exact invAnswer_next (inv_jumpThrough h pointer)
  | jsr target => exact invAnswer_next ((cpuOnly_withPc _ _).inv (inv_dummyRead _ (inv_jsrPush h)))
  | rts => exact invAnswer_next (inv_returnFromSubroutine h)
  | rti => exact invAnswer_next (inv_interruptReturn h)
  | brk => exact invAnswer_next (inv_saveAndEnter _ _ ((cpuOnly_withPc _ _).inv (inv_dummyRead _ h)))
  | pha | php => exact invAnswer_next (inv_push _ himplied)
  | pla => exact invAnswer_next ((cpuOnly_setA _ _).inv (inv_pull hstack))
  | plp => exact invAnswer_next (inv_pullFlags hstack)
  | nop op o =>
    cases o with
    | implied => exact invAnswer_next himplied
    | read r => exact invAnswer_next (hread r)
  | kil op => exact invAnswer_next ((cpuOnly_jam _).inv himplied)
  | anc op b => exact invAnswer_otherUndoc h _ ((cpuOnly_withP _ _).inv ((cpuOnly_setA _ _).inv h))
  | alr b | arr b => exact invAnswer_otherUndoc h _ ((cpuOnly_withP _ _).inv ((cpuOnly_withA _ _).inv h))
  | axs b => exact invAnswer_otherUndoc h _ ((cpuOnly_withP _ _).inv ((cpuOnly_withX _ _).inv h))
  | xaa b => exact invAnswer_otherUndoc h _ ((cpuOnly_setA _ _).inv h)
  | lxa b => exact invAnswer_otherUndoc h _ ((cpuOnly_setA _ _).inv ((cpuOnly_withX _ _).inv h))
  | las a =>
    exact invAnswer_otherUndoc h _
      ((cpuOnly_setA _ _).inv ((cpuOnly_withSp _ _).inv ((cpuOnly_withX _ _).inv (inv_readMem (.absY a) h))))
  | sha m => exact invAnswer_otherUndoc h _ (inv_storeHigh (inv_shaBase h m) _ _ _)
  | shx a | shy a => exact invAnswer_otherUndoc h _ (inv_storeHigh h a _ _)
  | tas a => exact invAnswer_otherUndoc h _ (inv_storeHigh ((cpuOnly_withSp _ _).inv h) a _ _)

theorem invAnswer_step : InvAnswer (step s) := by
  unfold step State.cpuStep
  split
  · exact invAnswer_next (inv_resetSequence h)
  split
  · exact invAnswer_next (inv_dummyRead _ h)
  split
  · exact invAnswer_next (inv_interruptSequence (s := s.clearNmi) h nmiVector)
  split
  · exact invAnswer_next (inv_interruptSequence h irqVector)
  · exact invAnswer_exec (inv_fetchInstr h) _

end Sequences

/-! ### The obligation -/

/-- Settles O8: whatever the boundary chooses keeps the invariant. -/
theorem stepKeepsTheInvariant : Obligations.StepKeepsTheInvariant :=
  fun _ t h hstep => invAnswer_step h t hstep

end Sys2Proof.Machine
end

section
/-!
PROOFS. The PPU's registers as a program reads and writes them (61_ppu.md R513-R518, R549), the VBL dot (R547) and the length of
a frame (R531). A dot's work leaves the position alone until `Advance()`, so the position runs as a clock of its own
(`clock_ppuDot`); `FrameClock.dotsLeft` counts down to the end of the frame.
-/

namespace Sys2Proof.Machine

/-! ### PPUSTATUS (R513, R549) -/

section Status

variable (p : Ppu)

theorem Ppu.atVblDot_iff : p.atVblDot = true ↔ p.scanline = 241 ∧ p.dot = 1 := by simp [Ppu.atVblDot]

/-- The byte bit by bit: three flags over the open bus, VBL hidden at the position of the race. -/
theorem Ppu.statusByte_bits :
    p.statusByte.getLsbD 7 = (p.vbl && !p.atVblDot) ∧ p.statusByte.getLsbD 6 = p.sprite0Hit
      ∧ p.statusByte.getLsbD 5 = p.spriteOverflow ∧ p.statusByte.setWidth 5 = p.openBus.setWidth 5 := by
  refine ⟨?_, ?_, ?_, BitVec.setWidth_append_eq_right⟩
  all_goals simp only [Ppu.statusByte, BitVec.getLsbD_append]; simp

end Status

theorem busRead_status (s : State) {a : Addr} (h₀ : 0x2000 ≤ a.toNat) (h₁ : a.toNat < 0x4000) (h₂ : a.toNat % 8 = 2) :
    s.busRead a = (s.ppu.statusByte, { s with ppu := s.ppu.readStatus.2 }) := by
  rw [busRead_ppuReg s h₀ h₁, h₂]
  rfl

/-! ### OAMDATA (R515, R516) -/

theorem Ppu.renderLine_iff (p : Ppu) : p.renderLine = true ↔ -1 ≤ p.scanline ∧ p.scanline ≤ 239 := by
  simp [Ppu.renderLine]

theorem Ppu.writeOamData_of_rendering {p : Ppu} (hr : p.rendering = true) (hl : p.renderLine = true) (v : Byte) :
    p.writeOamData v = p := by
  simp [Ppu.writeOamData, hr, hl]

theorem Ppu.writeOamData_of_idle {p : Ppu} (h : p.rendering = false ∨ p.renderLine = false) (v : Byte) :
    p.writeOamData v = { p with oam := memSet p.oam p.oamAddr.toNat v, oamAddr := p.oamAddr + 1 } := by
  rcases h with h | h <;> simp [Ppu.writeOamData, h]

/-! ### PPUSCROLL and PPUADDR (R517, R518) -/

section Fields

variable {w i n : Nat} {t m u : BitVec w}

/-- A field that the mask keeps and the new bits leave clear is the old one. -/
theorem extractLsb'_kept (hm : m.extractLsb' i n = BitVec.allOnes n) (hu : u.extractLsb' i n = 0#n) :
    ((t &&& m) ||| u).extractLsb' i n = t.extractLsb' i n := by
  rw [BitVec.extractLsb'_or, BitVec.extractLsb'_and, hm, hu, BitVec.and_allOnes, BitVec.or_zero]

/-- A field that the mask clears is the new one. -/
theorem extractLsb'_written (hm : m.extractLsb' i n = 0#n) :
    ((t &&& m) ||| u).extractLsb' i n = u.extractLsb' i n := by
  rw [BitVec.extractLsb'_or, BitVec.extractLsb'_and, hm, BitVec.and_zero, BitVec.zero_or]

end Fields

/-- The new bits of `t` in the first write of PPUSCROLL: coarse X. -/
def scrollXBits (val : Byte) : BitVec 15 := (val >>> 3).setWidth 15

/-- The new bits of `t` in the second write of PPUSCROLL: fine Y and coarse Y. -/
def scrollYBits (val : Byte) : BitVec 15 := ((val &&& 0x07).setWidth 15 <<< 12) ||| ((val >>> 3).setWidth 15 <<< 5)

/-- The new bits of `t` in the first write of PPUADDR: bits 8-13; bit 14 is cleared. -/
def addrHighBits (val : Byte) : BitVec 15 := (val &&& 0x3F).setWidth 15 <<< 8

/-- The new bits of `t` in the second write of PPUADDR: the low byte. -/
def addrLowBits (val : Byte) : BitVec 15 := val.setWidth 15

/-! Where the bits of the byte written stand; a fact about each of the 256 bytes. -/

theorem scrollXBits_fields : ∀ val : Byte,
    (scrollXBits val).extractLsb' 0 5 = val.extractLsb' 3 5 ∧ (scrollXBits val).extractLsb' 5 10 = 0 := by decide +kernel

theorem scrollYBits_fields : ∀ val : Byte,
    (scrollYBits val).extractLsb' 12 3 = val.extractLsb' 0 3 ∧ (scrollYBits val).extractLsb' 5 5 = val.extractLsb' 3 5
      ∧ (scrollYBits val).extractLsb' 0 5 = 0 ∧ (scrollYBits val).extractLsb' 10 2 = 0 := by decide +kernel

theorem addrHighBits_fields : ∀ val : Byte,
    (addrHighBits val).extractLsb' 8 6 = val.extractLsb' 0 6 ∧ (addrHighBits val)[14] = false
      ∧ (addrHighBits val).extractLsb' 0 8 = 0 := by decide +kernel

theorem addrLowBits_fields : ∀ val : Byte,
    (addrLowBits val).extractLsb' 0 8 = val ∧ (addrLowBits val).extractLsb' 8 7 = 0 := by decide +kernel

section Toggle

variable {p : Ppu} (c : Cart) (val : Byte)

theorem ppuRegWrite_scroll_first (hw : p.w = false) :
    ppuRegWrite p c 5 val =
      ({ p with
          openBus := val
          t := (p.t &&& 0x7FE0) ||| scrollXBits val
          fineX := val.extractLsb' 0 3
          w := true }, c) := by
  simp [ppuRegWrite, Ppu.writeScroll, hw, scrollXBits, BitVec.setWidth_eq_extractLsb']

theorem ppuRegWrite_scroll_second (hw : p.w = true) :
    ppuRegWrite p c 5 val = ({ p with openBus := val, t := (p.t &&& 0x0C1F) ||| scrollYBits val, w := false }, c) := by
  simp [ppuRegWrite, Ppu.writeScroll, hw, scrollYBits, BitVec.or_assoc]

theorem ppuRegWrite_addr_first (hw : p.w = false) :
    ppuRegWrite p c 6 val = ({ p with openBus := val, t := (p.t &&& 0x00FF) ||| addrHighBits val, w := true }, c) := by
  simp [ppuRegWrite, Ppu.writeAddr, hw, addrHighBits]

theorem ppuRegWrite_addr_second (hw : p.w = true) :
    ppuRegWrite p c 6 val =
      ({ p with
          openBus := val
          t := (p.t &&& 0x7F00) ||| addrLowBits val
          v := (p.t &&& 0x7F00) ||| addrLowBits val
          w := false }, c) := by
  simp [ppuRegWrite, Ppu.writeAddr, hw, addrLowBits]

end Toggle

/-! ### The VBL dot (R547) -/

@[simp] theorem Ppu.vbl_advance (p : Ppu) : p.advance.vbl = p.vbl := by
  unfold Ppu.advance
  repeat' split
  all_goals rfl

@[simp] theorem Ppu.suppressVbl_advance (p : Ppu) : p.advance.suppressVbl = p.suppressVbl := by
  unfold Ppu.advance
  repeat' split
  all_goals rfl

/-- Past line 239 nothing is rendered or shown: a dot there changes flags alone. -/
theorem dotBody_of_postRender {p : Ppu} (h : 239 < p.scanline) (c : Cart) : dotBody p c = (p.flagDot, c) := by
  have hr : p.renderLine = false := by simp [Ppu.renderLine, h]
  have hv : p.visibleLine = false := by simp [Ppu.visibleLine, h]
  simp [dotBody, hr, hv]

section VblDot

variable {p : Ppu} (hpos : p.scanline = 241 ∧ p.dot = 1)

include hpos

theorem Ppu.flagDot_of_vblDot (hs : p.suppressVbl = false) : p.flagDot = { p with vbl := true } := by
  simp [Ppu.flagDot, p.atVblDot_iff.2 hpos, hs]

theorem Ppu.flagDot_of_suppressed (hs : p.suppressVbl = true) : p.flagDot = { p with suppressVbl := false } := by
  simp [Ppu.flagDot, p.atVblDot_iff.2 hpos, hs]

theorem ppuDot_of_vblDot (c : Cart) :
    ppuDot p c = ({ p.flagDot with nmiPrev := p.flagDot.nmiOutput }.advance, c,
      p.flagDot.nmiOutput && !p.flagDot.nmiPrev) := by
  simp only [ppuDot, dotBody_of_postRender (show 239 < p.scanline by omega)]

end VblDot

/-! ### The position as a clock (R503, R504, R531) -/

/-- What decides the position of the next dot, and what the end of a frame counts. -/
structure FrameClock where
  scanline : Int
  dot : Nat
  oddFrame : Bool
  rendering : Bool
  frameCount : Nat
  frameComplete : Bool

/-- The clock of a PPU. -/
def Ppu.clock (p : Ppu) : FrameClock :=
  ⟨p.scanline, p.dot, p.oddFrame, p.rendering, p.frameCount, p.frameComplete⟩

section Clock

variable (p : Ppu) (c : Cart)

@[simp] theorem Ppu.clock_flagDot : p.flagDot.clock = p.clock := by
  unfold Ppu.flagDot
  repeat' split
  all_goals rfl

@[simp] theorem Ppu.clock_bgShiftAndReload : p.bgShiftAndReload.clock = p.clock := by
  unfold Ppu.bgShiftAndReload
  dsimp only
  repeat' split
  all_goals rfl

@[simp] theorem clock_bgFetchTile : (bgFetchTile p c).1.clock = p.clock := by
  unfold bgFetchTile
  repeat' split
  all_goals rfl

@[simp] theorem Ppu.clock_updateV : p.updateV.clock = p.clock := by
  unfold Ppu.updateV
  repeat' split
  all_goals rfl

@[simp] theorem Ppu.clock_spriteEvaluate : p.spriteEvaluate.clock = p.clock := by
  unfold Ppu.spriteEvaluate Ppu.examineSprite
  repeat' split
  all_goals rfl

@[simp] theorem clock_spriteFetch : (spriteFetch p c).1.clock = p.clock := by
  unfold spriteFetch loadUnit
  repeat' split
  all_goals rfl

@[simp] theorem Ppu.clock_clearOamAddr : p.clearOamAddr.clock = p.clock := by
  unfold Ppu.clearOamAddr
  split <;> rfl

@[simp] theorem clock_renderDot : (renderDot p c).1.clock = p.clock := by simp [renderDot, bgFetch]

@[simp] theorem Ppu.clock_outputPixel (x : Nat) : (p.outputPixel x).clock = p.clock := by
  unfold Ppu.outputPixel
  split <;> rfl

/-- The work of a dot before `Advance()` moves no part of the clock. -/
@[simp] theorem clock_dotBody : (dotBody p c).1.clock = p.clock := by
  unfold dotBody
  dsimp only
  repeat' split
  all_goals simp

end Clock

namespace FrameClock

/-- The end of a frame (R504, R531). -/
def frameEnd (k : FrameClock) : FrameClock :=
  { k with scanline := -1, dot := 0, oddFrame := !k.oddFrame, frameCount := k.frameCount + 1, frameComplete := true }

/-- The first dot of a line of the same frame. -/
def lineStart (k : FrameClock) (line : Int) : FrameClock := { k with scanline := line, dot := 0 }

@[simp] theorem lineStart_scanline (k : FrameClock) (line : Int) : (k.lineStart line).scanline = line := rfl
@[simp] theorem lineStart_dot (k : FrameClock) (line : Int) : (k.lineStart line).dot = 0 := rfl

/-- `Advance()` on the clock (R531). -/
def next (k : FrameClock) : FrameClock :=
  if k.scanline = -1 ∧ k.dot = 339 ∧ k.oddFrame = true ∧ k.rendering = true then k.lineStart 0
  else if 341 ≤ k.dot + 1 then if 261 ≤ k.scanline + 1 then k.frameEnd else k.lineStart (k.scanline + 1)
  else { k with dot := k.dot + 1 }

/-- The clock after `n` dots. -/
def after (k : FrameClock) (n : Nat) : FrameClock :=
  match n with
  | 0 => k
  | n + 1 => k.next.after n

end FrameClock

theorem Ppu.clock_advance (p : Ppu) : p.advance.clock = p.clock.next := by
  rw [Ppu.advance, apply_ite Ppu.clock, apply_ite Ppu.clock, apply_ite Ppu.clock]
  rfl

/-- A dot is one step of the clock. -/
theorem clock_ppuDot (p : Ppu) (c : Cart) : (ppuDot p c).1.clock = p.clock.next := by
  rw [← clock_dotBody p c]
  exact Ppu.clock_advance _

theorem clock_runDots (n : Nat) (p : Ppu) (c : Cart) : (runDots n p c).1.clock = p.clock.after n := by
  induction n generalizing p c with
  | zero => rfl
  | succ n ih => rw [runDots, ih, clock_ppuDot, FrameClock.after]

namespace FrameClock

/-- The pre-render line of this frame is one dot short (R531). -/
def skips (k : FrameClock) : Bool := k.scanline == -1 && k.oddFrame && k.rendering

theorem skips_iff (k : FrameClock) :
    k.skips = true ↔ k.scanline = -1 ∧ k.oddFrame = true ∧ k.rendering = true := by
  simp [skips, and_assoc]

theorem skips_of_visible {k : FrameClock} (h : 0 ≤ k.scanline) : k.skips = false := by
  rw [Bool.eq_false_iff, Ne, skips_iff]
  omega

/-- On the grid (R503), and not at the dot that a short line leaves out. -/
structure OnPath (k : FrameClock) : Prop where
  first : -1 ≤ k.scanline
  last : k.scanline ≤ 260
  dot : k.dot + k.skips.toNat ≤ 340

/-- Dots to the end of the frame. -/
def dotsLeft (k : FrameClock) : Int := 341 * (261 - k.scanline) - k.dot - k.skips.toNat

/-- From the last dot of a line a step begins the next line, with one dot less to go. -/
theorem lineStart_of_lineEnd {k : FrameClock} (h : k.OnPath) (hdot : k.dot + k.skips.toNat = 340)
    (hline : k.scanline < 260) :
    1 < k.dotsLeft ∧ (k.lineStart (k.scanline + 1)).OnPath ∧ (k.lineStart (k.scanline + 1)).dotsLeft = k.dotsLeft - 1 := by
  obtain ⟨hfirst, -, -⟩ := h
  have hskips : (k.lineStart (k.scanline + 1)).skips = false := skips_of_visible (by rw [lineStart_scanline]; omega)
  refine ⟨?more, ⟨?first, ?last, ?dot⟩, ?less⟩
  all_goals simp only [dotsLeft, hskips, lineStart_scanline, lineStart_dot, Bool.toNat_false]; omega

/-- A step is the last of the frame, or it leaves one dot less in the same frame. -/
theorem next_cases {k : FrameClock} (h : k.OnPath) :
    (k.dotsLeft = 1 ∧ k.next = k.frameEnd)
      ∨ (1 < k.dotsLeft ∧ k.next.OnPath ∧ k.next.dotsLeft = k.dotsLeft - 1 ∧ k.next.frameEnd = k.frameEnd) := by
  have ⟨hfirst, hlast, hdot⟩ := h
  unfold next
  split
  · next hskip =>
    obtain ⟨hs, hd, hrest⟩ := hskip
    have hk : k.skips = true := k.skips_iff.2 ⟨hs, hrest⟩
    obtain ⟨hmore, hpath, hless⟩ := lineStart_of_lineEnd h (by simp [hk, hd]) (by omega)
    rw [hs] at hpath hless
    exact .inr ⟨hmore, hpath, hless, rfl⟩
  next hskip =>
  split
  · split
    · exact .inl ⟨by simp only [dotsLeft]; omega, rfl⟩
    · obtain ⟨hmore, hpath, hless⟩ := lineStart_of_lineEnd h (by omega) (by omega)
      exact .inr ⟨hmore, hpath, hless, rfl⟩
  · have hroom : k.dot + 1 + k.skips.toNat ≤ 340 := by
      cases hk : k.skips with
      | false => rw [Bool.toNat_false]; omega
      | true =>
        obtain ⟨hs, hrest⟩ := k.skips_iff.1 hk
        have hne : k.dot ≠ 339 := fun hd => hskip ⟨hs, hd, hrest⟩
        rw [hk, Bool.toNat_true] at hdot
        rw [Bool.toNat_true]; omega
    have hless : ({ k with dot := k.dot + 1 } : FrameClock).dotsLeft = k.dotsLeft - 1 := by
      show 341 * (261 - k.scanline) - ((k.dot + 1 : Nat) : Int) - k.skips.toNat = _
      rw [dotsLeft]; omega
    exact .inr ⟨by rw [dotsLeft]; omega, ⟨hfirst, hlast, hroom⟩, hless, rfl⟩

/-- As many steps as dots are left end the frame. -/
theorem after_dotsLeft {n : Nat} {k : FrameClock} (h : k.OnPath) (hn : k.dotsLeft = n) : k.after n = k.frameEnd := by
  induction n generalizing k with
  | zero => rcases next_cases h with ⟨h1, -⟩ | ⟨h1, -⟩ <;> omega
  | succ n ih =>
    rw [after]
    rcases next_cases h with ⟨h1, hend⟩ | ⟨-, hpath, hless, hsame⟩
    · obtain rfl : n = 0 := by omega
      exact hend
    · rw [ih hpath (by omega), hsame]

end FrameClock

/-! ### The obligations -/

/-- Settles O51: the byte read is `statusByte`; the position decides bit 7 and the suppression. -/
theorem statusReadClearsVblAndToggle : Obligations.StatusReadClearsVblAndToggle := by
  intro s a h₀ h₁ h₂
  obtain ⟨h7, h6, h5, hlow⟩ := s.ppu.statusByte_bits
  refine ⟨_, _, busRead_status s h₀ h₁ h₂, fun hpos => ?elsewhere, fun hs hd => ?race, h6, h5, hlow⟩
  case elsewhere =>
    have hv : s.ppu.atVblDot = false := by rwa [Bool.eq_false_iff, Ne, Ppu.atVblDot_iff]
    exact ⟨h7.trans (by simp [hv]), by simp [Ppu.readStatus, hv]⟩
  case race =>
    have hv : s.ppu.atVblDot = true := s.ppu.atVblDot_iff.2 ⟨hs, hd⟩
    exact ⟨h7.trans (by simp [hv]), by simp [Ppu.readStatus, hv]⟩

/-- Settles O55: the two cases of the write, and the mask of the read. -/
theorem oamDataPortReadsAndWrites : Obligations.OamDataPortReadsAndWrites := by
  intro p c v
  refine ⟨fun hr h₀ h₁ => ?rendering, fun h => ?idle, _, rfl, fun h => if_pos h, fun h => if_neg h⟩
  case rendering => exact Ppu.writeOamData_of_rendering (p := { p with openBus := v }) hr (p.renderLine_iff.2 ⟨h₀, h₁⟩) v
  case idle =>
    refine Ppu.writeOamData_of_idle (p := { p with openBus := v }) (h.imp_right fun hl => ?_) v
    rw [Bool.eq_false_iff, Ne, Ppu.renderLine_iff]
    show ¬(-1 ≤ p.scanline ∧ p.scanline ≤ 239)
    omega

/-- Settles O52: each write is a mask of `t` and new bits in it, so a field is one or the other. -/
theorem scrollAndAddressWritesSetTheirFields : Obligations.ScrollAndAddressWritesSetTheirFields := by
  intro p c val
  refine ⟨⟨(ppuRegWrite p c 5 val).1, rfl, fun hw => ?scrollX, fun hw => ?scrollY⟩,
    ⟨(ppuRegWrite p c 6 val).1, rfl, fun hw => ?addrHigh, fun hw => ?addrLow⟩⟩
  case scrollX =>
    obtain ⟨hnew, hclear⟩ := scrollXBits_fields val
    rw [ppuRegWrite_scroll_first c val hw]
    exact ⟨(extractLsb'_written (by decide)).trans hnew, extractLsb'_kept (by decide) hclear, rfl⟩
  case scrollY =>
    obtain ⟨hfine, hcoarse, hx, hnt⟩ := scrollYBits_fields val
    rw [ppuRegWrite_scroll_second c val hw]
    exact ⟨(extractLsb'_written (by decide)).trans hfine, (extractLsb'_written (by decide)).trans hcoarse,
      extractLsb'_kept (by decide) hx, extractLsb'_kept (by decide) hnt, rfl⟩
  case addrHigh =>
    obtain ⟨hnew, htop, hclear⟩ := addrHighBits_fields val
    rw [ppuRegWrite_addr_first c val hw]
    exact ⟨(extractLsb'_written (by decide)).trans hnew, by simp [htop], extractLsb'_kept (by decide) hclear, rfl⟩
  case addrLow =>
    obtain ⟨hnew, hclear⟩ := addrLowBits_fields val
    rw [ppuRegWrite_addr_second c val hw]
    exact ⟨(extractLsb'_written (by decide)).trans hnew, extractLsb'_kept (by decide) hclear, rfl⟩

/-- Settles O17: the dot is `flagDot` and the edge of the NMI output it makes. -/
theorem vblDotSetsTheFlagAndTheNmiLatch : Obligations.VblDotSetsTheFlagAndTheNmiLatch := by
  intro s hs hd
  have hdot := ppuDot_of_vblDot ⟨hs, hd⟩ s.cart
  refine ⟨fun hset => ?sets, fun hsup hvbl => ?suppressed⟩
  case sets =>
    rw [Ppu.flagDot_of_vblDot ⟨hs, hd⟩ hset] at hdot
    simp [State.ppuDot, hdot, Ppu.nmiOutput]
  case suppressed =>
    rw [Ppu.flagDot_of_suppressed ⟨hs, hd⟩ hsup] at hdot
    simp [State.ppuDot, hdot, Ppu.nmiOutput, hvbl]

/-- Settles O11: at (-1, 0) all dots of the frame are left. -/
theorem frameLengthInDots : Obligations.FrameLengthInDots := by
  intro p c hs hd q
  have hskip : p.clock.skips = (p.oddFrame && p.rendering) := by simp [FrameClock.skips, Ppu.clock, hs]
  have hpath : p.clock.OnPath := by
    have hone := p.clock.skips.toNat_le
    exact ⟨by simp [Ppu.clock, hs], by simp [Ppu.clock, hs], by rw [show p.clock.dot = 0 from hd]; omega⟩
  have hleft : p.clock.dotsLeft = (if p.oddFrame && p.rendering then 89341 else 89342 : Nat) := by
    rw [FrameClock.dotsLeft, hskip]
    simp only [Ppu.clock, hs, hd]
    cases p.oddFrame && p.rendering <;> rfl
  have hq : q.clock = p.clock.frameEnd := (clock_runDots _ p c).trans (FrameClock.after_dotsLeft hpath hleft)
  exact ⟨congrArg FrameClock.scanline hq, congrArg FrameClock.dot hq, congrArg FrameClock.oddFrame hq,
    congrArg FrameClock.frameCount hq, congrArg FrameClock.frameComplete hq⟩

end Sys2Proof.Machine
end

section
/-!
PROOFS. The APU's status and frame counter registers (62_apu.md R590-R592) and the frame IRQ (R600).
-/

namespace Sys2Proof.Machine

/-! ### $4015 (R591, R592) -/

theorem busRead_apuStatus (s : State) :
    s.busRead 0x4015 = (s.apu.statusByte s.busLatch, { s with apu := s.apu.afterStatusRead }) := rfl

theorem busWrite_apuStatus (s : State) (v : Byte) : s.busWrite 0x4015 v = { s with apu := s.apu.statusWrite v } := rfl

/-- The byte of a $4015 read bit by bit. -/
theorem Apu.statusByte_bits (u : Apu) (latch : Byte) :
    (u.statusByte latch).getLsbD 0 = (u.pulse1.length != 0) ∧ (u.statusByte latch).getLsbD 1 = (u.pulse2.length != 0)
      ∧ (u.statusByte latch).getLsbD 2 = (u.tri.length != 0) ∧ (u.statusByte latch).getLsbD 3 = (u.noise.length != 0)
      ∧ (u.statusByte latch).getLsbD 4 = (u.dmc.bytesRemaining != 0)
      ∧ (u.statusByte latch).getLsbD 5 = latch.getLsbD 5 ∧ (u.statusByte latch).getLsbD 6 = u.frameIrq
      ∧ (u.statusByte latch).getLsbD 7 = u.dmc.dmcIrq := by
  refine ⟨?_, ?_, ?_, ?_, ?_, ?_, ?_, ?_⟩
  all_goals simp only [Apu.statusByte, BitVec.getLsbD_append]; simp

section Enable

variable (d : Dmc)

theorem Dmc.enable_off : d.enable false = { d with bytesRemaining := 0, dmcIrq := false } := rfl

/-- A sample that is still running is left alone. -/
theorem Dmc.enable_on_running (h : d.bytesRemaining ≠ 0) : d.enable true = { d with dmcIrq := false } := by
  simp only [Dmc.enable, if_true, if_neg h]

/-- A finished sample starts again. -/
theorem Dmc.enable_on_finished (h : d.bytesRemaining = 0) :
    d.enable true = { d with curAddr := d.sampleAddr, bytesRemaining := d.sampleLen, dmcIrq := false } := by
  simp [Dmc.enable, Dmc.restart, h]

end Enable

/-! ### The frame counter (R590, R600) -/

section FrameCounter

variable {u : Apu}

theorem Apu.fcDelay_sequence (u : Apu) : u.sequence.fcDelay = u.fcDelay := by
  unfold Apu.sequence Apu.fourStep Apu.fiveStep
  dsimp only
  repeat' split
  all_goals rfl

/-- A pending restart zeroes the count in its last cycle (R590). -/
theorem Apu.fc_frameSteps_fcDelay {n : Nat} (h : u.fcDelay = n + 1) : (u.frameSteps (n + 1)).fc = 0 := by
  induction n generalizing u with
  | zero => simp [Apu.frameSteps, Apu.frameCounterStep, h]
  | succ n ih =>
    have hstep : u.frameCounterStep = { u with fcDelay := n + 1 }.sequence := by simp [Apu.frameCounterStep, h]
    exact ih (by rw [hstep, Apu.fcDelay_sequence])

/-- In the four-step mode, with no restart pending and no frame IRQ held back or raised. -/
structure Apu.AwaitsFrameIrq (u : Apu) : Prop where
  mode : u.fcMode = false
  delay : u.fcDelay = 0
  inhibit : u.fcInhibit = false
  clear : u.frameIrq = false

theorem Apu.AwaitsFrameIrq.frameCounterStep_eq (h : u.AwaitsFrameIrq) :
    u.frameCounterStep = { u with fc := u.fc + 1 }.fourStep := by
  simp [Apu.frameCounterStep, Apu.sequence, h.delay, h.mode]

/-- Below 29829 a step only counts, beside the clocks of the channels. -/
theorem Apu.AwaitsFrameIrq.frameCounterStep (h : u.AwaitsFrameIrq) (hfc : u.fc + 1 < 29829) :
    u.frameCounterStep.AwaitsFrameIrq ∧ u.frameCounterStep.fc = u.fc + 1 := by
  have hlast : u.fc + 1 ≠ 29829 := by omega
  have hwrap : u.fc + 1 ≠ 29830 := by omega
  rw [h.frameCounterStep_eq, Apu.fourStep]
  simp only [hlast, hwrap, if_false]
  repeat' split
  all_goals exact ⟨⟨h.mode, h.delay, h.inhibit, h.clear⟩, rfl⟩

/-- The step to 29829 raises the flag. -/
theorem Apu.AwaitsFrameIrq.frameIrq_frameCounterStep (h : u.AwaitsFrameIrq) (hfc : u.fc + 1 = 29829) :
    u.frameCounterStep.frameIrq = true := by
  simp [h.frameCounterStep_eq, Apu.fourStep, hfc, h.inhibit]

/-- The flag through the steps up to count 29829. -/
theorem Apu.AwaitsFrameIrq.frameIrq_frameSteps {n : Nat} (h : u.AwaitsFrameIrq) (hfc : u.fc + (n + 1) = 29829) :
    (u.frameSteps (n + 1)).frameIrq = true ∧ ∀ k, k < n + 1 → (u.frameSteps k).frameIrq = false := by
  induction n generalizing u with
  | zero =>
    refine ⟨h.frameIrq_frameCounterStep hfc, fun k hk => ?_⟩
    obtain rfl : k = 0 := by omega
    exact h.clear
  | succ n ih =>
    obtain ⟨hnext, hcount⟩ := h.frameCounterStep (by omega)
    obtain ⟨hset, hbefore⟩ := ih hnext (by omega)
    refine ⟨hset, fun k hk => ?_⟩
    cases k with
    | zero => exact h.clear
    | succ k => exact hbefore k (by omega)

end FrameCounter

theorem busWrite_frameCounter (s : State) (v : Byte) :
    s.busWrite 0x4017 v = { s with apu := s.apu.frameCounterWrite s.cycles v } := rfl

section FrameCounterWrite

variable {u : Apu} {cycles : Nat} {v : Byte}

/-- What a $4017 write sets itself (R590). -/
def Apu.frameCounterSet (u : Apu) (cycles : Nat) (v : Byte) : Apu :=
  { u with fcMode := v.getLsbD 7, fcInhibit := v.getLsbD 6, frameIrq := u.frameIrq && !v.getLsbD 6,
           fcDelay := frameResetDelay cycles }

theorem Apu.frameCounterWrite_eq (u : Apu) (cycles : Nat) (v : Byte) :
    u.frameCounterWrite cycles v =
      if v.getLsbD 7 then (u.frameCounterSet cycles v).quarter.half else u.frameCounterSet cycles v := rfl

theorem Apu.fcDelay_frameCounterWrite : (u.frameCounterWrite cycles v).fcDelay = frameResetDelay cycles := by
  rw [Apu.frameCounterWrite_eq]
  split <;> rfl

/-- The restart that a $4017 write leaves pending. -/
theorem Apu.fc_frameSteps_frameCounterWrite :
    ((u.frameCounterWrite cycles v).frameSteps (u.frameCounterWrite cycles v).fcDelay).fc = 0 := by
  obtain ⟨n, hn⟩ : ∃ n, (u.frameCounterWrite cycles v).fcDelay = n + 1 := by
    rw [Apu.fcDelay_frameCounterWrite, frameResetDelay]
    split <;> exact ⟨_, rfl⟩
  rw [hn]
  exact Apu.fc_frameSteps_fcDelay hn

end FrameCounterWrite

/-! ### The obligations -/

/-- Settles O56: the byte bit by bit; the flag that the read clears is the frame counter's. -/
theorem apuStatusReadReportsAndAcknowledges : Obligations.ApuStatusReadReportsAndAcknowledges := by
  intro s
  exact ⟨_, busRead_apuStatus s, s.apu.statusByte_bits s.busLatch⟩

/-- Settles O57: every channel's `enable`, and the three cases of the DMC's. -/
theorem apuStatusWriteEnablesAndSilences : Obligations.ApuStatusWriteEnablesAndSilences := by
  intro s v
  refine ⟨s.apu.statusWrite v, s.apu.dmc.enable (v.getLsbD 4), s.apu, rfl, busWrite_apuStatus s v, rfl,
    fun hoff => ?off, fun hon hrunning => ?running, fun hon hfinished => ?finished⟩
  case off => rw [hoff, Dmc.enable_off]
  case running => rw [hon, Dmc.enable_on_running _ hrunning]
  case finished => rw [hon, Dmc.enable_on_finished _ hfinished]

/-- Settles O58: bit 7 decides whether the channels are clocked; either way the restart is pending. -/
theorem frameCounterWriteRestartsTheSequence : Obligations.FrameCounterWriteRestartsTheSequence := by
  intro s v
  have hrestart := Apu.fc_frameSteps_frameCounterWrite (u := s.apu) (cycles := s.cycles) (v := v)
  refine ⟨_, s.apu, rfl, busWrite_frameCounter s v, ?_⟩
  rw [Apu.frameCounterWrite_eq] at hrestart ⊢
  cases h7 : v.getLsbD 7 with
  | false =>
    rw [h7] at hrestart
    exact ⟨h7, rfl, rfl, rfl, rfl, rfl, fun _ => ⟨rfl, rfl, rfl, rfl⟩, nofun, hrestart⟩
  | true =>
    rw [h7] at hrestart
    exact ⟨h7, rfl, rfl, rfl, rfl, rfl, nofun, fun _ => ⟨rfl, rfl, rfl, rfl⟩, hrestart⟩

/-- Settles O59: the steps up to 29829 count down to it. -/
theorem frameIrqComesAtCount29829 : Obligations.FrameIrqComesAtCount29829 := by
  intro u hmode hdelay hinhibit hclear hfc
  obtain ⟨n, hn⟩ : ∃ n, 29829 - u.fc = n + 1 := ⟨29828 - u.fc, by omega⟩
  rw [hn]
  exact Apu.AwaitsFrameIrq.frameIrq_frameSteps ⟨hmode, hdelay, hinhibit, hclear⟩ (by omega)

end Sys2Proof.Machine
end

section
/-!
PROOFS. Bus DMA (63_bus_dma_io.md R660-R665) and the controller ports (R671, R672). A tick is three dots and a step of the APU
(`tick_ppu`, `tick_dmc`); with rendering off a dot moves the position and flags alone (`ppuDot_of_idle`).
-/

namespace Sys2Proof.Machine

/-! ### The dots of a tick (20 R111) -/

/-- What every dot keeps, a tick keeps; `P` may count the dots down. -/
theorem tick_ppu {P : Nat → Ppu → Prop} (hdot : ∀ n p c, P (n + 1) p → P n (ppuDot p c).1) {n : Nat} {s : State}
    (h : P (n + 3) s.ppu) : P n s.tick.ppu :=
  hdot _ _ _ (hdot _ _ _ (hdot _ s.ppu s.cart h))

theorem Ppu.rendering_of_settings {p q : Ppu} (h : q.settings = p.settings) : q.rendering = p.rendering := by
  have hmask : q.mask = p.mask := congrArg PpuSettings.mask h
  simp only [Ppu.rendering, Ppu.showBg, Ppu.showSpr, hmask]

/-- With rendering off a dot is `flagDot`, at most a pixel of the backdrop, and the advance of the position. -/
theorem ppuDot_of_idle {p : Ppu} (h : p.rendering = false) (c : Cart) :
    (ppuDot p c).1 =
      { p.flagDot with
        scanline := (ppuDot p c).1.scanline
        dot := (ppuDot p c).1.dot
        oddFrame := (ppuDot p c).1.oddFrame
        frameComplete := (ppuDot p c).1.frameComplete
        frameCount := (ppuDot p c).1.frameCount
        frame := (ppuDot p c).1.frame
        lastFrame := (ppuDot p c).1.lastFrame
        nmiPrev := p.flagDot.nmiOutput } := by
  have hflag : p.flagDot.rendering = false := (Ppu.rendering_of_settings p.settings_flagDot).trans h
  simp only [ppuDot, dotBody, h, Bool.false_and, Bool.false_eq_true, if_false, Ppu.outputPixel, hflag]
  unfold Ppu.advance
  repeat' split
  all_goals rfl

theorem Ppu.oamAddr_flagDot (p : Ppu) : p.flagDot.oamAddr = p.oamAddr := by
  unfold Ppu.flagDot
  repeat' split
  all_goals rfl

/-! ### The DMC's reader through the clock (62 R620, R621) -/

/-- Only the output unit moved: the reader stands where it stood, with the same sample. -/
structure Dmc.SameReader (d e : Dmc) : Prop where
  irqEnable : e.irqEnable = d.irqEnable
  loop : e.loop = d.loop
  sampleAddr : e.sampleAddr = d.sampleAddr
  sampleLen : e.sampleLen = d.sampleLen
  curAddr : e.curAddr = d.curAddr
  bytesRemaining : e.bytesRemaining = d.bytesRemaining
  dmcIrq : e.dmcIrq = d.dmcIrq

theorem Dmc.SameReader.refl (d : Dmc) : d.SameReader d := ⟨rfl, rfl, rfl, rfl, rfl, rfl, rfl⟩

theorem Dmc.SameReader.trans {d e f : Dmc} (h : d.SameReader e) (k : e.SameReader f) : d.SameReader f :=
  ⟨k.irqEnable.trans h.irqEnable, k.loop.trans h.loop, k.sampleAddr.trans h.sampleAddr, k.sampleLen.trans h.sampleLen,
    k.curAddr.trans h.curAddr, k.bytesRemaining.trans h.bytesRemaining, k.dmcIrq.trans h.dmcIrq⟩

theorem Dmc.sameReader_timerStep (d : Dmc) : d.SameReader d.timerStep := by
  unfold Dmc.timerStep Dmc.outputClock Dmc.reloadShift
  dsimp only
  repeat' split
  all_goals exact ⟨rfl, rfl, rfl, rfl, rfl, rfl, rfl⟩

theorem sameReader_tick (s : State) : s.apu.dmc.SameReader s.tick.apu.dmc := by
  have hdmc : s.tick.apu.dmc = s.apu.dmc.timerStep := by simp [State.tick, State.apuStep]
  rw [hdmc]
  exact Dmc.sameReader_timerStep _

theorem sameReader_idle (s : State) (n : Nat) : s.apu.dmc.SameReader (s.idle n).apu.dmc := by
  induction n generalizing s with
  | zero => exact .refl _
  | succ n ih => exact (sameReader_tick s).trans (ih s.tick)

theorem sameReader_readAndTick (s : State) (a : Addr) : s.apu.dmc.SameReader (s.readAndTick a).2.apu.dmc := by
  have hbus : (s.busRead a).2.apu.dmc = s.apu.dmc := by
    unfold State.busRead
    repeat' split
    all_goals rfl
  have htick := sameReader_tick ((s.busRead a).2.latch (s.busRead a).1)
  rwa [State.latch_apu, hbus] at htick

/-! ### The delivery of a byte (62 R621, R630, R631) -/

section Deliver

variable (d : Dmc) (b : Byte)

/-- The byte taken into the buffer, and the reader one on, at the end of the sample or not (R621, R631). -/
def Dmc.take (d : Dmc) (b : Byte) : Dmc :=
  { d with
    buffer := b
    bufferFull := true
    curAddr := if d.curAddr = 0xFFFF then 0x8000 else d.curAddr + 1
    bytesRemaining := d.bytesRemaining - 1 }

/-- The count reaches 0 from 1 alone. -/
theorem Dmc.deliver_eq : d.deliver b = if d.bytesRemaining = 1 then (d.take b).sampleEnd else d.take b := by
  have hlast : (d.take b).bytesRemaining = 0 ↔ d.bytesRemaining = 1 := by
    show d.bytesRemaining - 1 = 0 ↔ d.bytesRemaining = 1
    constructor <;> intro h <;> bv_omega
  by_cases h : d.bytesRemaining = 1
  · rw [if_pos h]
    exact if_pos (hlast.2 h)
  · rw [if_neg h]
    exact if_neg fun hzero => h (hlast.1 hzero)

theorem Dmc.deliver_of_stop (h : d.bytesRemaining = 1) (hloop : d.loop = false) :
    d.deliver b = { d.take b with dmcIrq := d.dmcIrq || d.irqEnable } := by
  have htake : (d.take b).loop = false := hloop
  rw [Dmc.deliver_eq, if_pos h, Dmc.sampleEnd, htake]
  cases hirq : d.irqEnable <;> simp [Dmc.take, hirq, hloop]

theorem Dmc.deliver_of_loop (h : d.bytesRemaining = 1) (hloop : d.loop = true) :
    d.deliver b = { d.take b with curAddr := d.sampleAddr, bytesRemaining := d.sampleLen } := by
  rw [Dmc.deliver_eq, if_pos h, Dmc.sampleEnd, if_pos (by exact hloop)]
  rfl

theorem Dmc.deliver_of_more (h : d.bytesRemaining ≠ 1) : d.deliver b = d.take b := by
  rw [Dmc.deliver_eq, if_neg h]

theorem Dmc.deliver_buffer : (d.deliver b).buffer = b ∧ (d.deliver b).bufferFull = true := by
  by_cases h : d.bytesRemaining = 1
  · cases hloop : d.loop with
    | false => rw [Dmc.deliver_of_stop d b h hloop]; exact ⟨rfl, rfl⟩
    | true => rw [Dmc.deliver_of_loop d b h hloop]; exact ⟨rfl, rfl⟩
  · rw [Dmc.deliver_of_more d b h]; exact ⟨rfl, rfl⟩

/-- Unless the sample starts again, the reader goes on to the next address (R631). -/
theorem Dmc.deliver_next (h : d.bytesRemaining ≠ 1 ∨ d.loop = false) :
    (d.deliver b).curAddr = (if d.curAddr = 0xFFFF then 0x8000 else d.curAddr + 1)
      ∧ (d.deliver b).bytesRemaining = d.bytesRemaining - 1 := by
  by_cases hlast : d.bytesRemaining = 1
  · rw [Dmc.deliver_of_stop d b hlast (h.resolve_left fun hne => hne hlast)]
    exact ⟨rfl, rfl⟩
  · rw [Dmc.deliver_of_more d b hlast]
    exact ⟨rfl, rfl⟩

theorem Dmc.deliver_dmcIrq :
    (d.deliver b).dmcIrq = (d.dmcIrq || (d.bytesRemaining == 1 && !d.loop && d.irqEnable)) := by
  by_cases h : d.bytesRemaining = 1
  · cases hloop : d.loop with
    | false => simp [Dmc.deliver_of_stop d b h hloop, h]
    | true => simp [Dmc.deliver_of_loop d b h hloop, Dmc.take]
  · rw [Dmc.deliver_of_more d b h, beq_eq_false_iff_ne.2 h]
    simp [Dmc.take]

end Deliver

/-! ### Serving the DMC (63 R665) -/

/-- Serving the DMC delivers a byte to a DMC whose reader has not moved since. -/
theorem serveDmc_dmc (s : State) {b : Byte} (h : s.memByte s.apu.dmc.curAddr = some b) :
    ∃ d, s.apu.dmc.SameReader d ∧ s.serveDmc.apu.dmc = d.deliver b := by
  have hidle := sameReader_idle s (Config.dmcStall - 1)
  refine ⟨_, hidle.trans (sameReader_readAndTick _ (s.idle (Config.dmcStall - 1)).apu.dmc.curAddr), ?_⟩
  have hbyte : ((s.idle (Config.dmcStall - 1)).readAndTick (s.idle (Config.dmcStall - 1)).apu.dmc.curAddr).1 = b :=
    readAndTick_of_memByte (by rw [hidle.curAddr, (calm_idle s _).memByte, h])
  simp only [State.serveDmc, State.dmcDeliver, hbyte]

/-- The bus DMA but for the DMC's request, which alone the clock raises (62 R621). -/
def Dma.oamPart (d : Dma) : Dma := { d with dmcPending := false }

@[simp] theorem oamPart_tick (s : State) : s.tick.dma.oamPart = s.dma.oamPart := by simp [Dma.oamPart]

theorem oamPart_idle (s : State) (n : Nat) : (s.idle n).dma.oamPart = s.dma.oamPart := by
  induction n generalizing s with
  | zero => rfl
  | succ n ih => rw [State.idle, ih, oamPart_tick]

theorem oamPart_readAndTick (s : State) (a : Addr) : (s.readAndTick a).2.dma.oamPart = s.dma.oamPart := by
  simp only [State.readAndTick, oamPart_tick, State.latch_dma, busRead_dma]

theorem oamPart_oamCopy (s : State) (page : Byte) (n : Nat) : (s.oamCopy page n).dma.oamPart = s.dma.oamPart := by
  induction n generalizing s with
  | zero => rfl
  | succ n ih =>
    simp only [State.oamCopy, ih, State.dmaWriteOam, oamPart_tick, State.latch_dma, State.dmaPut, oamPart_readAndTick]

theorem serveDmc_dma (s : State) : s.serveDmc.dma = s.dma.oamPart := by
  simp only [State.serveDmc, State.dmcDeliver]
  exact (oamPart_readAndTick _ _).trans (oamPart_idle s _)

theorem serveOam_oamPending (s : State) : s.serveOam.dma.oamPending = false := by
  have hpart : s.serveOam.dma.oamPart = s.oamDmaStart.dma.oamPart := by
    rw [State.serveOam, oamPart_oamCopy, oamPart_idle]
  exact congrArg Dma.oamPending hpart

/-! ### The order of service (63 R662, log 26) -/

section ServiceDma

variable {s : State}

theorem serveDmcIfPending_of_not_pending (h : s.dma.dmcPending = false) : s.serveDmcIfPending = s := by
  simp [State.serveDmcIfPending, h]

theorem serveOamIfPending_of_not_pending (h : s.dma.oamPending = false) : s.serveOamIfPending = s := by
  simp [State.serveOamIfPending, h]

theorem serveDmcIfPending_dmcPending (s : State) : s.serveDmcIfPending.dma.dmcPending = false := by
  cases h : s.dma.dmcPending with
  | false => rw [serveDmcIfPending_of_not_pending h, h]
  | true =>
    rw [State.serveDmcIfPending, h, if_pos rfl, serveDmc_dma]
    rfl

theorem serveOamIfPending_oamPending (s : State) : s.serveOamIfPending.dma.oamPending = false := by
  cases h : s.dma.oamPending with
  | false => rw [serveOamIfPending_of_not_pending h, h]
  | true => rw [State.serveOamIfPending, h, if_pos rfl, serveOam_oamPending]

theorem serviceDma_dmcPending (s : State) : s.serviceDma.dma.dmcPending = false := serveDmcIfPending_dmcPending _

theorem serviceDma_oamPending (s : State) : s.serviceDma.dma.oamPending = false :=
  ((oamKept_serveDmcIfPending _).kept (serveOamIfPending_oamPending s.serveDmcIfPending)).1

theorem serviceDma_of_idle (hdmc : s.dma.dmcPending = false) (hoam : s.dma.oamPending = false) : s.serviceDma = s := by
  rw [State.serviceDma, serveDmcIfPending_of_not_pending hdmc, serveOamIfPending_of_not_pending hoam,
    serveDmcIfPending_of_not_pending hdmc]

theorem serviceDma_of_dmc (hdmc : s.dma.dmcPending = true) : s.serviceDma = s.serveDmc.serviceDma := by
  have hserved : s.serveDmcIfPending = s.serveDmc := by rw [State.serveDmcIfPending, if_pos hdmc]
  have hdone : s.serveDmc.serveDmcIfPending = s.serveDmc :=
    serveDmcIfPending_of_not_pending (by rw [serveDmc_dma]; rfl)
  rw [State.serviceDma, State.serviceDma, hserved, hdone]

theorem serviceDma_of_oam (hdmc : s.dma.dmcPending = false) (hoam : s.dma.oamPending = true) :
    s.serviceDma = s.serveOam.serviceDma := by
  have hserved : s.serveOamIfPending = s.serveOam := by rw [State.serveOamIfPending, if_pos hoam]
  have hdone : s.serveOam.serveDmcIfPending.serveOamIfPending = s.serveOam.serveDmcIfPending :=
    serveOamIfPending_of_not_pending ((oamKept_serveDmcIfPending _).kept (serveOam_oamPending s)).1
  rw [State.serviceDma, State.serviceDma, serveDmcIfPending_of_not_pending hdmc, hserved, hdone,
    serveDmcIfPending_of_not_pending (serveDmcIfPending_dmcPending s.serveOam)]

end ServiceDma

/-! ### The OAM DMA's copy (63 R660-R663) -/

theorem busWrite_oamDma (s : State) (v : Byte) : s.busWrite 0x4014 v = s.oamDmaRequest v := rfl

/-- From `p` to `q` OAM and OAMADDR are as before, and rendering is off. -/
structure Ppu.OamStands (p q : Ppu) : Prop where
  oam : q.oam = p.oam
  oamAddr : q.oamAddr = p.oamAddr
  idle : q.rendering = false

section OamStands

variable {p : Ppu}

theorem Ppu.OamStands.refl (h : p.rendering = false) : p.OamStands p := ⟨rfl, rfl, h⟩

theorem Ppu.OamStands.ppuDot {q : Ppu} (h : p.OamStands q) (c : Cart) : p.OamStands (ppuDot q c).1 := by
  refine ⟨(oam_ppuDot q c).trans h.oam, ?_, (Ppu.rendering_of_settings (settings_ppuDot q c)).trans h.idle⟩
  rw [ppuDot_of_idle h.idle c]
  exact (Ppu.oamAddr_flagDot q).trans h.oamAddr

theorem Ppu.OamStands.tick {s : State} (h : p.OamStands s.ppu) : p.OamStands s.tick.ppu :=
  tick_ppu (P := fun _ q => p.OamStands q) (fun _ _ c hq => hq.ppuDot c) (n := 0) h

theorem Ppu.OamStands.idle_cycles {s : State} (h : p.OamStands s.ppu) (n : Nat) : p.OamStands (s.idle n).ppu := by
  induction n generalizing s with
  | zero => exact h
  | succ n ih => exact ih h.tick

end OamStands

/-- A read of internal RAM, in a DMA cycle. -/
theorem readAndTick_ram (s : State) {a : Addr} (ha : a.toNat < 0x2000) :
    s.readAndTick a = (s.ramByte a, (s.latch (s.ramByte a)).tick) := by
  simp only [State.readAndTick, State.busRead, if_pos ha]

/-- A pair of the copy: the byte of internal RAM goes to OAM at OAMADDR, which steps. -/
theorem dmaPair_of_idle {s t : State} (h : s.ppu.rendering = false) {a : Addr} (ha : a.toNat < 0x2000)
    (ht : t = (s.readAndTick a).2.dmaWriteOam (s.readAndTick a).1) :
    t.ppu.oam = memSet s.ppu.oam s.ppu.oamAddr.toNat (s.ramByte a) ∧ t.ppu.oamAddr = s.ppu.oamAddr + 1
      ∧ t.ppu.rendering = false ∧ t.ram = s.ram := by
  subst ht
  simp only [readAndTick_ram s ha, State.dmaWriteOam]
  generalize s.ramByte a = b
  obtain ⟨hoam, haddr, hidle⟩ := (Ppu.OamStands.refl h).tick (s := s.latch b)
  let put := ((s.latch b).tick.dmaPut b).latch b
  obtain ⟨hoam', haddr', hidle'⟩ := (Ppu.OamStands.refl (p := put.ppu) hidle).tick (s := put)
  refine ⟨hoam'.trans ?_, haddr'.trans (congrArg (· + 1) haddr), hidle', by simp [State.dmaPut]⟩
  show memSet (s.latch b).tick.ppu.oam (s.latch b).tick.ppu.oamAddr.toNat b = _
  rw [hoam, haddr]

/-- The last `n` pairs of a copy from a page of internal RAM: they fill the `n` bytes from OAMADDR on, wrapping, and no other,
and step OAMADDR `n` times. -/
theorem oam_oamCopy {s : State} {page : Byte} (h : s.ppu.rendering = false) (hpage : page.toNat < 0x20) {n : Nat}
    (hn : n ≤ 256) :
    (∀ k, k < 256 → memGet (s.oamCopy page n).ppu.oam ((s.ppu.oamAddr.toNat + k) % 256) =
        if k < n then s.ramByte (joinBytes page (BitVec.ofNat 8 (256 - n + k)))
        else memGet s.ppu.oam ((s.ppu.oamAddr.toNat + k) % 256))
      ∧ (s.oamCopy page n).ppu.oamAddr = s.ppu.oamAddr + BitVec.ofNat 8 n := by
  induction n generalizing s with
  | zero => exact ⟨fun k _ => rfl, by simp [State.oamCopy]⟩
  | succ n ih =>
    have ha : (joinBytes page (BitVec.ofNat 8 (255 - n))).toNat < 0x2000 := by
      rw [toNat_joinBytes]; omega
    obtain ⟨hoam, haddr, hidle, hram⟩ := dmaPair_of_idle h ha rfl
    obtain ⟨hcopy, hend⟩ := ih hidle (by omega)
    have hcell : ∀ k, ((s.ppu.oamAddr + 1).toNat + k) % 256 = (s.ppu.oamAddr.toNat + (k + 1)) % 256 := fun k => by
      rw [BitVec.toNat_add]; simp; omega
    simp only [State.oamCopy]
    rw [haddr] at hend
    rw [hoam, haddr] at hcopy
    simp only [hcell, State.ramByte, hram] at hcopy
    refine ⟨fun k hk => ?_, ?_⟩
    · cases k with
      | zero =>
        have hfirst : (s.ppu.oamAddr.toNat + 0) % 256 = s.ppu.oamAddr.toNat := by omega
        have hwrap : (s.ppu.oamAddr.toNat + (255 + 1)) % 256 = s.ppu.oamAddr.toNat := by omega
        have hbyte := hcopy 255 (by omega)
        rw [hwrap, if_neg (by omega), memGet_memSet_same] at hbyte
        rw [hfirst, if_pos (by omega), hbyte, show 256 - (n + 1) + 0 = 255 - n by omega]
        rfl
      | succ k =>
        have hother : (s.ppu.oamAddr.toNat + (k + 1)) % 256 ≠ s.ppu.oamAddr.toNat := by omega
        rw [hcopy k (by omega), memGet_memSet, if_neg hother,
          show 256 - (n + 1) + (k + 1) = 256 - n + k by omega]
        simp only [Nat.add_lt_add_iff_right]
        rfl
    · rw [hend, BitVec.add_assoc, Nat.add_comm n 1, BitVec.ofNat_add]
      rfl

/-- From a page of internal RAM with rendering off, all 256 bytes are copied. -/
theorem oam_serveOam {s : State} (h : s.ppu.rendering = false) (hpage : s.dma.oamPage.toNat < 0x20) :
    (∀ k, k < 256 → memGet s.serveOam.ppu.oam ((s.ppu.oamAddr.toNat + k) % 256)
        = s.ramByte (joinBytes s.dma.oamPage (BitVec.ofNat 8 k)))
      ∧ s.serveOam.ppu.oamAddr = s.ppu.oamAddr := by
  obtain ⟨-, haddr, hidle⟩ :=
    (Ppu.OamStands.refl h).idle_cycles (s := s.oamDmaStart) (if s.cycles % 2 = 1 then 2 else 1)
  have hram := (calm_idle s.oamDmaStart (if s.cycles % 2 = 1 then 2 else 1)).ram
  obtain ⟨hcopy, hend⟩ := oam_oamCopy hidle hpage (Nat.le_refl 256)
  rw [haddr] at hcopy hend
  refine ⟨fun k hk => ?_, hend.trans (BitVec.add_zero _)⟩
  have hbyte := hcopy k hk
  rw [if_pos hk, Nat.sub_self, Nat.zero_add, State.ramByte, hram] at hbyte
  exact hbyte

/-! ### The controller ports (R671, R672) -/

section Pads

variable {k : Pads} (port1 : Bool) (latch : Byte)

/-- The shift register of a port. -/
def Pads.shift (k : Pads) (port1 : Bool) : Byte := if port1 then k.shift1 else k.shift0

/-- The buttons of a port. -/
def Pads.buttons (k : Pads) (port1 : Bool) : Byte := if port1 then k.buttons1 else k.buttons0

theorem Pads.strobeWrite_high (k : Pads) {v : Byte} (h : v.getLsbD 0 = true) :
    k.strobeWrite v = { k with strobe := true } := by
  simp only [Pads.strobeWrite, h, Bool.not_true, Bool.and_false, Bool.false_eq_true, if_false]

/-- The strobe's fall takes a snapshot of both ports. -/
theorem Pads.strobeWrite_fall {v : Byte} (hk : k.strobe = true) (h : v.getLsbD 0 = false) :
    k.strobeWrite v = { k with strobe := false, shift0 := k.buttons0, shift1 := k.buttons1 } := by
  simp only [Pads.strobeWrite, hk, h, Bool.not_false, Bool.and_self, if_true]

theorem Pads.strobe_pulse (k : Pads) {up down : Byte} (hup : up.getLsbD 0 = true) (hdown : down.getLsbD 0 = false) :
    ((k.strobeWrite up).strobeWrite down).strobe = false
      ∧ ((k.strobeWrite up).strobeWrite down).shift port1 = k.buttons port1 := by
  rw [Pads.strobeWrite_high k hup, Pads.strobeWrite_fall rfl hdown]
  exact ⟨rfl, rfl⟩

/-- With the strobe low a read delivers bit 0 of the port's register and shifts a 1 in at the top. -/
theorem Pads.read_of_strobe_low (h : k.strobe = false) :
    (k.read port1 latch).1 = ((latch &&& 0xE0) ||| (BitVec.ofBool ((k.shift port1).getLsbD 0)).setWidth 8)
      ∧ (k.read port1 latch).2.strobe = false
      ∧ (k.read port1 latch).2.shift port1 = ((k.shift port1) >>> 1 ||| 0x80) := by
  cases port1 <;> simp [Pads.read, Pads.shift, h]

/-- After `n` reads bit `i` of the register is what bit `i + n` was, and 1 where that is past the eighth. -/
theorem Pads.shift_afterReads (h : k.strobe = false) (n : Nat) :
    (k.afterReads port1 latch n).strobe = false
      ∧ ∀ i, i < 8 → ((k.afterReads port1 latch n).shift port1).getLsbD i
          = (decide (8 ≤ i + n) || (k.shift port1).getLsbD (i + n)) := by
  induction n with
  | zero =>
    refine ⟨h, fun i hi => ?_⟩
    rw [Nat.add_zero, decide_eq_false (Nat.not_le.2 hi), Bool.false_or]
    rfl
  | succ n ih =>
    obtain ⟨hstrobe, hbits⟩ := ih
    obtain ⟨-, hstrobe', hshift⟩ := Pads.read_of_strobe_low (k := k.afterReads port1 latch n) port1 latch hstrobe
    refine ⟨hstrobe', fun i hi => ?_⟩
    rw [Pads.afterReads, hshift, BitVec.getLsbD_or, BitVec.getLsbD_ushiftRight]
    by_cases h7 : i = 7
    · subst h7
      simp only [show 8 ≤ 7 + (n + 1) by omega, decide_true, Bool.true_or]
      exact Bool.or_true _
    · have hlow : ∀ j, j < 7 → (0x80 : Byte).getLsbD j = false := by decide
      rw [Nat.add_comm 1 i, hbits (i + 1) (by omega), hlow i (by omega), Bool.or_false, Nat.add_assoc, Nat.add_comm 1 n]

end Pads

/-! ### The obligations -/

/-- Settles O48: cycles and registers hold of every OAM DMA; with rendering off the dots between the pairs leave OAM and
OAMADDR alone. -/
theorem oamDmaTakes513CyclesAndCopiesAPage : Obligations.OamDmaTakes513CyclesAndCopiesAPage := by
  intro s
  refine ⟨busWrite_oamDma s, ?_, (calm_serveOam s).cpu, (calm_serveOam s).ram, oam_serveOam⟩
  rw [cycles_serveOam]
  split <;> omega

/-- Settles O49: the four cycles leave the DMC's reader where it stood, and the delivery steps it. -/
theorem dmcDmaFetchesOneByte : Obligations.DmcDmaFetchesOneByte := by
  intro s b hb
  obtain ⟨d, hsame, hdmc⟩ := serveDmc_dmc s hb
  have hnext := d.deliver_next b
  have hrestart := d.deliver_of_loop b
  rw [hsame.bytesRemaining, hsame.loop, hsame.curAddr] at hnext
  rw [hsame.bytesRemaining, hsame.loop, hsame.sampleAddr, hsame.sampleLen] at hrestart
  refine ⟨_, _, rfl, rfl, cycles_serveDmc s, ?_⟩
  rw [hdmc]
  refine ⟨(d.deliver_buffer b).1, (d.deliver_buffer b).2, serveDmc_dma s, (calm_serveDmc s).cpu, (calm_serveDmc s).ram,
    hnext, fun hlast hloop => ?restart, ?irq⟩
  case restart =>
    rw [hrestart hlast hloop]
    exact ⟨rfl, rfl⟩
  case irq => rw [Dmc.deliver_dmcIrq, hsame.dmcIrq, hsame.bytesRemaining, hsame.loop, hsame.irqEnable]

/-- Settles O50: each of the three turns does nothing where its request is not pending, and serving ends it. -/
theorem dmaIsServedBeforeReadsDmcFirst : Obligations.DmaIsServedBeforeReadsDmcFirst := by
  intro s a v
  exact ⟨rfl, rfl, serviceDma_dmcPending s, serviceDma_oamPending s, serviceDma_of_dmc, serviceDma_of_oam,
    serviceDma_of_idle⟩

/-- Settles O60: the snapshot, shifted once by each read. -/
theorem controllerReadsReturnTheButtonsInOrder : Obligations.ControllerReadsReturnTheButtonsInOrder := by
  intro k up down latch port1 n hup hdown
  obtain ⟨hlow, hsnapshot⟩ := Pads.strobe_pulse port1 k hup hdown
  obtain ⟨hlow', hbits⟩ := Pads.shift_afterReads port1 latch hlow n
  rw [(Pads.read_of_strobe_low port1 latch hlow').1, hbits 0 (by omega), hsnapshot, Nat.zero_add]
  congr 1
  show _ = if 8 ≤ n then 1 else if (k.buttons port1).getLsbD n then 1 else 0
  by_cases hn : 8 ≤ n
  · rw [if_pos hn, decide_eq_true hn]
    rfl
  · rw [if_neg hn, decide_eq_false hn]
    cases (k.buttons port1).getLsbD n <;> rfl

end Sys2Proof.Machine
end

section
/-!
PROOFS. The reset sequence and power-on (70_reset_and_hazards.md R691, R692, R700, R701). The devices are silenced before the first
of the sequence's seven reads, so that no DMA comes between them: what every read keeps, the sequence keeps
(`resetSequence_induction`).
-/

namespace Sys2Proof.Machine

/-! ### The sequence as seven reads (R692) -/

theorem noDma_resetDevices (s : State) : s.resetDevices.noDma = true := rfl

theorem memRead_of_noDma {s : State} (a : Addr) (h : s.noDma = true) : s.memRead a = s.readAndTick a := by
  obtain ⟨hoam, hdmc, -⟩ := (State.noDma_iff s).1 h
  rw [State.memRead, serviceDma_of_idle hdmc hoam]

/-- What a read with its tick and a change of registers keep, the reset sequence keeps; `P` may count its reads down. -/
theorem resetSequence_induction {P : Nat → State → Prop}
    (hread : ∀ n u a, u.noDma = true → P (n + 1) u → P n (u.readAndTick a).2)
    (hregs : ∀ n t u, CpuOnly t u → P n t → P n u) {s : State} (h : P 7 s.resetDevices) : P 0 s.resetSequence := by
  have hnext : ∀ {n u} (a : Addr), (u.noDma = true ∧ P (n + 1) u) →
      (u.memRead a).2.noDma = true ∧ P n (u.memRead a).2 := fun {n u} a ⟨hu, hp⟩ =>
    ⟨(memRead_noDma a hu).1, by rw [memRead_of_noDma a hu]; exact hread n u a hu hp⟩
  have hkeep : ∀ {n t u}, CpuOnly t u → (t.noDma = true ∧ P n t) → u.noDma = true ∧ P n u :=
    fun k ⟨ht, hp⟩ => ⟨(k.costs ht).1, hregs _ _ _ k hp⟩
  have hstack := hnext (stackAddr (s.sp - 2)) (hnext (stackAddr (s.sp - 1)) (hnext (stackAddr s.sp)
    (hnext s.pc (hnext s.pc ⟨noDma_resetDevices s, h⟩))))
  have hvector := hnext resetVector (hkeep (cpuOnly_withSp _ 0xFD) hstack)
  exact (hkeep (cpuOnly_withPc _ _) (hnext (resetVector + 1) (hkeep (cpuOnly_withP _ (.ofByte 0x24)) hvector))).2

theorem memRead_busLatch (s : State) (a : Addr) : (s.memRead a).2.busLatch = (s.memRead a).1 := by
  simp [State.memRead, State.readAndTick]

theorem resetDevices_cpu (s : State) : s.resetDevices.cpu = { s.cpu with jammed := false, resetPending := false } := rfl

theorem resetDevices_memByte (s : State) (a : Addr) : s.resetDevices.memByte a = s.memByte a := rfl

/-- The last two reads of the sequence: the vector, with P set between its bytes. -/
def State.enterReset (s : State) : State :=
  let l := s.memRead resetVector
  let h := (l.2.withP (.ofByte 0x24)).memRead (resetVector + 1)
  h.2.withPc (joinBytes h.1 l.1)

theorem enterReset_spec (s : State) : ∃ l h,
    s.enterReset.cpu = { s.cpu with p := .ofByte 0x24, pc := joinBytes h l }
      ∧ (∀ b, s.memByte 0xFFFC = some b → l = b) ∧ (∀ b, s.memByte 0xFFFD = some b → h = b)
      ∧ s.enterReset.busLatch = h := by
  refine ⟨(s.memRead resetVector).1, (((s.memRead resetVector).2.withP (.ofByte 0x24)).memRead (resetVector + 1)).1,
    by simp [State.enterReset], fun b hb => memRead_of_memByte hb, fun b hb => memRead_of_memByte ?_,
    memRead_busLatch _ _⟩
  rw [State.withP_memByte, memRead_memByte]
  exact hb

/-- The registers after the sequence, and the two bytes of the vector, the second of which stays on the data bus. -/
theorem resetSequence_cpu (s : State) : ∃ l h,
    s.resetSequence.cpu
        = { s.cpu with sp := 0xFD, p := .ofByte 0x24, pc := joinBytes h l, jammed := false, resetPending := false }
      ∧ (∀ b, s.memByte 0xFFFC = some b → l = b) ∧ (∀ b, s.memByte 0xFFFD = some b → h = b)
      ∧ s.resetSequence.busLatch = h := by
  obtain ⟨u, hcpu, hmem, heq⟩ : ∃ u : State,
      u.cpu = { s.cpu with sp := 0xFD, jammed := false, resetPending := false } ∧ (∀ a, u.memByte a = s.memByte a)
        ∧ s.resetSequence = u.enterReset :=
    ⟨_, by simp [resetDevices_cpu], fun a => by simp [resetDevices_memByte], rfl⟩
  obtain ⟨l, h, hregs, hl, hh, hlatch⟩ := enterReset_spec u
  rw [hcpu] at hregs
  rw [hmem] at hl hh
  rw [heq]
  exact ⟨l, h, hregs, hl, hh, hlatch⟩

/-! ### Registers of the PPU and APU through a read cycle -/

section ReadCycle

variable {s : State} (a : Addr)

theorem busRead_ppu {P : Ppu → Prop} (hreg : ∀ p c r, P p → P (ppuRegRead p c r).2.1) (h : P s.ppu) :
    P (s.busRead a).2.ppu := by
  have hread := hreg s.ppu s.cart (a.toNat % 8) h
  unfold State.busRead
  repeat' split
  all_goals first | exact h | exact hread

/-- What register reads and dots keep, a read with its tick keeps; `P` may count the dots down. -/
theorem readAndTick_ppu {P : Nat → Ppu → Prop} (hreg : ∀ n p c r, P n p → P n (ppuRegRead p c r).2.1)
    (hdot : ∀ n p c, P (n + 1) p → P n (ppuDot p c).1) {n : Nat} (h : P (n + 3) s.ppu) :
    P n (s.readAndTick a).2.ppu :=
  tick_ppu hdot (s := (s.busRead a).2.latch (s.busRead a).1) (busRead_ppu a (hreg (n + 3)) h)

theorem tick_apu (s : State) : s.tick.apu = s.apu.step s.cycles := by simp [State.tick, State.apuStep]

/-- What a $4015 read and a step of the APU keep, a read with its tick keeps. -/
theorem readAndTick_apu {P Q : Apu → Prop} (hread : ∀ u, P u → P u.afterStatusRead)
    (hstep : ∀ u n, P u → Q (u.step n))
    (h : P s.apu) : Q (s.readAndTick a).2.apu := by
  have hbus : P (s.busRead a).2.apu := by
    have hstatus := hread s.apu h
    unfold State.busRead
    repeat' split
    all_goals first | exact h | exact hstatus
  simp only [State.readAndTick, tick_apu, State.latch_apu]
  exact hstep _ _ hbus

end ReadCycle

/-- A register read is a PPUSTATUS read, or it moves at most PPUDATA's buffer and address and the open bus (61 R508-R519). -/
theorem ppuRegRead_ppu (p : Ppu) (c : Cart) (r : Nat) :
    (ppuRegRead p c r).2.1 = p.readStatus.2
      ∨ ∃ b v o, (ppuRegRead p c r).2.1 = { p with readBuffer := b, v := v, openBus := o } := by
  unfold ppuRegRead
  split
  · exact .inl rfl
  · exact .inr ⟨_, _, _, rfl⟩
  · refine .inr ?_
    unfold readData
    dsimp only
    split <;> exact ⟨_, _, _, rfl⟩
  · exact .inr ⟨_, _, _, rfl⟩

theorem clock_ppuRegRead (p : Ppu) (c : Cart) (r : Nat) : (ppuRegRead p c r).2.1.clock = p.clock := by
  obtain h | ⟨_, _, _, h⟩ := ppuRegRead_ppu p c r <;> rw [h] <;> rfl

/-! ### The PPU after a reset (R691, 61 R506) -/

/-- What a reset clears, and the dots and reads of its sequence leave clear. The VBL flag may be held back only at the position
of the race, where the next dot ends that (61 R549). -/
structure Ppu.Silent (p : Ppu) : Prop where
  ctrl : p.ctrl = 0
  mask : p.mask = 0
  sprite0Hit : p.sprite0Hit = false
  spriteOverflow : p.spriteOverflow = false
  w : p.w = false
  nmiPrev : p.nmiPrev = false
  race : p.suppressVbl = true → p.atVblDot = true

section Silent

variable {p : Ppu}

theorem Ppu.silent_reset (p : Ppu) : p.reset.Silent := ⟨rfl, rfl, rfl, rfl, rfl, rfl, nofun⟩

theorem Ppu.Silent.rendering (h : p.Silent) : p.rendering = false := by
  simp [Ppu.rendering, Ppu.showBg, Ppu.showSpr, h.mask]

theorem Ppu.Silent.ppuRegRead (h : p.Silent) (c : Cart) (r : Nat) : (ppuRegRead p c r).2.1.Silent := by
  obtain ⟨hctrl, hmask, hhit, hover, hw, hprev, hrace⟩ := h
  obtain hstatus | ⟨_, _, _, hdata⟩ := ppuRegRead_ppu p c r
  · rw [hstatus]
    exact ⟨hctrl, hmask, hhit, hover, rfl, hprev, fun hs => (Bool.or_eq_true_iff.1 hs).elim hrace id⟩
  · rw [hdata]
    exact ⟨hctrl, hmask, hhit, hover, hw, hprev, hrace⟩

/-- The flags of a dot, with the race's suppression over. -/
theorem Ppu.Silent.flagDot (h : p.Silent) : p.flagDot.Silent ∧ p.flagDot.suppressVbl = false := by
  obtain ⟨hctrl, hmask, hhit, hover, hw, hprev, hrace⟩ := h
  unfold Ppu.flagDot
  split
  · split
    · exact ⟨⟨hctrl, hmask, hhit, hover, hw, hprev, nofun⟩, rfl⟩
    · next hs => exact ⟨⟨hctrl, hmask, hhit, hover, hw, hprev, hrace⟩, Bool.eq_false_iff.2 hs⟩
  · next hpos =>
    have hs : p.suppressVbl = false := Bool.eq_false_iff.2 fun hs => hpos (hrace hs)
    split
    · exact ⟨⟨hctrl, hmask, rfl, rfl, hw, hprev, hrace⟩, hs⟩
    · exact ⟨⟨hctrl, hmask, hhit, hover, hw, hprev, hrace⟩, hs⟩

theorem Ppu.Silent.ppuDot (h : p.Silent) (c : Cart) :
    (ppuDot p c).1.Silent ∧ (ppuDot p c).1.suppressVbl = false := by
  obtain ⟨⟨hctrl, hmask, hhit, hover, hw, -, -⟩, hs⟩ := h.flagDot
  have hout : p.flagDot.nmiOutput = false := by simp [Ppu.nmiOutput, hctrl]
  rw [ppuDot_of_idle h.rendering c]
  refine ⟨⟨hctrl, hmask, hhit, hover, hw, hout, fun hset => ?_⟩, hs⟩
  exact absurd (hset.symm.trans hs) (by decide)

end Silent

/-- VBL is clear, and the VBL dot (241, 1) is more than `n` dots away. -/
structure Ppu.BeforeVbl (n : Nat) (p : Ppu) : Prop where
  vbl : p.vbl = false
  line : p.scanline ≠ 241
  dot : p.scanline = 240 → p.dot + n ≤ 340
  within : n ≤ 340

section BeforeVbl

variable {n : Nat} {p : Ppu}

theorem Ppu.BeforeVbl.ppuRegRead (h : p.BeforeVbl n) (c : Cart) (r : Nat) : (ppuRegRead p c r).2.1.BeforeVbl n := by
  obtain ⟨hvbl, hline, hdot, hn⟩ := h
  obtain hstatus | ⟨_, _, _, hdata⟩ := ppuRegRead_ppu p c r
  · rw [hstatus]
    exact ⟨rfl, hline, hdot, hn⟩
  · rw [hdata]
    exact ⟨hvbl, hline, hdot, hn⟩

theorem Ppu.vbl_flagDot_of_line (hvbl : p.vbl = false) (hline : p.scanline ≠ 241) : p.flagDot.vbl = false := by
  have hpos : p.atVblDot = false := by simp [Ppu.atVblDot, hline]
  simp only [Ppu.flagDot, hpos, Bool.false_eq_true, if_false]
  split
  · rfl
  · exact hvbl

/-- A line takes 341 dots, so that from no other line but 240, near its end, the next dot comes to the VBL dot's line. -/
theorem FrameClock.next_before_vbl {k : FrameClock} (hline : k.scanline ≠ 241)
    (hdot : k.scanline = 240 → k.dot + (n + 1) ≤ 340) (hn : n ≤ 340) :
    k.next.scanline ≠ 241 ∧ (k.next.scanline = 240 → k.next.dot + n ≤ 340) := by
  unfold FrameClock.next
  split
  · exact ⟨(by decide : (0 : Int) ≠ 241), fun h => absurd h (by decide : (0 : Int) ≠ 240)⟩
  split
  · split
    · exact ⟨(by decide : (-1 : Int) ≠ 241), fun h => absurd h (by decide : (-1 : Int) ≠ 240)⟩
    · refine ⟨?_, fun _ => by rw [lineStart_dot]; omega⟩
      rw [lineStart_scanline]
      omega
  · exact ⟨hline, fun h => by have := hdot h; show k.dot + 1 + n ≤ 340; omega⟩

theorem Ppu.BeforeVbl.ppuDot (h : p.BeforeVbl (n + 1)) (hidle : p.rendering = false) (c : Cart) :
    (ppuDot p c).1.BeforeVbl n := by
  obtain ⟨hvbl, hline, hdot, hn⟩ := h
  have hclock := clock_ppuDot p c
  have hs : (Machine.ppuDot p c).1.scanline = p.clock.next.scanline := congrArg FrameClock.scanline hclock
  have hd : (Machine.ppuDot p c).1.dot = p.clock.next.dot := congrArg FrameClock.dot hclock
  obtain ⟨hline', hdot'⟩ := FrameClock.next_before_vbl (k := p.clock) hline hdot (by omega)
  rw [← hs] at hline' hdot'
  rw [← hd] at hdot'
  refine ⟨?_, hline', hdot', by omega⟩
  rw [ppuDot_of_idle hidle c]
  exact Ppu.vbl_flagDot_of_line hvbl hline

end BeforeVbl

/-! ### The APU after a reset (R691, 62 R584, R591) -/

/-- No length counter runs, and the DMC asserts no IRQ. -/
structure Apu.Silent (u : Apu) : Prop where
  pulse1 : u.pulse1.length = 0
  pulse2 : u.pulse2.length = 0
  tri : u.tri.length = 0
  noise : u.noise.length = 0
  dmcIrq : u.dmc.dmcIrq = false

section ApuSilent

theorem lengthClock_zero (halt : Bool) : lengthClock halt 0 = 0 := by cases halt <;> rfl

theorem Pulse.length_half (p : Pulse) (ones : Bool) : (p.half ones).length = lengthClock p.halt p.length := by
  unfold Pulse.half Pulse.sweepClock
  dsimp only
  split <;> rfl

theorem Pulse.length_timerStep (p : Pulse) : p.timerStep.length = p.length := by
  unfold Pulse.timerStep
  split <;> rfl

theorem Triangle.length_timerStep (t : Triangle) : t.timerStep.length = t.length := by
  unfold Triangle.timerStep
  split <;> rfl

theorem Noise.length_timerStep (n : Noise) : n.timerStep.length = n.length := by
  unfold Noise.timerStep
  split <;> rfl

variable {u : Apu}

theorem Apu.silent_statusWrite_zero (u : Apu) : (u.statusWrite 0).Silent := ⟨rfl, rfl, rfl, rfl, rfl⟩

theorem Apu.Silent.half (h : u.Silent) : u.half.Silent := by
  obtain ⟨h1, h2, ht, hn, hirq⟩ := h
  refine ⟨?_, ?_, ?_, ?_, hirq⟩
  · rw [Apu.half, Pulse.length_half, h1, lengthClock_zero]
  · rw [Apu.half, Pulse.length_half, h2, lengthClock_zero]
  · rw [Apu.half, Triangle.half, ht, lengthClock_zero]
  · rw [Apu.half, Noise.half, hn, lengthClock_zero]

theorem Apu.Silent.quarter (h : u.Silent) : u.quarter.Silent := ⟨h.pulse1, h.pulse2, h.tri, h.noise, h.dmcIrq⟩

/-- The frame counter's own fields do not matter. -/
theorem Apu.Silent.withCount (h : u.Silent) (count delay : Nat) (irq : Bool) :
    ({ u with fc := count, fcDelay := delay, frameIrq := irq } : Apu).Silent :=
  ⟨h.pulse1, h.pulse2, h.tri, h.noise, h.dmcIrq⟩

theorem Apu.Silent.fourStep (h : u.Silent) : u.fourStep.Silent := by
  unfold Apu.fourStep
  split
  · exact h.quarter
  split
  · exact h.quarter.half
  split
  · exact h.quarter.half.withCount _ _ _
  split
  · exact h.withCount _ _ _
  · exact h

theorem Apu.Silent.fiveStep (h : u.Silent) : u.fiveStep.Silent := by
  unfold Apu.fiveStep
  split
  · exact h.quarter
  split
  · exact h.quarter.half
  split
  · exact h.withCount _ _ _
  · exact h

theorem Apu.Silent.sequence (h : u.Silent) : u.sequence.Silent := by
  have hcount := h.withCount (u.fc + 1) u.fcDelay u.frameIrq
  unfold Apu.sequence
  dsimp only
  split
  · exact hcount.fiveStep
  · exact hcount.fourStep

theorem Apu.Silent.frameCounterStep (h : u.Silent) : u.frameCounterStep.Silent := by
  unfold Apu.frameCounterStep
  split
  · exact h.sequence
  split
  · exact h.withCount _ _ _
  · exact (h.withCount u.fc (u.fcDelay - 1) u.frameIrq).sequence

theorem Apu.Silent.step (h : u.Silent) (n : Nat) : (u.step n).Silent := by
  obtain ⟨h1, h2, ht, hn, hirq⟩ := h.frameCounterStep
  refine ⟨?_, ?_, (Triangle.length_timerStep _).trans ht, (Noise.length_timerStep _).trans hn,
    (Dmc.sameReader_timerStep _).dmcIrq.trans hirq⟩
  · show (if _ then u.frameCounterStep.pulse1.timerStep else u.frameCounterStep.pulse1).length = 0
    split
    · rw [Pulse.length_timerStep, h1]
    · exact h1
  · show (if _ then u.frameCounterStep.pulse2.timerStep else u.frameCounterStep.pulse2).length = 0
    split
    · rw [Pulse.length_timerStep, h2]
    · exact h2

theorem Apu.Silent.afterStatusRead (h : u.Silent) : u.afterStatusRead.Silent := h.withCount u.fc u.fcDelay false

end ApuSilent

section AwaitsFrameIrq

variable {u : Apu}

theorem Apu.AwaitsFrameIrq.afterStatusRead (h : u.AwaitsFrameIrq) : u.afterStatusRead.AwaitsFrameIrq :=
  ⟨h.mode, h.delay, h.inhibit, rfl⟩

/-- The timers leave the frame counter alone. -/
theorem Apu.AwaitsFrameIrq.step (h : u.AwaitsFrameIrq) (hfc : u.fc + 1 < 29829) (cycles : Nat) :
    (u.step cycles).AwaitsFrameIrq ∧ (u.step cycles).fc = u.fc + 1 := by
  obtain ⟨hnext, hcount⟩ := h.frameCounterStep hfc
  exact ⟨⟨hnext.mode, hnext.delay, hnext.inhibit, hnext.clear⟩, hcount⟩

end AwaitsFrameIrq

/-! ### What the sequence keeps and clears -/

section Sequence

variable (s : State)

theorem cycles_resetSequence : s.resetSequence.cycles = s.cycles + 7 :=
  resetSequence_induction (P := fun n u => u.cycles + n = s.cycles + 7)
    (fun _ _ a _ h => by rw [cycles_readAndTick]; omega) (fun _ _ _ k h => by rw [k.cycles]; exact h) rfl

theorem noDma_resetSequence : s.resetSequence.noDma = true :=
  resetSequence_induction (P := fun _ u => u.noDma = true) (fun _ _ a _ h => noDma_readAndTick a h)
    (fun _ _ _ k h => (k.costs h).1) (noDma_resetDevices s)

/-- The reads store nothing. -/
theorem storesOnly_resetSequence : StoresOnly [] s.resetDevices s.resetSequence :=
  resetSequence_induction (P := fun _ u => StoresOnly [] s.resetDevices u)
    (fun _ u a _ h => h.quiet ⟨calm_readAndTick u a, oamKept_readAndTick u a⟩) (fun _ _ _ k h => h.cpuOnly k)
    (StoresOnly.refl _)

theorem ram_resetSequence : s.resetSequence.ram = s.ram :=
  resetSequence_induction (P := fun _ u => u.ram = s.ram) (fun _ u a _ h => (calm_readAndTick u a).ram.trans h)
    (fun _ _ _ k h => k.ram.trans h) rfl

theorem known_resetSequence : s.resetSequence.cart.known = s.cart.known :=
  resetSequence_induction (P := fun _ u => u.cart.known = s.cart.known)
    (fun _ u a _ h => (calm_readAndTick u a).known.trans h) (fun _ _ _ k h => (congrArg Cart.known k.cart).trans h) rfl

theorem oamPage_resetSequence : s.resetSequence.dma.oamPage = s.dma.oamPage :=
  resetSequence_induction (P := fun _ u => u.dma.oamPage = s.dma.oamPage)
    (fun _ u a _ h => (congrArg Dma.oamPage (oamPart_readAndTick u a)).trans h)
    (fun _ _ _ k h => (congrArg Dma.oamPage k.dma).trans h) rfl

theorem nmiPending_resetSequence : s.resetSequence.nmiPending = false :=
  (resetSequence_induction (P := fun _ u => u.NmiOff) (fun _ _ a _ h => nmiOff_readAndTick h a)
    (fun _ _ _ k h => h.cpuOnly k) (s := s) ⟨(by decide : (0 : Byte).getLsbD 7 = false), rfl⟩).unlatched

/-- A predicate of the PPU that may count its dots down, through the 21 dots of the sequence. -/
theorem ppu_resetSequence {P : Nat → Ppu → Prop} (hreg : ∀ n p c r, P n p → P n (ppuRegRead p c r).2.1)
    (hdot : ∀ n p c, P (n + 1) p → P n (ppuDot p c).1) (h : P 21 s.ppu.reset) : P 0 s.resetSequence.ppu :=
  resetSequence_induction (P := fun n u => P (3 * n) u.ppu)
    (fun n u a _ hu => readAndTick_ppu a hreg hdot (n := 3 * n) hu) (fun _ _ _ k hu => by rw [k.ppu]; exact hu) h

/-- The dots of a read cycle end a suppression that its read began at the position of the race. -/
theorem silent_readAndTick {u : State} (h : u.ppu.Silent) (a : Addr) :
    (u.readAndTick a).2.ppu.Silent ∧ (u.readAndTick a).2.ppu.suppressVbl = false := by
  have hread : (u.busRead a).2.ppu.Silent := busRead_ppu a (fun _ c r h => h.ppuRegRead c r) h
  let latched := (u.busRead a).2.latch (u.busRead a).1
  exact ((hread.ppuDot latched.cart).1.ppuDot latched.ppuDot.cart).1.ppuDot latched.ppuDot.ppuDot.cart

theorem silent_ppu_resetSequence : s.resetSequence.ppu.Silent ∧ s.resetSequence.ppu.suppressVbl = false :=
  resetSequence_induction (P := fun _ u => u.ppu.Silent ∧ u.ppu.suppressVbl = false)
    (fun _ _ a _ h => silent_readAndTick h.1 a) (fun _ _ _ k h => by rw [k.ppu]; exact h) ⟨s.ppu.silent_reset, rfl⟩

theorem vbl_resetSequence (h240 : s.ppu.scanline ≠ 240) (h241 : s.ppu.scanline ≠ 241) :
    s.resetSequence.ppu.vbl = false := by
  have hlast := ppu_resetSequence s (P := fun n p => p.Silent ∧ p.BeforeVbl n)
    (fun _ _ c r ⟨h, hb⟩ => ⟨h.ppuRegRead c r, hb.ppuRegRead c r⟩)
    (fun _ _ c ⟨h, hb⟩ => ⟨(h.ppuDot c).1, hb.ppuDot h.rendering c⟩)
    ⟨s.ppu.silent_reset, ⟨rfl, h241, fun h => absurd h h240, by decide⟩⟩
  exact hlast.2.vbl

theorem clock_resetSequence : s.resetSequence.ppu.clock = s.ppu.reset.clock.after 21 :=
  ppu_resetSequence s (P := fun n p => p.clock.after n = s.ppu.reset.clock.after 21)
    (fun _ p c r h => by rw [clock_ppuRegRead]; exact h) (fun _ p c h => by rw [clock_ppuDot]; exact h) rfl

theorem secOam_resetSequence : s.resetSequence.ppu.secOam = s.ppu.secOam := by
  have hreg : ∀ p c r, (ppuRegRead p c r).2.1.secOam = p.secOam := fun p c r => by
    obtain h | ⟨_, _, _, h⟩ := ppuRegRead_ppu p c r
    · rw [h]; rfl
    · rw [h]
  have hflag : ∀ p : Ppu, p.flagDot.secOam = p.secOam := fun p => by
    unfold Ppu.flagDot
    repeat' split
    all_goals rfl
  have hlast := ppu_resetSequence s (P := fun _ p => p.Silent ∧ p.secOam = s.ppu.secOam)
    (fun _ p c r ⟨h, hs⟩ => ⟨h.ppuRegRead c r, (hreg p c r).trans hs⟩)
    (fun _ p c ⟨h, hs⟩ => ⟨(h.ppuDot c).1, by rw [ppuDot_of_idle h.rendering c]; exact (hflag p).trans hs⟩)
    ⟨s.ppu.silent_reset, rfl⟩
  exact hlast.2

theorem silent_apu_resetSequence : s.resetSequence.apu.Silent :=
  resetSequence_induction (P := fun _ u => u.apu.Silent)
    (fun _ _ a _ h => readAndTick_apu a (fun _ h => h.afterStatusRead) (fun _ n h => h.step n) h)
    (fun _ _ _ k h => by rw [k.apu]; exact h) s.apu.silent_statusWrite_zero

/-- Seven cycles of the frame counter, where no restart is pending. -/
theorem fc_resetSequence (h : s.apu.AwaitsFrameIrq) (hfc : s.apu.fc = 0) : s.resetSequence.apu.fc = 7 := by
  have hlast := resetSequence_induction (s := s) (P := fun n u => u.apu.AwaitsFrameIrq ∧ u.apu.fc + n = 7)
    (fun n u a _ hu => readAndTick_apu a
      (P := fun w => w.AwaitsFrameIrq ∧ w.fc + (n + 1) = 7) (Q := fun w => w.AwaitsFrameIrq ∧ w.fc + n = 7)
      (fun _ ⟨hw, hn⟩ => ⟨hw.afterStatusRead, hn⟩)
      (fun _ m ⟨hw, hn⟩ => (hw.step (by omega) m).imp_right fun hcount => by omega) hu)
    (fun _ _ _ k hu => by rw [k.apu]; exact hu)
    ⟨⟨h.mode, h.delay, h.inhibit, h.clear⟩, by show s.apu.fc + 7 = 7; omega⟩
  exact hlast.2

end Sequence

/-! ### Power-on (R700, R701) -/

theorem Cart.eq_nrom_of_known {c : Cart} {n : Nrom} (h : c.known = some n) : c = .nrom n := by
  cases c with
  | nrom m => exact congrArg Cart.nrom (Option.some.inj h)
  | external st => cases h

/-- Within a line after the pre-render line the dots only count. -/
theorem FrameClock.after_of_line {k : FrameClock} {n : Nat} (hline : 0 ≤ k.scanline) (hdot : k.dot + n ≤ 340) :
    k.after n = { k with dot := k.dot + n } := by
  induction n generalizing k with
  | zero => rfl
  | succ n ih =>
    have hnext : k.next = { k with dot := k.dot + 1 } := by
      rw [FrameClock.next, if_neg (by omega), if_neg (by omega)]
    rw [FrameClock.after, hnext, ih (k := { k with dot := k.dot + 1 }) hline (by show k.dot + 1 + n ≤ 340; omega)]
    show ({ k with dot := k.dot + 1 + n } : FrameClock) = { k with dot := k.dot + (n + 1) }
    rw [Nat.add_assoc, Nat.add_comm 1 n]

theorem State.memByte_prg {s : State} {n : Nrom} (hcart : s.cart = .nrom n) {a : Addr} (ha : 0x8000 ≤ a.toNat) :
    ∃ b, n.cpuRead a = some b ∧ s.memByte a = some b := by
  have hrom : n.cpuRead a = some (memGet n.prg (n.prgIndex a)) := by
    rw [Nrom.cpuRead, if_neg (by omega), if_neg (by omega)]
  refine ⟨_, hrom, ?_⟩
  rw [State.memByte, if_neg (by omega), if_neg (by omega), hcart]
  exact hrom

theorem inv_powerOn {ram vram oam secOam : Mem} {palette : List (Nat × BitVec 6)} {cart : Cart} (policy : UndocPolicy)
    (hram : Memory.wf 0x800 ram = true) (hvram : Memory.wf 0x800 vram = true) (hoam : Memory.wf 0x100 oam = true)
    (hsec : Memory.wf 0x20 secOam = true) (hpalette : paletteWf palette = true) (hcart : cart.wf = true) :
    (State.powerOn ram vram palette oam secOam cart policy).Inv := by
  have hgrid : (Ppu.powerOn vram palette oam secOam).onGrid = true := rfl
  have hmems : (Ppu.powerOn vram palette oam secOam).memsWf = true :=
    (Ppu.memsWf_iff _).2 ⟨hvram, hoam, hsec, hpalette, rfl, rfl⟩
  exact (State.inv_iff _).2 ⟨hram, ⟨hgrid, hmems⟩, hcart, by show Apu.powerOn.sound false = true; decide⟩

/-! ### The obligations -/

/-- Settles O12: the first action silences the devices, and no read or dot of the sequence raises what it cleared. -/
theorem resetSequenceSetsTheCpuAndSilencesTheDevices : Obligations.ResetSequenceSetsTheCpuAndSilencesTheDevices := by
  intro s hpending
  obtain ⟨l, h, hcpu, hl, hh, -⟩ := resetSequence_cpu s
  obtain ⟨hmem, hdevices, ⟨-, hbuttons0, hbuttons1⟩, -⟩ := storesOnly_resetSequence s
  obtain ⟨hprog, hoam⟩ := hdevices (by simp)
  obtain ⟨hnooam, hnodmc, hbytes⟩ := (State.noDma_iff _).1 (noDma_resetSequence s)
  obtain ⟨hppu, hsuppress⟩ := silent_ppu_resetSequence s
  have hapu := silent_apu_resetSequence s
  have henabled : s.resetSequence.apu.settings = (s.apu.statusWrite 0).settings := congrArg Programmed.apu hprog
  refine ⟨s.resetSequence, l, h, step_of_resetPending hpending, hcpu, hl, hh, cycles_resetSequence s, ram_resetSequence s,
    fun a => hmem a (by simp), (hoam rfl).2, congrArg Programmed.ppu hprog, congrArg Programmed.strobe hprog, hbuttons0,
    hbuttons1, hnooam, hnodmc, ?_, ?_, ?_, ?_, hbytes, hapu.pulse1, hapu.pulse2, hapu.tri, hapu.noise, hapu.dmcIrq,
    nmiPending_resetSequence s, oamPage_resetSequence s, hppu.sprite0Hit, hppu.spriteOverflow, hppu.w,
    hsuppress, hppu.nmiPrev, vbl_resetSequence s⟩
  · exact (congrArg (fun u : Apu => u.pulse1.enabled) henabled :)
  · exact (congrArg (fun u : Apu => u.pulse2.enabled) henabled :)
  · exact (congrArg (fun u : Apu => u.tri.enabled) henabled :)
  · exact (congrArg (fun u : Apu => u.noise.enabled) henabled :)

/-- Settles O13: the reset sequence from power-on, whose PPU begins at (0, 0) and whose frame counter begins at 0. -/
theorem powerOnReachesTheFirstFetch : Obligations.PowerOnReachesTheFirstFetch := by
  intro ram vram oam secOam palette n policy
  let s := State.powerOn ram vram palette oam secOam (.nrom n) policy
  obtain ⟨l, h, hcpu, hl, hh, hlatch⟩ := resetSequence_cpu s
  obtain ⟨low, hlow, hlow'⟩ := State.memByte_prg (s := s) (n := n) rfl (a := 0xFFFC) (by decide)
  obtain ⟨high, hhigh, hhigh'⟩ := State.memByte_prg (s := s) (n := n) rfl (a := 0xFFFD) (by decide)
  obtain rfl := hl low hlow'
  obtain rfl := hh high hhigh'
  obtain ⟨-, hdevices, -, -⟩ := storesOnly_resetSequence s
  obtain ⟨hprog, hoam⟩ := hdevices (by simp)
  have hsettings : s.resetSequence.ppu.settings = s.ppu.reset.settings := congrArg Programmed.ppu hprog
  have hclock := (clock_resetSequence s).trans
    (FrameClock.after_of_line (Int.le_refl 0) (by decide : 0 + 21 ≤ 340))
  have hp : s.resetSequence.p = .ofByte 0x24 := congrArg CpuView.p hcpu
  refine ⟨s.resetSequence, l, h, step_of_resetPending rfl, hlow, hhigh, congrArg CpuView.a hcpu, congrArg CpuView.x hcpu,
    congrArg CpuView.y hcpu, congrArg CpuView.sp hcpu, by rw [hp]; decide, congrArg CpuView.pc hcpu, hlatch,
    cycles_resetSequence s, congrArg FrameClock.scanline hclock, congrArg FrameClock.dot hclock,
    fc_resetSequence s ⟨rfl, rfl, rfl, rfl⟩ rfl, nmiPending_resetSequence s, congrArg CpuView.resetPending hcpu,
    congrArg CpuView.jammed hcpu, ram_resetSequence s, congrArg PpuSettings.ciram hsettings,
    congrArg PpuSettings.palette hsettings, (hoam rfl).2, secOam_resetSequence s,
    Cart.eq_nrom_of_known (known_resetSequence s)⟩

/-- Settles O9: at power-on everything but the given memories is a constant, and so is all of the reset state. -/
theorem resetSatisfiesTheInvariant : Obligations.ResetSatisfiesTheInvariant :=
  ⟨⟨by decide, by decide, by decide⟩,
    fun _ _ _ _ _ _ policy hram hvram hoam hsec hpalette hcart => inv_powerOn policy hram hvram hoam hsec hpalette hcart⟩

/-- Settles O14: the sequence is run from the one state. -/
theorem resetIsOneStepAfterPowerOn : Obligations.ResetIsOneStepAfterPowerOn :=
  (step_of_resetPending rfl).trans (congrArg Host.Outcome.next (by decide +kernel))

end Sys2Proof.Machine
end

section
/-!
PROOFS. `step_frame()` completes a frame (63_bus_dma_io.md R685). A step is a read cycle and then bus cycles and changes of registers
(`exists_busRun_of_step`); every cycle runs three dots, each of which brings the end of the frame nearer, whatever the
program does to PPUMASK meanwhile (`FrameClock.Due`).
-/

namespace Sys2Proof.Machine

/-! ### A step as a chain of bus cycles (20 R111, 60 R454) -/

/-- `t` is reached from `s` by CPU read and write cycles, with the DMA they serve, and changes of the CPU's registers. -/
inductive BusRun (s : State) : State → Prop
  | start : BusRun s s
  | read {t : State} (h : BusRun s t) (a : Addr) : BusRun s (t.memRead a).2
  | write {t : State} (h : BusRun s t) (a : Addr) (v : Byte) : BusRun s (t.memWrite a v)
  | regs {t u : State} (h : BusRun s t) (k : CpuOnly t u) : BusRun s u

namespace BusRun

variable {s t : State} (h : BusRun s t)

include h

theorem implied : BusRun s t.implied := h.read t.pc

theorem fetchByte : BusRun s t.fetchByte.2 := by
  simp only [State.fetchByte]
  exact (h.read _).regs (cpuOnly_withPc _ _)

theorem pointerX (z : Byte) : BusRun s (t.pointerX z).2 := by
  simp only [State.pointerX]
  exact ((h.read _).read _).read _

theorem pointerY (z : Byte) : BusRun s (t.pointerY z).2 := by
  simp only [State.pointerY]
  exact (h.read _).read _

theorem locate (m : MemMode) : BusRun s (t.locate m).2 := by
  cases m with
  | zp z | abs a => exact h
  | zpX z | zpY z | absX a | absY a => exact h.read _
  | indX z => exact h.pointerX z
  | indY z => exact (h.pointerY z).read _

theorem readIndexed (base : Addr) (idx : Byte) : BusRun s (t.readIndexed base idx).2 := by
  unfold State.readIndexed
  split
  · exact (h.read _).read _
  · exact h.read _

theorem readMem (m : MemMode) : BusRun s (t.readMem m).2 := by
  cases m with
  | zp z | abs a => exact h.read _
  | zpX z | zpY z => exact (h.read _).read _
  | absX a | absY a => exact h.readIndexed _ _
  | indX z => exact (h.pointerX z).read _
  | indY z =>
    simp only [State.readMem]
    exact (h.pointerY z).readIndexed _ _

theorem readOperand (o : ReadOperand) : BusRun s (t.readOperand o).2 := by
  cases o with
  | imm i => exact h
  | mem m => exact h.readMem m

theorem store (m : MemMode) (v : Byte) : BusRun s (t.store m v) := (h.locate m).write _ v

theorem modify (m : MemMode) {f : Modifier} (hf : ∀ v u, CpuOnly u (f v u).2) : BusRun s (t.modify m f) :=
  ((((h.locate m).read _).write _ _).regs (hf _ _)).write _ _

theorem modifyOperand (o : RmwOperand) {f : Modifier} (hf : ∀ v u, CpuOnly u (f v u).2) :
    BusRun s (t.modifyOperand o f) := by
  cases o with
  | acc => exact (h.implied.regs (hf _ _)).regs (cpuOnly_withA _ _)
  | mem m => exact h.modify m hf

theorem push (v : Byte) : BusRun s (t.push v) := (h.write _ v).regs (cpuOnly_withSp _ _)

theorem pull : BusRun s t.pull.2 := (h.regs (cpuOnly_withSp _ _)).read _

theorem pullPc : BusRun s t.pullPc := h.pull.pull.regs (cpuOnly_withPc _ _)

theorem pullFlags : BusRun s t.pullFlags := h.pull.regs (cpuOnly_withP _ _)

theorem enterVector (vec : Addr) : BusRun s (t.enterVector vec) :=
  (((h.read _).regs (cpuOnly_withP _ _)).read _).regs (cpuOnly_withPc _ _)

theorem saveAndEnter (status : Byte) (vec : Addr) : BusRun s (t.saveAndEnter status vec) :=
  (((h.push _).push _).push status).enterVector vec

theorem branch (cond : Bool) (r : Byte) : BusRun s (t.branch cond r) := by
  unfold State.branch
  split
  · dsimp only
    split
    · exact (h.read _).regs (cpuOnly_withPc _ _)
    · exact ((h.read _).read _).regs (cpuOnly_withPc _ _)
  · exact h

theorem storeHigh (base : Addr) (idx reg : Byte) : BusRun s (t.storeHigh base idx reg) := (h.read _).write _ _

theorem shaBase (m : MemMode) : BusRun s (t.shaBase m).2 := by
  cases m with
  | indY z => exact h.pointerY z
  | _ => exact h

theorem next : ∀ u, (.next t : Out) = .next u → BusRun s u := by
  rintro _ ⟨⟩
  exact h

theorem otherUndoc (op : Byte) {n : State} (hn : BusRun s n) : ∀ u, t.otherUndoc op n = .next u → BusRun s u := by
  cases hp : t.undocPolicy with
  | refuse => rw [otherUndoc_of_refuse op n hp]; rintro _ ⟨⟩
  | nop1 => rw [otherUndoc_of_nop1 op n hp]; exact h.implied.next
  | nmos => rw [otherUndoc_of_nmos op n hp]; exact hn.next

/-- An instruction is its template's cycles and what it does to the registers. -/
theorem exec (i : Instr) : ∀ u, exec i t = .next u → BusRun s u := by
  have himplied := h.implied
  have hstack : BusRun s (t.implied.dummyRead (stackAddr t.sp)) := himplied.read _
  cases i with
  | lda o | and o | ora o | eor o => exact ((h.readOperand o).regs (cpuOnly_setA _ _)).next
  | ldx o => exact ((h.readOperand o).regs (cpuOnly_setX _ _)).next
  | ldy o => exact ((h.readOperand o).regs (cpuOnly_setY _ _)).next
  | adc o | sbc o => exact ((h.readOperand o).regs (cpuOnly_addA _ _)).next
  | cmp o | cpx o | cpy o => exact ((h.readOperand o).regs (cpuOnly_compare _ _ _)).next
  | bit o => exact ((h.readOperand o).regs (cpuOnly_withP _ _)).next
  | lax m => exact ((h.readMem m).regs ((cpuOnly_withX _ _).trans (cpuOnly_setA _ _))).next
  | sbcEB b => exact (h.regs (cpuOnly_addA _ _)).next
  | sta m | stx m | sty m | sax m => exact (h.store m _).next
  | tax | tsx | inx | dex => exact (himplied.regs (cpuOnly_setX _ _)).next
  | tay | iny | dey => exact (himplied.regs (cpuOnly_setY _ _)).next
  | txa | tya => exact (himplied.regs (cpuOnly_setA _ _)).next
  | txs => exact (himplied.regs (cpuOnly_withSp _ _)).next
  | clc | sec | cli | sei | cld | sed | clv => exact (himplied.regs (cpuOnly_withP _ _)).next
  | asl o | lsr o | rol o | ror o => exact (h.modifyOperand o (cpuOnly_onFlags _)).next
  | inc m | dec m => exact (h.modify m (cpuOnly_onFlags _)).next
  | slo m | rla m | sre m => exact (h.modify m (cpuOnly_shiftThen _ _)).next
  | rra m => exact (h.modify m cpuOnly_rorThenAdd).next
  | dcp m => exact (h.modify m cpuOnly_decThenCompare).next
  | isb m => exact (h.modify m cpuOnly_incThenSub).next
  | bpl r | bmi r | bvc r | bvs r | bcc r | bcs r | bne r | beq r => exact (h.branch _ r).next
  | jmp target => exact (h.regs (cpuOnly_withPc _ _)).next
  | jmpInd pointer => exact (((h.read _).read _).regs (cpuOnly_withPc _ _)).next
  | jsr target => exact (((((h.read _).push _).push _).read _).regs (cpuOnly_withPc _ _)).next
  | rts => exact ((((h.read _).read _).pullPc.read _).regs (cpuOnly_withPc _ _)).next
  | rti => exact ((h.read _).read _).pullFlags.pullPc.next
  | brk => exact (((h.read _).regs (cpuOnly_withPc _ _)).saveAndEnter _ _).next
  | pha | php => exact (himplied.push _).next
  | pla => exact (hstack.pull.regs (cpuOnly_setA _ _)).next
  | plp => exact hstack.pullFlags.next
  | nop op o =>
    cases o with
    | implied => exact himplied.next
    | read r => exact (h.readOperand r).next
  | kil op => exact (himplied.regs (cpuOnly_jam _)).next
  | anc op b => exact h.otherUndoc _ (h.regs ((cpuOnly_setA _ _).trans (cpuOnly_withP _ _)))
  | alr b | arr b => exact h.otherUndoc _ (h.regs ((cpuOnly_withA _ _).trans (cpuOnly_withP _ _)))
  | axs b => exact h.otherUndoc _ (h.regs ((cpuOnly_withX _ _).trans (cpuOnly_withP _ _)))
  | xaa b => exact h.otherUndoc _ (h.regs (cpuOnly_setA _ _))
  | lxa b => exact h.otherUndoc _ (h.regs ((cpuOnly_withX _ _).trans (cpuOnly_setA _ _)))
  | las a =>
    exact h.otherUndoc _
      ((h.readMem (.absY a)).regs (((cpuOnly_withX _ _).trans (cpuOnly_withSp _ _)).trans (cpuOnly_setA _ _)))
  | sha m => exact h.otherUndoc _ ((h.shaBase m).storeHigh _ _ _)
  | shx a | shy a => exact h.otherUndoc _ (h.storeHigh a _ _)
  | tas a => exact h.otherUndoc _ ((h.regs (cpuOnly_withSp _ _)).storeHigh a _ _)

omit h in
/-- The fetch after its first byte. -/
theorem fetchInstr (h : BusRun s t.fetchByte.2) : BusRun s t.fetchInstr.2 := by
  unfold State.fetchInstr
  dsimp only
  split
  · exact h
  · exact h.fetchByte
  · exact h.fetchByte.fetchByte

end BusRun

/-- The reset sequence after its first read. -/
theorem busRun_resetSequence (s : State) : BusRun (s.resetDevices.dummyRead s.pc) s.resetSequence := by
  have hstack : BusRun (s.resetDevices.dummyRead s.pc) _ := (((BusRun.start.read s.pc).read (stackAddr s.sp)).read
    (stackAddr (s.sp - 1))).read (stackAddr (s.sp - 2))
  exact ((((hstack.regs (cpuOnly_withSp _ 0xFD)).read resetVector).regs (cpuOnly_withP _ (.ofByte 0x24))).read
    (resetVector + 1)).regs (cpuOnly_withPc _ _)

/-- A jam cycle, an interrupt and an instruction begin with a read cycle, and so does the reset sequence after it has silenced the
devices. -/
theorem exists_busRun_of_step {s t : State} (hstep : step s = .next t) :
    ∃ u a, (u = s ∨ u = s.clearNmi ∨ u = s.resetDevices) ∧ BusRun (u.memRead a).2 t := by
  have hinterrupt : ∀ (u : State) (vec : Addr), BusRun (u.memRead u.pc).2 (u.interruptSequence vec) :=
    fun u vec => (BusRun.start.read u.pc).saveAndEnter _ vec
  unfold step State.cpuStep at hstep
  split at hstep
  · cases hstep
    exact ⟨_, s.pc, .inr (.inr rfl), busRun_resetSequence s⟩
  split at hstep
  · cases hstep
    exact ⟨s, 0xFFFF, .inl rfl, .start⟩
  split at hstep
  · cases hstep
    exact ⟨_, s.pc, .inr (.inl rfl), hinterrupt s.clearNmi nmiVector⟩
  split at hstep
  · cases hstep
    exact ⟨s, s.pc, .inl rfl, hinterrupt s irqVector⟩
  · exact ⟨s, s.pc, .inl rfl, (BusRun.start.regs (cpuOnly_withPc _ _)).fetchInstr.exec _ t hstep⟩

/-- No bus cycle changes the policy. -/
theorem BusRun.undocPolicy {s t : State} (h : BusRun s t) : t.undocPolicy = s.undocPolicy := by
  induction h with
  | start => rfl
  | read _ a ih => exact (calm_memRead _ a).policy.trans ih
  | write _ a v ih =>
    obtain ⟨-, -, ⟨hpolicy, -⟩, -⟩ := storesOnly_memWrite _ a v
    exact hpolicy.trans ih
  | regs _ k ih => exact k.policy.trans ih

theorem undocPolicy_step {s t : State} (hstep : step s = .next t) : t.undocPolicy = s.undocPolicy := by
  obtain ⟨u, a, hu, hrun⟩ := exists_busRun_of_step hstep
  refine hrun.undocPolicy.trans ((calm_memRead u a).policy.trans ?_)
  rcases hu with rfl | rfl | rfl <;> rfl

/-! ### The end of the frame comes nearer (61 R504, R531) -/

/-- The frame is complete, or at most `d` dots from its end, if none is left out. Whether the pre-render line leaves one out
(R531) depends on PPUMASK when its dot comes, so that a program may change it meanwhile: `dotsLeft` does not count down through a
step, this bound does. -/
def FrameClock.Due (d : Nat) (k : FrameClock) : Prop :=
  k.frameComplete = true ∨ (k.scanline ≤ 260 ∧ k.dot ≤ 340 ∧ 341 * (261 - k.scanline) - k.dot ≤ d)

section Due

variable {d e : Nat} {k : FrameClock}

theorem FrameClock.Due.mono (h : k.Due d) (hde : d ≤ e) : k.Due e :=
  h.imp_right fun ⟨hline, hdot, hleft⟩ => ⟨hline, hdot, by omega⟩

theorem FrameClock.Due.next (h : k.Due (d + 1)) : k.next.Due d := by
  unfold FrameClock.next
  rcases h with hcomplete | ⟨hline, hdot, hleft⟩
  · refine .inl ?_
    split
    · exact hcomplete
    · split
      · split
        · rfl
        · exact hcomplete
      · exact hcomplete
  · split
    · next hskip => exact .inr ⟨(by decide : (0 : Int) ≤ 260), Nat.zero_le _, by
        rw [lineStart_scanline, lineStart_dot]
        omega⟩
    split
    · split
      · exact .inl rfl
      · exact .inr ⟨by rw [lineStart_scanline]; omega, Nat.zero_le _, by rw [lineStart_scanline, lineStart_dot]; omega⟩
    · refine .inr ⟨hline, ?_, ?_⟩
      · show k.dot + 1 ≤ 340
        omega
      · show 341 * (261 - k.scanline) - ((k.dot + 1 : Nat) : Int) ≤ d
        omega

/-- No position on the grid is 0 dots from the end. -/
theorem FrameClock.Due.complete (h : k.Due 0) : k.frameComplete = true := by
  rcases h with hcomplete | ⟨hline, hdot, hleft⟩
  · exact hcomplete
  · omega

end Due

/-- A register write moves no part of the clock but PPUMASK's. -/
theorem clock_ppuRegWrite (p : Ppu) (c : Cart) (r : Nat) (v : Byte) :
    (ppuRegWrite p c r v).1.clock = { p.clock with rendering := (ppuRegWrite p c r v).1.rendering } := by
  unfold ppuRegWrite Ppu.writeOamData Ppu.writeScroll Ppu.writeAddr writeData ppuBusWrite nametableWrite
  dsimp only
  repeat' split
  all_goals rfl

/-- The frame of the machine's PPU is due within `d` dots. -/
def State.FrameDue (d : Nat) (s : State) : Prop := s.ppu.clock.Due d

section FrameDue

variable {d : Nat} {s : State}

theorem frameDue_tick (h : s.FrameDue (d + 3)) : s.tick.FrameDue d :=
  tick_ppu (P := fun n p => p.clock.Due n) (fun _ p c hp => by rw [clock_ppuDot]; exact hp.next) h

theorem frameDue_busRead (a : Addr) (h : s.FrameDue d) : (s.busRead a).2.FrameDue d :=
  busRead_ppu (P := fun p => p.clock.Due d) a (fun p c r hp => by rw [clock_ppuRegRead]; exact hp) h

theorem frameDue_busWrite (a : Addr) (v : Byte) (h : s.FrameDue d) : (s.busWrite a v).FrameDue d := by
  have hreg : (ppuRegWrite s.ppu s.cart (a.toNat % 8) v).1.clock.Due d := by rw [clock_ppuRegWrite]; exact h
  unfold State.busWrite
  repeat' split
  all_goals first | exact h | exact hreg

/-- A read with its tick brings the end three dots nearer. -/
theorem frameDue_readAndTick (a : Addr) (h : s.FrameDue (d + 3)) : (s.readAndTick a).2.FrameDue d := by
  simp only [State.readAndTick]
  exact frameDue_tick (s := (s.busRead a).2.latch _) (frameDue_busRead a h)

theorem frameDue_memWrite (a : Addr) (v : Byte) (h : s.FrameDue (d + 3)) : (s.memWrite a v).FrameDue d :=
  frameDue_tick (s := (s.busWrite a v).latch v) (frameDue_busWrite a v h)

/-! DMA does not put it off. -/

variable (h : s.FrameDue d)

include h

theorem frameDue_idle (n : Nat) : (s.idle n).FrameDue d := by
  induction n generalizing s with
  | zero => exact h
  | succ n ih => exact ih (frameDue_tick (h.mono (Nat.le_add_right d 3)))

theorem frameDue_dmcDeliver (b : Byte) : (s.dmcDeliver b).FrameDue d := h

theorem frameDue_serveDmcIfPending : s.serveDmcIfPending.FrameDue d := by
  unfold State.serveDmcIfPending
  split
  · simp only [State.serveDmc]
    exact frameDue_dmcDeliver (frameDue_readAndTick _ ((frameDue_idle h _).mono (Nat.le_add_right d 3))) _
  · exact h

theorem frameDue_oamCopy (page : Byte) (n : Nat) : (s.oamCopy page n).FrameDue d := by
  induction n generalizing s with
  | zero => exact h
  | succ n ih =>
    have hread := frameDue_readAndTick (joinBytes page (BitVec.ofNat 8 (255 - n))) (h.mono (Nat.le_add_right d 3))
    simp only [State.oamCopy]
    exact ih (frameDue_tick (s := ((s.readAndTick _).2.dmaPut _).latch _) (hread.mono (Nat.le_add_right d 3)))

theorem frameDue_serveOamIfPending : s.serveOamIfPending.FrameDue d := by
  unfold State.serveOamIfPending State.serveOam
  split
  · exact frameDue_oamCopy (frameDue_idle (s := s.oamDmaStart) h _) _ _
  · exact h

theorem frameDue_serviceDma : s.serviceDma.FrameDue d :=
  frameDue_serveDmcIfPending (frameDue_serveOamIfPending (frameDue_serveDmcIfPending h))

end FrameDue

/-- A read cycle brings the end three dots nearer, whatever DMA runs before it. -/
theorem frameDue_memRead {d : Nat} {s : State} (a : Addr) (h : s.FrameDue (d + 3)) : (s.memRead a).2.FrameDue d :=
  frameDue_readAndTick a (frameDue_serviceDma h)

theorem BusRun.frameDue {d : Nat} {s t : State} (h : BusRun s t) (hs : s.FrameDue d) : t.FrameDue d := by
  induction h with
  | start => exact hs
  | read _ a ih => exact frameDue_memRead a (ih.mono (Nat.le_add_right d 3))
  | write _ a v ih => exact frameDue_memWrite a v (ih.mono (Nat.le_add_right d 3))
  | regs _ k ih => rw [State.FrameDue, k.ppu]; exact ih

/-- Every step brings the end of the frame three dots nearer. -/
theorem frameDue_step {d : Nat} {s t : State} (hstep : step s = .next t) (h : s.FrameDue (d + 3)) : t.FrameDue d := by
  obtain ⟨u, a, hu, hrun⟩ := exists_busRun_of_step hstep
  have hdue : u.FrameDue (d + 3) := by
    rcases hu with rfl | rfl | rfl <;> exact h
  exact hrun.frameDue (frameDue_memRead a hdue)

/-! ### The obligation -/

/-- With a step of fuel for every three dots, the frame completes or a step is refused. -/
theorem stepUntilFrame_completes {n : Nat} {s : State} (h : s.FrameDue (3 * n)) :
    (∃ t, stepUntilFrame n s = .next t ∧ t.ppu.frameComplete = true)
      ∨ (s.undocPolicy = .refuse
          ∧ ∃ op, otherUndocOpcodes.contains op = true ∧ stepUntilFrame n s = .refused (.undocRefused op)) := by
  induction n generalizing s with
  | zero => exact .inl ⟨s, rfl, h.complete⟩
  | succ n ih =>
    rcases stepStopsOnlyOnRefusedOpcodes s with ⟨t, hstep⟩ | ⟨hpolicy, hop, hstep⟩
    · have hunfold : stepUntilFrame (n + 1) s = if t.ppu.frameComplete then .next t else stepUntilFrame n t := by
        rw [stepUntilFrame, hstep]
      rw [hunfold]
      split
      · next hcomplete => exact .inl ⟨t, rfl, hcomplete⟩
      · rw [← undocPolicy_step hstep]
        exact ih (frameDue_step hstep h)
    · exact .inr ⟨hpolicy, _, hop, by rw [stepUntilFrame, hstep]⟩

/-- Settles O10: from any position on the grid the frame ends within 89342 dots. -/
theorem stepFrameCompletesAFrameUnlessRefused : Obligations.StepFrameCompletesAFrameUnlessRefused := by
  intro s hgrid
  obtain ⟨hfirst, hlast, hdot, -⟩ := (Ppu.onGrid_iff s.ppu).1 hgrid
  have hdue : s.clearFrame.FrameDue (3 * frameSteps) := by
    refine .inr ⟨hlast, hdot, ?_⟩
    show 341 * (261 - s.ppu.scanline) - s.ppu.dot ≤ ((3 * 29781 : Nat) : Int)
    omega
  rcases stepUntilFrame_completes hdue with ⟨t, hrun, hcomplete⟩ | ⟨hpolicy, op, hop, hrun⟩
  · exact .inl ⟨t, hrun, hcomplete, by rw [stepFrame, hrun]; rfl⟩
  · exact .inr ⟨hpolicy, op, hop, by rw [stepFrame, hrun]⟩

end Sys2Proof.Machine
end
